-- ==== Sys2Proof/Word.lean ====
section
/-! DEFINITION. The two word types of the hardware: a byte (R40) and a register of W = 64 bits (R3, R17). -/

namespace Sys2Proof

/-- One byte of buffer memory, and the byte value of a leaf (R11, R40). -/
abbrev Byte := BitVec 8

/-- A host register, an address, a length, a bit position: W = AW = 64 bits (R3, R17). -/
abbrev Word := BitVec 64

end Sys2Proof
end

