-- ==== Sys2Proof/Syntax.lean ====
section
/-! DEFINITION. The commands (R63), the registers (R17), what the host can do to the block (R60, R52, R200), and the lines of
a host script (R69, R70). -/

namespace Sys2Proof

/-- The ten commands of R63, one constructor per row of spec/opcode_table.json. Operands are implicit (R67), so no constructor
has a field. -/
inductive Instr where
  | nop         -- 0x00 NOP, R160
  | create      -- 0x01 CREATE, R94
  | createPart  -- 0x02 CREATE_PART, R95
  | size        -- 0x03 SIZE, R161
  | isInit      -- 0x04 IS_INIT, R162
  | encode      -- 0x05 ENCODE, R120
  | decode      -- 0x06 DECODE, R140
  | treeExport  -- 0x07 TREE_EXPORT, R166
  | treeImport  -- 0x08 TREE_IMPORT, R169
  | clear       -- 0x09 CLEAR, R99
deriving DecidableEq, Repr

/-- The ten host registers of R17. -/
inductive Reg where
  | cmd | status | srcAddr | srcLen | dstAddr | dstLen | bitOffset | endBitOffset | res0 | res1
deriving DecidableEq, Repr

/-- One action of the host or the platform on the block or on buffer memory. `wr` and `rd` are register accesses of any width
at any offset; R60 gives a meaning to the aligned 64-bit ones only (`HostAction.wellFormed`), the others are refused (R28). -/
inductive HostAction where
  /-- A write of `bytes` bytes at `offset` of the register space: `WR(offset, value)` when `bytes = 8` (R60). -/
  | wr (offset bytes : Nat) (value : Word)
  /-- A read of `bytes` bytes at `offset` of the register space: `RD(offset)` when `bytes = 8` (R60). -/
  | rd (offset bytes : Nat)
  /-- The host stores a byte in buffer memory outside a command (R40, R52, `mem` of R70). -/
  | memWr (addr : Word) (value : Byte)
  /-- The host reads a byte of buffer memory outside a command (R40, R52). -/
  | memRd (addr : Word)
  /-- The platform applies the block's reset, between commands (R200). -/
  | reset
deriving DecidableEq, Repr

/-- A line of a host script: the three transactions of R69, the five pseudo-operations and the `mem` directive of R70. -/
inductive ScriptLine where
  | wr (r : Reg) (value : Word)
  | rd (r : Reg)
  | cmd (i : Instr)
  | src (addr len : Word)
  | dst (addr len : Word)
  | off (start : Word)
  | offEnd (start stop : Word)
  | res
  | mem (addr : Word) (bytes : List Byte)
deriving DecidableEq, Repr

end Sys2Proof
end

