-- ==== Sys2Proof/WellFormed.lean ====
section
/-! DEFINITION. Which terms of the syntax the spec gives a meaning. A command has no operand field (R61), so every command is
well-formed; a register access is well-formed when it is an aligned access of 64 bits (R28, R60). -/

namespace Sys2Proof

/-- Every command of R63 is well-formed: the format has no field that could be wrong (R61, R66). -/
def Instr.wellFormed : Instr → Bool
  | .nop => true
  | .create => true
  | .createPart => true
  | .size => true
  | .isInit => true
  | .encode => true
  | .decode => true
  | .treeExport => true
  | .treeImport => true
  | .clear => true

/-- A 64-bit access at a multiple of 8 bytes, the only register access R28 defines. -/
def alignedAccess (offset bytes : Nat) : Bool :=
  bytes == 8 && offset % 8 == 0

/-- "Only aligned 64-bit accesses are defined" (R28); the other actions have no width or alignment. -/
def HostAction.wellFormed : HostAction → Bool
  | .wr offset bytes _ => alignedAccess offset bytes
  | .rd offset bytes => alignedAccess offset bytes
  | .memWr _ _ => true
  | .memRd _ => true
  | .reset => true

end Sys2Proof
end

