-- ==== Sys2Proof/Decode.lean ====
section
/-! DEFINITION. From the 64-bit value written to CMD to the command it selects (R61 to R66), from a register offset to the
register (R17), and back: the encoder and the assembler of R69, R70. -/

namespace Sys2Proof

/-- Why a command word selects no command. -/
inductive Illegal where
  /-- One of bits 63:8 is set, whatever the opcode field (R65). -/
  | reservedBits
  /-- The opcode is one of 0x0A to 0xFF (R64). -/
  | reservedOpcode
deriving DecidableEq, Repr

/-- What a command word selects: one of the ten commands, or ILLEGAL with the reason (R62). -/
inductive Decoded where
  | command (i : Instr)
  | illegal (why : Illegal)
deriving DecidableEq, Repr

/-- `opcode`, bits 7:0 of the command word (R61). -/
def opcodeField (v : Word) : Nat :=
  v.toNat % 256

/-- `zero`, bits 63:8 of the command word (R61). -/
def zeroField (v : Word) : Nat :=
  v.toNat / 256

/-- The opcode map of R63 (0x00 to 0x09); every other opcode is reserved (R64). -/
def commandOf : Nat → Decoded
  | 0x00 => .command .nop
  | 0x01 => .command .create
  | 0x02 => .command .createPart
  | 0x03 => .command .size
  | 0x04 => .command .isInit
  | 0x05 => .command .encode
  | 0x06 => .command .decode
  | 0x07 => .command .treeExport
  | 0x08 => .command .treeImport
  | 0x09 => .command .clear
  | _ => .illegal .reservedOpcode

/-- R62: bits 63:8 are looked at first, then the opcode. Total: every 64-bit value selects exactly one behaviour. -/
def decodeWord (v : Word) : Decoded :=
  if zeroField v = 0 then commandOf (opcodeField v) else .illegal .reservedBits

/-- The command word of a command: the match column of R63. -/
def encode : Instr → Word
  | .nop => 0x0000000000000000
  | .create => 0x0000000000000001
  | .createPart => 0x0000000000000002
  | .size => 0x0000000000000003
  | .isInit => 0x0000000000000004
  | .encode => 0x0000000000000005
  | .decode => 0x0000000000000006
  | .treeExport => 0x0000000000000007
  | .treeImport => 0x0000000000000008
  | .clear => 0x0000000000000009

/-- The decoder on a word as spec/opcode_table.json numbers its bits: the command word is one 64-bit value, bit 0 its least
significant bit (R5, R61), and bits at `nbits` and above are 0. -/
def decodeTableWord (nbits w : Nat) : Option Instr :=
  match decodeWord (BitVec.ofNat 64 (w % 2 ^ nbits)) with
  | .command i => some i
  | .illegal _ => none

/-- Byte offset of a register from the block's base address (R17). -/
def Reg.offset : Reg → Nat
  | .cmd => 0x00
  | .status => 0x08
  | .srcAddr => 0x10
  | .srcLen => 0x18
  | .dstAddr => 0x20
  | .dstLen => 0x28
  | .bitOffset => 0x30
  | .endBitOffset => 0x38
  | .res0 => 0x40
  | .res1 => 0x48

/-- The register at an offset, `none` for "an offset not in the table of rule R17" (R28). -/
def Reg.ofOffset : Nat → Option Reg
  | 0x00 => some .cmd
  | 0x08 => some .status
  | 0x10 => some .srcAddr
  | 0x18 => some .srcLen
  | 0x20 => some .dstAddr
  | 0x28 => some .dstLen
  | 0x30 => some .bitOffset
  | 0x38 => some .endBitOffset
  | 0x40 => some .res0
  | 0x48 => some .res1
  | _ => none

/-- `WR(offset of r, value)`, an aligned 64-bit write (R60, R69). -/
def HostAction.write (r : Reg) (value : Word) : HostAction :=
  .wr r.offset 8 value

/-- `RD(offset of r)`, an aligned 64-bit read (R60, R69). -/
def HostAction.read (r : Reg) : HostAction :=
  .rd r.offset 8

/-- `cmd <MNEMONIC>`: `WR(0x00, opcode of MNEMONIC)` (R69). -/
def HostAction.command (i : Instr) : HostAction :=
  .write .cmd (encode i)

/-- The host stores bytes at ascending addresses: the `mem` directive of R70. -/
def HostAction.store : Word → List Byte → List HostAction
  | _, [] => []
  | a, b :: bs => .memWr a b :: HostAction.store (a + 1) bs

/-- The expansion of one script line (R69, R70). -/
def ScriptLine.actions : ScriptLine → List HostAction
  | .wr r v => [.write r v]
  | .rd r => [.read r]
  | .cmd i => [.command i]
  | .src a l => [.write .srcAddr a, .write .srcLen l]
  | .dst a l => [.write .dstAddr a, .write .dstLen l]
  | .off s => [.write .bitOffset s]
  | .offEnd s e => [.write .bitOffset s, .write .endBitOffset e]
  | .res => [.read .status, .read .res0, .read .res1]
  | .mem a bs => HostAction.store a bs

/-- A host program: its lines' actions in order (R60, R69, R71). -/
def assemble (script : List ScriptLine) : List HostAction :=
  script.flatMap ScriptLine.actions

end Sys2Proof
end

