-- ==== Sys2Proof/Config.lean ====
section
/-! DEFINITION. The parameters of R3. `W`, `AW` and what follows from them are constants here (log 5); the one parameter the
spec leaves open, `Accessible`, is a value of `Config`, carried unchanged in the state (log 4). -/

namespace Sys2Proof

namespace Config

/-- Width of every length, bit position, frequency and register (R3). -/
abbrev W : Nat := 64

/-- Width of a memory address (R3). -/
abbrev AW : Nat := 64

/-- Number of byte values (R3). -/
abbrev NSYM : Nat := 256

/-- Largest code length the code table can hold (R3). -/
abbrev MAXLEN : Nat := 8

/-- Largest value of a W-bit quantity (R3). -/
abbrev MAXV : Nat := 2 ^ 64 - 1

/-- Largest source length one ENCODE processes, 2^(W-3) - 1 (R3, R122). -/
abbrev SRC_CLAMP : Nat := 2 ^ 61 - 1

/-- Largest number of nodes of a tree (R3, R15). -/
abbrev MAXNODES : Nat := 511

end Config

/-- The addresses `base`, …, `base + len - 1`; empty when `len = 0` (R48). -/
structure Region where
  base : Nat
  len  : Nat
deriving DecidableEq, Repr

/-- What an implementation fixes: the parameter `Accessible` of R3, as the finite list of address ranges the block can NOT
reach. DESIGN CHOICE (log 4): the address space is finite, so every predicate on addresses is such a list. -/
structure Config where
  unreachable : List Region
deriving DecidableEq, Repr

/-- The spec's default: every address is accessible (R3, U2). -/
def Config.everyAddress : Config := { unreachable := [] }

end Sys2Proof
end

