-- ==== Sys2Proof/Machine/State.lean ====
section
/-! DEFINITION. The state of the machine as plain data: the Dictionary, the host registers, the buffer memory, and beside them
what the host does next, what its reads returned, and the platform's parameter. -/

namespace Sys2Proof.Machine

/-- A TreeNode (R8, R11): a leaf with its byte value and frequency, or an internal node with exactly two children and a
frequency. A frequency is a natural (R4, R11); the bound MAXV is an invariant (R15), not a width. -/
inductive TreeNode where
  | leaf (byte : Byte) (freq : Nat)
  | node (left right : TreeNode) (freq : Nat)
deriving DecidableEq, Repr

/-- The causes a command can end with (R180). Codes 10 to 15 are never produced (U10) and have no constructor. -/
inductive Cause where
  | ok | uninit | unknownSymbol | bufferExhausted | malformedTree
  | empty | codeWidth | freqOverflow | clamped | illegalCmd
deriving DecidableEq, Repr

/-- Buffer memory (R40): the bytes that differ from `unlistedByte`, by strictly rising address (`Memory.wf`). -/
abbrev Memory := List Host.Cell

/-- What an address that no cell lists reads as. DESIGN CHOICE (log 6): the spec gives buffer memory no contents at reset. -/
def unlistedByte : Byte := 0

/-- The machine. `root` to `res1` are the whole state of the block (R10, R17, R32); `mem` is the buffer memory it masters (R40);
`pending`, `replies` and `platform` are the model's own (log 1, log 3, log 4). -/
structure State where
  /-- ROOT, the Dictionary (R10). -/
  root : Option TreeNode
  /-- STATUS.CAUSE (R19). -/
  cause : Cause
  /-- SRC_ADDR (R20). -/
  srcAddr : Word
  /-- SRC_LEN (R21). -/
  srcLen : Word
  /-- DST_ADDR (R22). -/
  dstAddr : Word
  /-- DST_LEN (R23). -/
  dstLen : Word
  /-- BIT_OFFSET (R24). -/
  bitOffset : Word
  /-- END_BIT_OFFSET, of which only bits 2:0 exist (R25). -/
  endBitOffset : BitVec 3
  /-- RES0 (R26). -/
  res0 : Word
  /-- RES1 (R27). -/
  res1 : Word
  /-- The buffer memory (R40). -/
  mem : Memory
  /-- The host's actions still to come, the next one first (R60, log 1). -/
  pending : List HostAction
  /-- The values the host's reads have returned, oldest first (R60, log 3). -/
  replies : List Word
  /-- The parameter `Accessible` (R3, log 4). -/
  platform : Config
deriving DecidableEq, Repr

/-- No fault exists: the spec gives the block no fault of its own and forbids a model to invent one (R190, U2); every command
ends by `finish` with a cause, which is a next state (R181). Safe: there is nothing to raise (log 17). -/
inductive Fault where
deriving DecidableEq, Repr

/-- The cases in which the spec gives a step no outcome (R190), and the arm not modelled yet. -/
inductive Refusal where
  /-- Raised by an arm of `exec` that has no meaning yet; no arm raises it now. Safe. -/
  | notModelled (mnemonic : String)
  /-- Raised by a command in its memory phase whose non-empty source or destination region passes the top of the address
  space (R49 (a), U1). Safe: the spec says a model refuses it. -/
  | regionWraps
  /-- Raised by a command in its memory phase whose region holds an address that is not `Accessible` (R49 (b), U2). Safe. -/
  | regionNotAccessible
  /-- Raised by ENCODE and DECODE when the source and destination regions share an address (R49 (c), U3). Safe. -/
  | regionsOverlap
  /-- Raised by a register access of the host that is not an aligned 64-bit access (R28, U7). Safe. -/
  | registerAccess
deriving DecidableEq, Repr

/-- After reset (R200): the dictionary created empty, every register 0, CAUSE = OK. Memory lists nothing (log 6), the host has
done nothing yet (log 1, log 3), and every address is accessible, the spec's default (R3, log 4). -/
def State.reset : State where
  root := none
  cause := .ok
  srcAddr := 0
  srcLen := 0
  dstAddr := 0
  dstLen := 0
  bitOffset := 0
  endBitOffset := 0
  res0 := 0
  res1 := 0
  mem := []
  pending := []
  replies := []
  platform := .everyAddress

end Sys2Proof.Machine
end

