-- ==== Sys2Proof/Machine/Ops.lean ====
section
/-! DEFINITION. The shared operations: bits (R5), buffer memory (R41 to R45), trees and the dictionary (R8, R12, R90), the
updates of the state, the end of every command (`finish`, R181), and the test of the memory phase (R49). -/

namespace Sys2Proof.Machine

/-! Bits and bytes of naturals. -/

/-- `bit(v,k) = (v div 2^k) mod 2` (R5). -/
def bit (v k : Nat) : Nat :=
  v / 2 ^ k % 2

/-- `sum over i of b[i] · 256^i`, least significant byte first (R41). -/
def leValue : List Byte → Nat
  | [] => 0
  | b :: bs => b.toNat + 256 * leValue bs

/-- The `n` bytes `(v div 256^i) mod 256`, i = 0, …, n-1, least significant first (R42, R165). -/
def leBytes : Nat → Nat → List Byte
  | 0, _ => []
  | n + 1, v => BitVec.ofNat 8 (v % 256) :: leBytes n (v / 256)

/-! Buffer memory: one byte, then n bytes, then one bit. -/

/-- Cells at strictly rising addresses from `lo` on, all below 2^AW, none holding what an unlisted address reads as. -/
def Memory.wfFrom : Nat → Memory → Bool
  | _, [] => true
  | lo, (a, b) :: m => decide (lo ≤ a) && decide (a < 2 ^ Config.AW) && decide (b ≠ unlistedByte) && Memory.wfFrom (a + 1) m

/-- The canonical form: equal memories are equal lists. -/
def Memory.wf (m : Memory) : Bool :=
  Memory.wfFrom 0 m

/-- The byte M[a] (R41). -/
def Memory.read : Memory → Nat → Byte
  | [], _ => unlistedByte
  | (k, v) :: m, a => if a < k then unlistedByte else if a = k then v else Memory.read m a

/-- A cell in front of a memory, left out when it holds what an unlisted address reads as. -/
def Memory.cell (a : Nat) (b : Byte) (m : Memory) : Memory :=
  if b = unlistedByte then m else (a, b) :: m

/-- M[a] <- b, no other byte changed (R42). -/
def Memory.write : Memory → Nat → Byte → Memory
  | [], a, b => Memory.cell a b []
  | (k, v) :: m, a, b =>
    if a < k then Memory.cell a b ((k, v) :: m)
    else if a = k then Memory.cell a b m
    else (k, v) :: Memory.write m a b

/-- The bytes at `a`, …, `a + n - 1`, read in ascending address order (R46, R84). -/
def Memory.readBytes (m : Memory) : Nat → Nat → List Byte
  | _, 0 => []
  | a, n + 1 => m.read a :: Memory.readBytes m (a + 1) n

/-- Stores a list of bytes at ascending addresses (R46, R166). -/
def Memory.writeBytes : Memory → Nat → List Byte → Memory
  | m, _, [] => m
  | m, a, b :: bs => Memory.writeBytes (m.write a b) (a + 1) bs

/-- `MemRead(a, n)` (R41). -/
def Memory.memRead (m : Memory) (a n : Nat) : Nat :=
  leValue (m.readBytes a n)

/-- `MemWrite(a, n, v)` (R42). -/
def Memory.memWrite (m : Memory) (a n v : Nat) : Memory :=
  m.writeBytes a (leBytes n v)

/-- `GetBit(base, p)`: bit `p mod 8` of the byte at `base + p div 8` (R43, R44). -/
def Memory.getBit (m : Memory) (base p : Nat) : Nat :=
  bit (m.memRead (base + p / 8) 1) (p % 8)

/-- `SetBit(base, p, b)`: a read-modify-write of one byte, never a blind overwrite (R45). -/
def Memory.setBit (m : Memory) (base p b : Nat) : Memory :=
  let a := base + p / 8
  let old := m.memRead a 1
  m.memWrite a 1 (old - bit old (p % 8) * 2 ^ (p % 8) + b * 2 ^ (p % 8))

/-! Trees and the dictionary. -/

/-- `freq(n)`, the frequency field of either kind of node (R8). -/
def TreeNode.freq : TreeNode → Nat
  | .leaf _ f => f
  | .node _ _ f => f

/-- "A node is a leaf iff it has no children" (R8, R11). -/
def TreeNode.isLeaf : TreeNode → Bool
  | .leaf _ _ => true
  | .node _ _ _ => false

/-- `LEAVES(t)` for a tree: (byte, frequency) of every leaf, left subtree before right subtree (R90). -/
def TreeNode.leaves : TreeNode → List (Byte × Nat)
  | .leaf b f => [(b, f)]
  | .node l r _ => l.leaves ++ r.leaves

/-- `LEAVES(t)` for a tree or `none` (R90). -/
def leavesOf : Option TreeNode → List (Byte × Nat)
  | none => []
  | some t => t.leaves

/-- `size()` of a dictionary: 0 when there is no root, else the root frequency (R12). -/
def dictSize : Option TreeNode → Nat
  | none => 0
  | some t => t.freq

/-- `isInitialized()` of a dictionary: 1 when there is a root, else 0 (R12). -/
def initializedOf : Option TreeNode → Nat
  | none => 0
  | some _ => 1

/-- `size()` (R12). -/
def State.size (s : State) : Nat :=
  dictSize s.root

/-! Updates of the state. -/

/-- `ROOT <- t` (R16). -/
def State.setRoot (s : State) (t : Option TreeNode) : State :=
  { s with root := t }

/-- The buffer memory after a command's writes. -/
def State.setMem (s : State) (m : Memory) : State :=
  { s with mem := m }

/-- One more value returned to the host (log 3). -/
def State.reply (s : State) (v : Word) : State :=
  { s with replies := s.replies ++ [v] }

/-- The host's actions still to come. -/
def State.setPending (s : State) (p : List HostAction) : State :=
  { s with pending := p }

/-- `finish(cause, r0, r1)`, the end of every command, as one indivisible action: STATUS.CAUSE, RES0 and RES1 are written and
nothing else (R7, R181, R185). This is what the hardware has in place of taking an exception: no pc, mode or mask is saved or
changed, and there is no return (R187). -/
def State.finish (s : State) (c : Cause) (r0 r1 : Nat) : State :=
  { s with cause := c, res0 := BitVec.ofNat 64 r0, res1 := BitVec.ofNat 64 r1 }

/-- The block's reset, applied between commands (R200): every register and the dictionary take their reset value; buffer
memory "is not changed by its reset", and what is outside the block (the host's actions, the replies, the platform) stays. -/
def State.blockReset (s : State) : State :=
  { s with
    root := State.reset.root, cause := State.reset.cause
    srcAddr := State.reset.srcAddr, srcLen := State.reset.srcLen
    dstAddr := State.reset.dstAddr, dstLen := State.reset.dstLen
    bitOffset := State.reset.bitOffset, endBitOffset := State.reset.endBitOffset
    res0 := State.reset.res0, res1 := State.reset.res1 }

/-! The memory phase (R49). -/

/-- Two regions share an address (R49 (c)). -/
def meets (r q : Region) : Bool :=
  decide (r.len ≠ 0) && decide (q.len ≠ 0) && decide (r.base < q.base + q.len) && decide (q.base < r.base + r.len)

/-- The predicate `Accessible` of R3. -/
def accessible (c : Config) (a : Nat) : Bool :=
  c.unreachable.all fun h => !(decide (h.base ≤ a) && decide (a < h.base + h.len))

/-- Why a region cannot be used: (a) it is non-empty and would pass the top of the address space, (b) some address of it is not
accessible (R49). -/
def regionProblem (c : Config) (r : Region) : Option Refusal :=
  if r.len ≠ 0 ∧ 2 ^ Config.AW < r.base + r.len then some .regionWraps
  else if c.unreachable.any (meets r) then some .regionNotAccessible
  else none

/-- (c) the source and destination regions of ENCODE or DECODE share an address (R49). -/
def overlapProblem (src dst : Region) : Option Refusal :=
  if meets src dst then some .regionsOverlap else none

/-- The point marked `-- memory phase` in a command's pseudocode: a command with a region problem is refused as a whole, any
other goes on (R49, R190). -/
def memoryPhase (problem : Option Refusal) (goOn : State) : Host.Outcome State Fault Refusal :=
  match problem with
  | some r => .refused r
  | none => .next goOn

end Sys2Proof.Machine
end

