-- ==== Sys2Proof/Machine/Operands.lean ====
section
/-! DEFINITION. The operand forms. Every operand is a register read when the command starts (R67, R68); this file names what the
commands make of them: the two regions (R48), the source bytes (R84), the clamp (R122), the capacity (R124), the end of the
valid bits (R142). -/

namespace Sys2Proof.Machine

/-- The source region `SRC_ADDR + i`, i in 0..SRC_LEN-1 (R48). -/
def State.srcRegion (s : State) : Region where
  base := s.srcAddr.toNat
  len := s.srcLen.toNat

/-- The destination region `DST_ADDR + i`, i in 0..DST_LEN-1 (R48). -/
def State.dstRegion (s : State) : Region where
  base := s.dstAddr.toNat
  len := s.dstLen.toNat

/-- The memory phase of CREATE, CREATE_PART and TREE_IMPORT uses the source region (R48, R49). -/
def State.srcProblem (s : State) : Option Refusal :=
  regionProblem s.platform s.srcRegion

/-- The memory phase of TREE_EXPORT uses the destination region (R48, R49). -/
def State.dstProblem (s : State) : Option Refusal :=
  regionProblem s.platform s.dstRegion

/-- The memory phase of ENCODE and DECODE uses both, which must not share an address (R48, R49). -/
def State.bothProblem (s : State) : Option Refusal :=
  (s.srcProblem.or s.dstProblem).or (overlapProblem s.srcRegion s.dstRegion)

/-- `[ MemRead(SRC_ADDR + i, 1) for i in 0 .. SRC_LEN - 1 ]` (R84, R169). -/
def State.source (s : State) : List Byte :=
  s.mem.readBytes s.srcAddr.toNat s.srcLen.toNat

/-- `n = min(SRC_LEN, SRC_CLAMP)`, the source bytes one ENCODE processes (R122). -/
def State.clampedLen (s : State) : Nat :=
  min s.srcLen.toNat Config.SRC_CLAMP

/-- `src[0..n-1]`, what the first pass of ENCODE reads (R123). -/
def State.clampedSource (s : State) : List Byte :=
  s.mem.readBytes s.srcAddr.toNat s.clampedLen

/-- `CAP = min(8 · DST_LEN, MAXV)`, the bit positions of the destination (R124). -/
def State.capacity (s : State) : Nat :=
  min (8 * s.dstLen.toNat) Config.MAXV

/-- `END`: the valid bits of `src` are the positions below it (R142). -/
def State.endOfBits (s : State) : Nat :=
  if s.srcLen.toNat = 0 then 0
  else if s.endBitOffset.toNat = 0 then min (8 * s.srcLen.toNat) Config.MAXV
  else min (8 * (s.srcLen.toNat - 1) + s.endBitOffset.toNat) Config.MAXV

end Sys2Proof.Machine
end

