-- ==== Sys2Proof/Machine/DictionaryAccess.lean ====
section
/-! DEFINITION. Dictionary access: NOP, SIZE, IS_INIT, and the tree image with TREE_EXPORT and TREE_IMPORT (R160 to R172). -/

namespace Sys2Proof.Machine

/-- NOP (R160). -/
def execNop (s : State) : Host.Outcome State Fault Refusal :=
  .next (s.finish .ok 0 0)

/-- SIZE (R161). -/
def execSize (s : State) : Host.Outcome State Fault Refusal :=
  .next (s.finish .ok s.size 0)

/-- IS_INIT (R162). -/
def execIsInit (s : State) : Host.Outcome State Fault Refusal :=
  .next (s.finish .ok (initializedOf s.root) 0)

/-! The tree image. -/

/-- The tag of a node that carries `character` and `frequency` (R165). -/
def leafTag : Byte := 0x01

/-- The tag of a node that carries `left` and `right` (R165). -/
def nodeTag : Byte := 0x00

/-- `IMGLEN(t)` (R164). -/
def imageLen : TreeNode → Nat
  | .leaf _ _ => 2 + Config.W / 8
  | .node l r _ => 1 + imageLen l + imageLen r

/-- `IMG(t)`, pre-order, left subtree before right subtree (R165). -/
def image : TreeNode → List Byte
  | .leaf b f => leafTag :: b :: leBytes (Config.W / 8) f
  | .node l r _ => nodeTag :: (image l ++ image r)

/-- A leaf record behind its tag: the character and W/8 bytes of frequency; none when it is cut short (R167). -/
def parseLeaf : List Byte → Option (TreeNode × List Byte)
  | [] => none
  | b :: bs =>
    if bs.length < Config.W / 8 then none
    else some (.leaf b (leValue (bs.take (Config.W / 8))), bs.drop (Config.W / 8))

/-- `PARSE` on the bytes from the index on, answering the candidate and the bytes after its image (R167). Each record takes at
least one byte, so the number of bytes is enough for `fuel` (R172, log 13). The frequency of an internal node is the sum of its
children's, as a natural. -/
def parseNode : Nat → List Byte → Option (TreeNode × List Byte)
  | 0, _ => none
  | _ + 1, [] => none
  | fuel + 1, tag :: bs =>
    if tag = leafTag then parseLeaf bs
    else if tag = nodeTag then
      match parseNode fuel bs with
      | none => none
      | some (l, bs1) =>
        match parseNode fuel bs1 with
        | none => none
        | some (r, bs2) => some (.node l r (l.freq + r.freq), bs2)
    else none

/-- `PARSE(b, o)`: a candidate tree and the index just past its image, or `fail` (R167). -/
def parse (b : List Byte) (o : Nat) : Option (TreeNode × Nat) :=
  match parseNode b.length (b.drop o) with
  | none => none
  | some (t, rest) => some (t, b.length - rest.length)

/-- `VALID(t)`: positive leaf frequencies, distinct leaf bytes, and a total of at most MAXV (R168). -/
def TreeNode.valid (t : TreeNode) : Bool :=
  t.leaves.all (fun bf => decide (1 ≤ bf.2)) && decide ((t.leaves.map (·.1)).Nodup)
    && decide ((t.leaves.map (·.2)).sum ≤ Config.MAXV)

/-- TREE_EXPORT (R166): the image is written whole or not at all; the size test comes before the memory phase (D26). -/
def execTreeExport (s : State) : Host.Outcome State Fault Refusal :=
  match s.root with
  | none => .next (s.finish .uninit 0 0)
  | some t =>
    if s.dstLen.toNat < imageLen t then .next (s.finish .bufferExhausted 0 (imageLen t))
    else
      memoryPhase s.dstProblem
        ((s.setMem (s.mem.writeBytes s.dstAddr.toNat (image t))).finish .ok (imageLen t) (imageLen t))

/-- TREE_IMPORT on the source bytes (R169): a rejected image leaves the dictionary uninitialized, whatever it held (C5, D25). -/
def importFrom (s : State) (b : List Byte) : State :=
  match parse b 0 with
  | none => (s.setRoot none).finish .malformedTree 0 0
  | some (t, used) =>
    if t.valid then (s.setRoot (some t)).finish .ok used t.freq
    else (s.setRoot none).finish .malformedTree 0 0

/-- TREE_IMPORT (R169). -/
def execTreeImport (s : State) : Host.Outcome State Fault Refusal :=
  memoryPhase s.srcProblem (importFrom s s.source)

end Sys2Proof.Machine
end

