-- ==== Sys2Proof/Machine/StreamDecoder.lean ====
section
/-! DEFINITION. The Stream Decoder: DECODE (R140 to R149). -/

namespace Sys2Proof.Machine

/-- The walk from a node at bit position `p` (R143): a bit of value 1 moves to the left child, 0 to the right child; at a leaf,
its byte and the position after the code word; none when the valid bits run out first (R146). -/
def walkBits (m : Memory) (src stop : Nat) : TreeNode → Nat → Option (Byte × Nat)
  | .leaf b _, p => some (b, p)
  | .node l r _, p =>
    if stop ≤ p then none
    else if m.getBit src p = 1 then walkBits m src stop l (p + 1)
    else walkBits m src stop r (p + 1)

/-- One code word from the root: a degenerate tree consumes one bit, whose value is not examined (R144, D12). -/
def decodeSymbol (m : Memory) (src stop : Nat) : TreeNode → Nat → Option (Byte × Nat)
  | .leaf b _, p => some (b, p + 1)
  | .node l r f, p => walkBits m src stop (.node l r f) p

/-- Where the decoder stopped, and why: position of the next code word, bytes produced, memory. -/
structure Unpacked where
  cause : Cause
  pos : Nat
  out : Nat
  mem : Memory
deriving DecidableEq, Repr

/-- The outer loop with room for `room` more bytes in `dst`, that is `out = DST_LEN - room` (R140): source exhausted is tested
before destination full (R145, D36). -/
def unpackLoop (root : TreeNode) (src dst stop : Nat) : Nat → Nat → Nat → Memory → Unpacked
  | 0, pos, out, m => if stop ≤ pos then ⟨.ok, pos, out, m⟩ else ⟨.bufferExhausted, pos, out, m⟩
  | room + 1, pos, out, m =>
    if stop ≤ pos then ⟨.ok, pos, out, m⟩
    else match decodeSymbol m src stop root pos with
      | none => ⟨.ok, pos, out, m⟩
      | some (b, p) => unpackLoop root src dst stop room p (out + 1) (m.write (dst + out) b)

/-- DECODE past its UNINIT test, inside its memory phase (R140). -/
def decodeWith (root : TreeNode) (s : State) : State :=
  let u := unpackLoop root s.srcAddr.toNat s.dstAddr.toNat s.endOfBits s.dstLen.toNat s.bitOffset.toNat 0 s.mem
  (s.setMem u.mem).finish u.cause u.pos u.out

/-- DECODE (R140). There is no zero-length test (R141, D21). -/
def execDecode (s : State) : Host.Outcome State Fault Refusal :=
  match s.root with
  | none => .next (s.finish .uninit 0 0)
  | some t => memoryPhase s.bothProblem (decodeWith t s)

end Sys2Proof.Machine
end

