-- ==== Sys2Proof/Machine/CodeTable.lean ====
section
/-! DEFINITION. The Code Table Deriver: DERIVE (R110 to R114). It has no opcode; ENCODE runs it. -/

namespace Sys2Proof.Machine

/-- An entry of a code table (R110): no leaf carries the byte; a code of 1 to 8 bits; a leaf deeper than 8. -/
inductive CodeEntry where
  | absent
  | code (pat len : Nat)
  | wide (depth : Nat)
deriving DecidableEq, Repr

/-- A code table, the latest assignment first; a byte that is not listed is `absent` (R110). It lives inside one ENCODE and is
no state (R32). -/
abbrev CodeTable := List (Byte × CodeEntry)

/-- `T[v]` (R110). -/
def CodeTable.entry : CodeTable → Byte → CodeEntry
  | [], _ => .absent
  | (u, e) :: table, v => if u = v then e else CodeTable.entry table v

/-- The entry of a leaf at depth `d` whose edges from the root, first edge least significant, are `pat` (R112, R114). -/
def leafEntry (pat d : Nat) : CodeEntry :=
  if d ≤ Config.MAXLEN then .code pat d else .wide d

/-- `walk(t, pat, d)`: the edge to the left child is bit 1, to the right child bit 0 (R111, R112). -/
def walkCodes : TreeNode → Nat → Nat → CodeTable → CodeTable
  | .leaf v _, pat, d, table => (v, leafEntry pat d) :: table
  | .node l r _, pat, d, table => walkCodes r pat (d + 1) (walkCodes l (pat + 2 ^ d) (d + 1) table)

/-- `DERIVE(t)` (R112); a degenerate tree gives its only byte the one-bit code 0 (R113, D12). -/
def derive : TreeNode → CodeTable
  | .leaf v _ => [(v, .code 0 1)]
  | .node l r f => walkCodes (.node l r f) 0 0 []

end Sys2Proof.Machine
end

