-- ==== Sys2Proof/Machine/StreamEncoder.lean ====
section
/-! DEFINITION. The Stream Encoder: ENCODE (R120 to R131). -/

namespace Sys2Proof.Machine

/-- The first pass over `src` (R123): the cause of the first byte that is absent or wide, whichever index comes first, and none
when every byte has a code. -/
def symbolProblem (table : CodeTable) : List Byte → Option Cause
  | [] => none
  | b :: bs =>
    match table.entry b with
    | .absent => some .unknownSymbol
    | .wide _ => some .codeWidth
    | .code _ _ => symbolProblem table bs

/-- `for k <- 0 .. len - 1: SetBit(DST_ADDR, pos + k, bit(pat, k))` (R120, R126). -/
def putCode (dst pos pat : Nat) : Nat → Memory → Memory
  | 0, m => m
  | k + 1, m => (putCode dst pos pat k m).setBit dst (pos + k) (bit pat k)

/-- Where the packing loop stopped: source bytes encoded, next free bit position, memory. -/
structure Packed where
  index : Nat
  pos : Nat
  mem : Memory
deriving DecidableEq, Repr

/-- The packing loop, `left` source bytes still to go (R120, R125): a code word is written only if all of it fits below `cap`.
The first pass has found a code for every byte, so the last arm is not reached (log 11). -/
def packLoop (table : CodeTable) (src dst cap : Nat) : Nat → Packed → Packed
  | 0, p => p
  | left + 1, p =>
    match table.entry (p.mem.read (src + p.index)) with
    | .code pat len =>
      if cap < p.pos + len then p
      else packLoop table src dst cap left ⟨p.index + 1, p.pos + len, putCode dst p.pos pat len p.mem⟩
    | .absent => p
    | .wide _ => p

/-- The cause after the packing loop has encoded `i` of SRC_LEN source bytes (R120, R127). -/
def packCause (s : State) (i : Nat) : Cause :=
  if i = s.srcLen.toNat then .ok else if i < s.clampedLen then .bufferExhausted else .clamped

/-- ENCODE past its zero-progress tests, inside its memory phase, with the code table of ROOT (R120). -/
def encodeWith (table : CodeTable) (s : State) : State :=
  match symbolProblem table s.clampedSource with
  | some c => s.finish c 0 0
  | none =>
    let p := packLoop table s.srcAddr.toNat s.dstAddr.toNat s.capacity s.clampedLen ⟨0, s.bitOffset.toNat, s.mem⟩
    (s.setMem p.mem).finish (packCause s p.index) p.index p.pos

/-- ENCODE (R120): UNINIT before EMPTY before the memory phase (R121, D36). -/
def execEncode (s : State) : Host.Outcome State Fault Refusal :=
  match s.root with
  | none => .next (s.finish .uninit 0 0)
  | some t =>
    if s.srcLen.toNat = 0 ∨ s.dstLen.toNat = 0 then .next (s.finish .empty 0 0)
    else memoryPhase s.bothProblem (encodeWith (derive t) s)

end Sys2Proof.Machine
end

