-- ==== Sys2Proof/Machine/FrequencyCounter.lean ====
section
/-! DEFINITION. The Frequency Counter: HIST, INSERT, COUNT (R80 to R84). It has no opcode; CREATE and CREATE_PART run it. -/

namespace Sys2Proof.Machine

/-- One more occurrence of `v` in a histogram kept by ascending byte value. -/
def bump (v : Byte) : List (Byte × Nat) → List (Byte × Nat)
  | [] => [(v, 1)]
  | (u, n) :: h => if v < u then (v, 1) :: (u, n) :: h else if v = u then (u, n + 1) :: h else (u, n) :: bump v h

/-- `HIST(buf)` (R80), the byte values that occur, ascending, each with its number of occurrences; a value that is not listed
has count 0 (log 12; `Laws.hist_lookup`). -/
def hist : List Byte → List (Byte × Nat)
  | [] => []
  | v :: buf => bump v (hist buf)

/-- `INSERT(L, x)`: x stands immediately before the first element of strictly greater frequency, after every element of equal
frequency (R81, D7). -/
def insertByFreq : List TreeNode → TreeNode → List TreeNode
  | [], x => [x]
  | y :: ys, x => if y.freq ≤ x.freq then y :: insertByFreq ys x else x :: y :: ys

/-- `COUNT(buf)`: one leaf for every byte value with a nonzero count, inserted in ascending byte value (R82). -/
def count (buf : List Byte) : List TreeNode :=
  (hist buf).foldl (fun list vn => insertByFreq list (.leaf vn.1 vn.2)) []

end Sys2Proof.Machine
end

