-- ==== Sys2Proof/Machine/TreeBuilder.lean ====
section
/-! DEFINITION. The Tree Builder: MERGE, COMBINE, and the commands CREATE, CREATE_PART, CLEAR (R90 to R100). -/

namespace Sys2Proof.Machine

/-- Takes the first leaf with byte `b` out of a list: its frequency and `remove(L, e)` (R6, R91). -/
def takeLeaf (b : Byte) : List TreeNode → Option (Nat × List TreeNode)
  | [] => none
  | .leaf c f :: ts =>
    if c = b then some (f, ts)
    else match takeLeaf b ts with
      | some (g, rest) => some (g, .leaf c f :: rest)
      | none => none
  | .node l r f :: ts =>
    match takeLeaf b ts with
    | some (g, rest) => some (g, .node l r f :: rest)
    | none => none

/-- One recovered pair of MERGE: added to the entry of its byte, which is taken out and put back at its sorted place, or
inserted as a new leaf (R91, C2, D8). -/
def mergePair (list : List TreeNode) (bf : Byte × Nat) : List TreeNode :=
  match takeLeaf bf.1 list with
  | some (g, rest) => insertByFreq rest (.leaf bf.1 (g + bf.2))
  | none => insertByFreq list (.leaf bf.1 bf.2)

/-- `MERGE(L, t)`, the recovered pairs in the order of LEAVES (R91). -/
def merge (list : List TreeNode) (t : Option TreeNode) : List TreeNode :=
  (leavesOf t).foldl mergePair list

/-- `Internal(a, b, freq(a) + freq(b))`: the first removed is the left child (R92, D10). -/
def join (a b : TreeNode) : TreeNode :=
  .node a b (a.freq + b.freq)

/-- The loop of COMBINE. The list gets one shorter each time round, so its length is enough for `fuel` (R92, R100). -/
def combineLoop : Nat → List TreeNode → Option TreeNode
  | _, [] => none
  | _, [t] => some t
  | 0, _ :: _ :: _ => none
  | fuel + 1, a :: b :: rest => combineLoop fuel (insertByFreq rest (join a b))

/-- `COMBINE(L)` (R92). -/
def combine (list : List TreeNode) : Option TreeNode :=
  combineLoop list.length list

/-- CREATE (R94): builds solely from the source; the old tree is discarded. -/
def execCreate (s : State) : Host.Outcome State Fault Refusal :=
  let t := combine (count s.source)
  memoryPhase s.srcProblem ((s.setRoot t).finish .ok (dictSize t) 0)

/-- CREATE_PART (R95, R96): the overflow test comes before the memory phase and leaves ROOT untouched; the one assignment of
ROOT is the last action (R98). -/
def execCreatePart (s : State) : Host.Outcome State Fault Refusal :=
  if Config.MAXV < s.srcLen.toNat + s.size then .next (s.finish .freqOverflow s.size 0)
  else
    let t := combine (merge (count s.source) s.root)
    memoryPhase s.srcProblem ((s.setRoot t).finish .ok (dictSize t) 0)

/-- CLEAR (R99). -/
def execClear (s : State) : Host.Outcome State Fault Refusal :=
  .next ((s.setRoot none).finish .ok 0 0)

end Sys2Proof.Machine
end

