-- ==== Sys2Proof/Machine/Dispatch.lean ====
section
/-! DEFINITION. One arm per command: a direct call of its meaning. -/

namespace Sys2Proof.Machine

def exec (i : Instr) (s : State) : Host.Outcome State Fault Refusal :=
  match i with
  | .nop => Sys2Proof.Machine.execNop s
  | .create => Sys2Proof.Machine.execCreate s
  | .createPart => Sys2Proof.Machine.execCreatePart s
  | .size => Sys2Proof.Machine.execSize s
  | .isInit => Sys2Proof.Machine.execIsInit s
  | .encode => Sys2Proof.Machine.execEncode s
  | .decode => Sys2Proof.Machine.execDecode s
  | .treeExport => Sys2Proof.Machine.execTreeExport s
  | .treeImport => Sys2Proof.Machine.execTreeImport s
  | .clear => Sys2Proof.Machine.execClear s

end Sys2Proof.Machine
end

