-- ==== Sys2Proof/Machine/Flags.lean ====
section
/-! DEFINITION. The one status indication: STATUS.CAUSE (R19, R31, R180). There are no flags or condition codes (R31). -/

namespace Sys2Proof.Machine

/-- The code of a cause (R180). -/
def Cause.code : Cause → Nat
  | .ok => 0
  | .uninit => 1
  | .unknownSymbol => 2
  | .bufferExhausted => 3
  | .malformedTree => 4
  | .empty => 5
  | .codeWidth => 6
  | .freqOverflow => 7
  | .clamped => 8
  | .illegalCmd => 9

/-- STATUS as the host reads it: CAUSE in bits 3:0, bits 63:4 zero (R19). -/
def State.status (s : State) : Word :=
  BitVec.ofNat 64 s.cause.code

end Sys2Proof.Machine
end

