-- ==== Sys2Proof/Machine/HostPort.lean ====
section
/-! DEFINITION. What the host and the platform do to the block: register reads and writes (R17 to R28), the CMD write that runs
one command (R18, R62), buffer memory outside commands (R40, R52), reset (R200). -/

namespace Sys2Proof.Machine

/-- The value a host read of a register returns; CMD reads as 0 (R18, R28). -/
def State.readReg (s : State) : Reg → Word
  | .cmd => 0
  | .status => s.status
  | .srcAddr => s.srcAddr
  | .srcLen => s.srcLen
  | .dstAddr => s.dstAddr
  | .dstLen => s.dstLen
  | .bitOffset => s.bitOffset
  | .endBitOffset => s.endBitOffset.setWidth 64
  | .res0 => s.res0
  | .res1 => s.res1

/-- The value at an offset; an offset that is not in the table reads as 0 (R28). -/
def State.readOffset (s : State) (offset : Nat) : Word :=
  match Reg.ofOffset offset with
  | none => 0
  | some r => s.readReg r

/-- A host write to a register other than CMD: a read-write register takes the writable bits of the value, of END_BIT_OFFSET
bits 2:0; a write to a read-only register is ignored (R19, R25 to R28). A write to CMD stores nothing (R18). -/
def State.writeReg (s : State) (r : Reg) (v : Word) : State :=
  match r with
  | .cmd => s
  | .status => s
  | .srcAddr => { s with srcAddr := v }
  | .srcLen => { s with srcLen := v }
  | .dstAddr => { s with dstAddr := v }
  | .dstLen => { s with dstLen := v }
  | .bitOffset => { s with bitOffset := v }
  | .endBitOffset => { s with endBitOffset := v.setWidth 3 }
  | .res0 => s
  | .res1 => s

/-- A reserved command word ends with `finish(ILLEGAL_CMD, 0, 0)` and changes nothing else (R64, R65, R189). -/
def execIllegal (s : State) : State :=
  s.finish .illegalCmd 0 0

/-- `WR(0x00, v)`: exactly one command, chosen by the value, to completion (R18, R62). -/
def runCommand (v : Word) (s : State) : Host.Outcome State Fault Refusal :=
  match decodeWord v with
  | .command i => exec i s
  | .illegal _ => .next (execIllegal s)

/-- A write at an offset: CMD runs a command, an offset that is not in the table is ignored (R18, R28). -/
def writeOffset (offset : Nat) (v : Word) (s : State) : Host.Outcome State Fault Refusal :=
  match Reg.ofOffset offset with
  | none => .next s
  | some .cmd => runCommand v s
  | some r => .next (s.writeReg r v)

/-- One action of the host or the platform, complete before the next (R52, R71). A register access that is not an aligned
64-bit access is refused (R28, U7). -/
def perform (a : HostAction) (s : State) : Host.Outcome State Fault Refusal :=
  match a with
  | .wr offset bytes v => if alignedAccess offset bytes then writeOffset offset v s else .refused .registerAccess
  | .rd offset bytes => if alignedAccess offset bytes then .next (s.reply (s.readOffset offset)) else .refused .registerAccess
  | .memWr addr b => .next (s.setMem (s.mem.write addr.toNat b))
  | .memRd addr => .next (s.reply ((s.mem.read addr.toNat).setWidth 64))
  | .reset => .next s.blockReset

/-- The next action of the host, and the state in which it has been taken from the list (log 1). -/
def State.nextAction (s : State) : Option (HostAction × State) :=
  match s.pending with
  | [] => none
  | a :: rest => some (a, s.setPending rest)

/-- The host writes the command word `w` to CMD next: `WR(0x00, w)` in front of its other actions (R60, R69, log 1). -/
def State.hostWritesCmd (s : State) (w : Word) : State :=
  s.setPending (.write .cmd w :: s.pending)

end Sys2Proof.Machine
end

