-- ==== Sys2Proof/Machine/Step.lean ====
section
/-! DEFINITION. One step is one action of the host or the platform, whole (R52): a register transaction, a command run to
completion, an access to buffer memory, a reset. With no action pending the block is idle and keeps all its state (R192). -/

namespace Sys2Proof.Machine

/-- The step (R30, R52, R71). Idle is a next state equal to the state (R192, R201, log 2). -/
def step (s : State) : Host.Outcome State Fault Refusal :=
  match s.nextAction with
  | none => .next s
  | some (a, t) => perform a t

/-- The state in which the very next step is the host's write of the command word `w` to CMD (log 1). The table gives every
command word 64 bits, the whole word (R61). -/
def State.withFetchWord (s : State) (nbits w : Nat) : State :=
  s.hostWritesCmd (BitVec.ofNat 64 (w % 2 ^ nbits))

end Sys2Proof.Machine
end

