-- ==== Sys2Proof/Safety.lean ====
section
/-! DEFINITION. The terms the claims are stated in: what a sound state is (R13 to R15 and the canonical memory), when a command's
regions are usable in the words of R49, paths in a tree and streams of bits (R111, R112, R115), and the reading of bits. -/

namespace Sys2Proof.Machine

/-! Sound dictionaries and states. -/

/-- `f = freq(l) + freq(r)` at every internal node (R13 (c)). -/
def TreeNode.sumsOk : TreeNode → Bool
  | .leaf _ _ => true
  | .node l r f => decide (f = l.freq + r.freq) && l.sumsOk && r.sumsOk

/-- The invariants of a tree that can be ROOT: the sums (R13), positive leaf frequencies (R13), distinct leaf bytes (R14), and a
total of at most MAXV (R15). -/
def TreeNode.sound (t : TreeNode) : Bool :=
  t.sumsOk && t.valid

/-- "Whenever ROOT ≠ none" (R13, R14, R15). -/
def dictionarySound : Option TreeNode → Bool
  | none => true
  | some t => t.sound

/-- What every step keeps: a sound dictionary and a memory in canonical form. -/
abbrev State.Inv (s : State) : Prop :=
  dictionarySound s.root = true ∧ s.mem.wf = true

/-- Byte values of the leaves, left to right. -/
def TreeNode.bytes (t : TreeNode) : List Byte :=
  t.leaves.map (·.1)

/-- The frequency a byte value has in a tree, 0 when no leaf carries it. -/
def TreeNode.freqOf (t : TreeNode) (v : Byte) : Nat :=
  ((t.leaves.filter fun bf => bf.1 = v).map (·.2)).sum

/-- The frequency a byte value has in a dictionary, 0 when there is no root. -/
def freqOfDict : Option TreeNode → Byte → Nat
  | none, _ => 0
  | some t, v => t.freqOf v

/-- Number of internal nodes. -/
def TreeNode.internals : TreeNode → Nat
  | .leaf _ _ => 0
  | .node l r _ => 1 + l.internals + r.internals

/-- Largest number of edges from the root to a leaf. -/
def TreeNode.height : TreeNode → Nat
  | .leaf _ _ => 0
  | .node l r _ => 1 + max l.height r.height

/-- "Sorted ascending by frequency" (R81, R93). -/
def sortedByFreq (list : List TreeNode) : Prop :=
  list.Pairwise fun x y => x.freq ≤ y.freq

/-! Usable regions, in the words of R49. -/

/-- Neither (a) nor (b) of R49 holds for the region. -/
abbrev usable (c : Config) (r : Region) : Prop :=
  (r.len = 0 ∨ r.base + r.len ≤ 2 ^ 64) ∧ ∀ i, i < r.len → accessible c (r.base + i) = true

/-- The regions share no address, the negation of R49 (c). -/
abbrev disjoint (r q : Region) : Prop :=
  ∀ i, i < r.len → ∀ j, j < q.len → r.base + i ≠ q.base + j

/-- The source region may be used by CREATE, CREATE_PART and TREE_IMPORT (R48, R49). -/
abbrev State.sourceUsable (s : State) : Prop :=
  usable s.platform s.srcRegion

/-- The destination region may be used by TREE_EXPORT (R48, R49). -/
abbrev State.destUsable (s : State) : Prop :=
  usable s.platform s.dstRegion

/-- Both regions may be used by ENCODE and DECODE (R48, R49). -/
abbrev State.buffersUsable (s : State) : Prop :=
  s.sourceUsable ∧ s.destUsable ∧ disjoint s.srcRegion s.dstRegion

/-! Paths and streams. -/

/-- The node reached from a node by a list of edge bits, 1 to the left child and 0 to the right (R111); none past a leaf. -/
def TreeNode.follow : TreeNode → List Nat → Option TreeNode
  | t, [] => some t
  | .leaf _ _, _ :: _ => none
  | .node l r _, e :: es => if e = 1 then l.follow es else r.follow es

/-- The bits of a stored pattern in the order they are written, bit 0 first (R112, R126). -/
def patternBits (pat len : Nat) : List Nat :=
  (List.range len).map (bit pat)

/-- The code word of a table entry; an entry without a code has none. -/
def CodeEntry.bits : CodeEntry → List Nat
  | .absent => []
  | .code pat len => patternBits pat len
  | .wide _ => []

/-- The entry has a code of at most 8 bits (R110). -/
def CodeEntry.isCode : CodeEntry → Bool
  | .absent => false
  | .code _ _ => true
  | .wide _ => false

/-- The code words of a list of bytes laid end to end (R125). -/
def codeStream (table : CodeTable) (bs : List Byte) : List Nat :=
  bs.flatMap fun b => (table.entry b).bits

/-- The `n` bits of a buffer from position `p` on (R43). -/
def bitsFrom (m : Memory) (base p n : Nat) : List Nat :=
  (List.range n).map fun k => m.getBit base (p + k)

/-- The bits of one code word of the tree and the byte it stands for: a path from an internal root to a leaf, any one bit for a
degenerate root (R143, R144). -/
def isWord : TreeNode → List Nat → Byte → Prop
  | .leaf v _, es, b => es.length = 1 ∧ b = v
  | .node l r f, es, b => ∃ g, (TreeNode.node l r f).follow es = some (.leaf b g)

end Sys2Proof.Machine
end

