-- ==== Sys2Proof/Certificates/Slice0/Obligations.lean ====
section
/-! DEFINITION. The statements for the provers, from the numbered rules of spec/. Each docstring names the rule it formalises. -/

open Sys2Proof Sys2Proof.Machine

/-! Command words (30_encoding.md). -/

/-- R63 and the vectors of 95_test_vectors.md 2.7: the ten words of the table, and six words beside it, decoded. -/
def Obligations.TableWordsDecodeToTheirCommands : Prop :=
  decodeWord 0x0000000000000000 = .command .nop ∧ decodeWord 0x0000000000000001 = .command .create ∧
  decodeWord 0x0000000000000002 = .command .createPart ∧ decodeWord 0x0000000000000003 = .command .size ∧
  decodeWord 0x0000000000000004 = .command .isInit ∧ decodeWord 0x0000000000000005 = .command .encode ∧
  decodeWord 0x0000000000000006 = .command .decode ∧ decodeWord 0x0000000000000007 = .command .treeExport ∧
  decodeWord 0x0000000000000008 = .command .treeImport ∧ decodeWord 0x0000000000000009 = .command .clear ∧
  decodeWord 0x000000000000000A = .illegal .reservedOpcode ∧ decodeWord 0x00000000000000FF = .illegal .reservedOpcode ∧
  decodeWord 0x0000000000000105 = .illegal .reservedBits ∧ decodeWord 0x8000000000000001 = .illegal .reservedBits

/-- R62: bits 63:8 first, then the opcode; every one of the 2^64 words selects exactly one behaviour. -/
def Obligations.EveryWordSelectsOneBehaviour : Prop :=
  ∀ v : Word,
    (v.toNat / 256 ≠ 0 → decodeWord v = .illegal .reservedBits) ∧
    (v.toNat / 256 = 0 → 10 ≤ v.toNat % 256 → decodeWord v = .illegal .reservedOpcode) ∧
    (v.toNat / 256 = 0 → ∀ i : Instr,
      [Instr.nop, .create, .createPart, .size, .isInit, .encode, .decode, .treeExport, .treeImport, .clear][v.toNat % 256]? = some i →
      decodeWord v = .command i)

/-- R61 to R63: decoding an encoded command gives it back, and a word that decodes to a command is that command's encoding and no
other, so no bit of a command word is dropped. -/
def Obligations.DecodeAndEncodeAgree : Prop :=
  ∀ i : Instr, i.wellFormed = true →
    decodeWord (encode i) = .command i ∧ ∀ v : Word, decodeWord v = .command i → v = encode i

/-! The step and the host's register accesses (10_state.md, 30_encoding.md, 70_reset_and_hazards.md). -/

/-- A host write of a word to CMD that decodes to a command runs exactly that command, on the state in which the action has been
taken from the host's list (R18, R60; the list is the model's, log 1). The second clause is the same for a word of the table. -/
def Obligations.CmdWriteRunsTheDecodedCommand : Prop :=
  (∀ (s : State) (w : Word) (i : Instr) (rest : List HostAction), s.pending = .wr 0x00 8 w :: rest → decodeWord w = .command i →
    step s = exec i { s with pending := rest }) ∧
  (∀ (s : State) (w : Nat) (i : Instr), decodeTableWord 64 w = some i → step (s.withFetchWord 64 w) = exec i s)

/-- R64, R65: a word with a reserved opcode or a reserved bit set changes neither ROOT nor memory nor an operand register and ends
with ILLEGAL_CMD and (0, 0). The list of the host's actions is the model's (log 1). -/
def Obligations.ReservedWordEndsIllegal : Prop :=
  ∀ (s : State) (w : Word) (rest : List HostAction), s.pending = .wr 0x00 8 w :: rest →
    (10 ≤ w.toNat % 256 ∨ w.toNat / 256 ≠ 0) →
    step s = .next { s with pending := rest, cause := .illegalCmd, res0 := 0, res1 := 0 }

/-- With no action of the host pending the block is idle and keeps all its state (R192; a step that answers then is the model's
convention, log 2). -/
def Obligations.IdleStepKeepsEverything : Prop :=
  ∀ s : State, s.pending = [] → step s = .next s

/-- R28, with R18, R19, R25 to R27 and the codes of R180: a read returns the current value of its register and changes nothing of
the block, STATUS reads as the code 0 to 9 of its cause, CMD and offsets outside the table read 0, a write replaces the writable
bits (of END_BIT_OFFSET bits 2:0) and nothing else, writes to read-only registers and to offsets outside the table are ignored,
and an access that is not an aligned 64-bit access is refused. The list of the host's actions, the list of replies and the form
of an access are the model's (log 1, log 3, log 15). -/
def Obligations.HostRegisterAccess : Prop :=
  (∀ (s : State) (rest : List HostAction) (o : Nat) (v : Word), s.pending = .rd o 8 :: rest →
    (o, v) ∈ [(0x00, 0), (0x10, s.srcAddr), (0x18, s.srcLen), (0x20, s.dstAddr), (0x28, s.dstLen),
      (0x30, s.bitOffset), (0x38, BitVec.ofNat 64 s.endBitOffset.toNat), (0x40, s.res0), (0x48, s.res1)] →
    step s = .next { s with pending := rest, replies := s.replies ++ [v] }) ∧
  (∀ (s : State) (rest : List HostAction) (v : Word), s.pending = .rd 0x08 8 :: rest →
    (s.cause, v) ∈ [(Cause.ok, 0), (.uninit, 1), (.unknownSymbol, 2), (.bufferExhausted, 3), (.malformedTree, 4), (.empty, 5),
      (.codeWidth, 6), (.freqOverflow, 7), (.clamped, 8), (.illegalCmd, 9)] →
    step s = .next { s with pending := rest, replies := s.replies ++ [v] }) ∧
  (∀ (s : State) (rest : List HostAction) (o : Nat) (v : Word) (t : State), s.pending = .wr o 8 v :: rest →
    (o, t) ∈ [(0x08, s), (0x10, { s with srcAddr := v }), (0x18, { s with srcLen := v }), (0x20, { s with dstAddr := v }),
      (0x28, { s with dstLen := v }), (0x30, { s with bitOffset := v }),
      (0x38, { s with endBitOffset := BitVec.ofNat 3 (v.toNat % 8) }), (0x40, s), (0x48, s)] →
    step s = .next { t with pending := rest }) ∧
  (∀ (s : State) (rest : List HostAction) (o : Nat) (v : Word), o % 8 = 0 → 0x48 < o →
    (s.pending = .wr o 8 v :: rest → step s = .next { s with pending := rest }) ∧
    (s.pending = .rd o 8 :: rest → step s = .next { s with pending := rest, replies := s.replies ++ [0] })) ∧
  (∀ (s : State) (rest : List HostAction) (o n : Nat) (v : Word), ¬(n = 8 ∧ o % 8 = 0) →
    (s.pending = .wr o n v :: rest ∨ s.pending = .rd o n :: rest) → step s = .refused .registerAccess)

/-- R40, R52: outside commands the host stores a byte of buffer memory, which then reads back and leaves every other byte as it
was, and reads a byte of it. The lists, and that Accessible does not limit the host, are the model's (log 1, log 3, log 7). -/
def Obligations.HostMemoryAccess : Prop :=
  ∀ (s : State) (rest : List HostAction) (a : Word), s.Inv →
    (∀ b : Byte, s.pending = .memWr a b :: rest → ∃ t, step s = .next t ∧ t = { s with pending := rest, mem := t.mem } ∧
      t.mem.read a.toNat = b ∧ ∀ x, x ≠ a.toNat → t.mem.read x = s.mem.read x) ∧
    (s.pending = .memRd a :: rest →
      step s = .next { s with pending := rest, replies := s.replies ++ [BitVec.ofNat 64 (s.mem.read a.toNat).toNat] })

/-- R200: a reset between commands gives every piece of state of the block its reset value and does not change buffer memory; the
state after reset has those values. That the host's list, the replies and the platform stay is the model's choice (log 1, log 8). -/
def Obligations.ResetGivesEveryResetValue : Prop :=
  (∀ (s : State) (rest : List HostAction), s.pending = .reset :: rest →
    step s = .next { root := none, cause := .ok, srcAddr := 0, srcLen := 0, dstAddr := 0, dstLen := 0, bitOffset := 0, endBitOffset := 0, res0 := 0, res1 := 0, mem := s.mem, pending := rest, replies := s.replies, platform := s.platform }) ∧
  State.reset.root = none ∧ State.reset.cause.code = 0 ∧ State.reset.srcAddr = 0 ∧ State.reset.srcLen = 0 ∧
  State.reset.dstAddr = 0 ∧ State.reset.dstLen = 0 ∧ State.reset.bitOffset = 0 ∧ State.reset.endBitOffset = 0 ∧
  State.reset.res0 = 0 ∧ State.reset.res1 = 0

/-- CLEAR followed by NOP with all operand registers written to 0 leaves the state a reset leaves. R201 says so of the state of the
block. That the two agree on the WHOLE state, and that buffer memory is none of it, rests also on the model's choices: the eight
actions and the reset stand in the host's list (log 1), and a reset keeps the replies and the platform (log 8). -/
def Obligations.ClearNopAndZeroOperandsEqualReset : Prop :=
  ∀ s : State,
    core.run 8 { s with pending := [.wr 0x00 8 9, .wr 0x00 8 0, .wr 0x10 8 0, .wr 0x18 8 0, .wr 0x20 8 0, .wr 0x28 8 0, .wr 0x30 8 0, .wr 0x38 8 0] } =
    step { s with pending := [.reset] }

/-! Queries (45_dictionary_access.md, 41_tree_builder.md R99). -/

/-- R160: NOP ends with (0, 0), OK, in any state, and changes nothing else. -/
def Obligations.NopClearsResultsOnly : Prop :=
  ∀ s : State, exec .nop s = .next { s with cause := .ok, res0 := 0, res1 := 0 }

/-- R161, R12, R13 (d): SIZE gives the root frequency, 0 for no root, which in a sound dictionary is the sum of the leaf
frequencies and fits RES0. -/
def Obligations.SizeGivesTheLeafTotal : Prop :=
  ∀ s : State, s.Inv → ∃ n : Nat, n = ((leavesOf s.root).map (·.2)).sum ∧ n < 2 ^ 64 ∧
    (s.root = none → n = 0) ∧ (∀ t, s.root = some t → n = t.freq) ∧
    exec .size s = .next { s with cause := .ok, res0 := BitVec.ofNat 64 n, res1 := 0 }

/-- R162: IS_INIT gives 1 when there is a root and 0 otherwise; in a sound dictionary it is 1 exactly when size() > 0. -/
def Obligations.IsInitTellsARootFromNone : Prop :=
  (∀ s : State, s.root = none → exec .isInit s = .next { s with cause := .ok, res0 := 0, res1 := 0 }) ∧
  (∀ (s : State) (t : TreeNode), s.root = some t → exec .isInit s = .next { s with cause := .ok, res0 := 1, res1 := 0 }) ∧
  (∀ s : State, s.Inv → (s.root ≠ none ↔ 0 < s.size))

/-- R99: CLEAR empties the dictionary, ends OK with (0, 0), and changes nothing else. -/
def Obligations.ClearEmptiesTheDictionary : Prop :=
  ∀ s : State, exec .clear s = .next { s with root := none, cause := .ok, res0 := 0, res1 := 0 }

/-! The Frequency Counter (40_frequency_counter.md). -/

/-- R83: COUNT is the list of Leaf(v, hist[v]) over all v with hist[v] > 0, sorted by frequency ascending, then byte value
ascending. -/
def Obligations.CountIsTheSortedLeafList : Prop :=
  ∀ buf : List Byte, ∃ ps : List (Byte × Nat),
    count buf = ps.map (fun p => TreeNode.leaf p.1 p.2) ∧
    ps.Pairwise (fun p q => p.2 < q.2 ∨ (p.2 = q.2 ∧ p.1 < q.1)) ∧
    ∀ (v : Byte) (n : Nat), (v, n) ∈ ps ↔ (n = buf.count v ∧ 0 < n)

/-- R81: in a sorted list x is placed immediately before the first element of strictly greater frequency, after every element of
equal frequency, and the relative order of the old elements stays; the result is sorted. -/
def Obligations.InsertPlacesAfterEqualFrequencies : Prop :=
  ∀ (list : List TreeNode) (x : TreeNode), sortedByFreq list →
    ∃ front back, list = front ++ back ∧ insertByFreq list x = front ++ x :: back ∧
      (∀ y ∈ front, y.freq ≤ x.freq) ∧ (∀ y ∈ back, x.freq < y.freq) ∧ sortedByFreq (insertByFreq list x)

/-! The Tree Builder (41_tree_builder.md). -/

/-- R93: the list is sorted after COUNT, after every recovered pair of MERGE, and after every round of COMBINE's loop, which
replaces the two front entries by their parent. -/
def Obligations.FrequencyListStaysSorted : Prop :=
  (∀ buf : List Byte, sortedByFreq (count buf)) ∧
  (∀ (list : List TreeNode) (p : Byte × Nat), sortedByFreq list → sortedByFreq (mergePair list p)) ∧
  (∀ (list : List TreeNode) (t : Option TreeNode), sortedByFreq list → sortedByFreq (merge list t)) ∧
  (∀ (a b : TreeNode) (rest : List TreeNode), sortedByFreq (a :: b :: rest) →
    combine (a :: b :: rest) = combine (insertByFreq rest (.node a b (a.freq + b.freq))) ∧
    sortedByFreq (insertByFreq rest (.node a b (a.freq + b.freq))))

/-- R92: COMBINE of a non-empty list of leaves makes `len(L) - 1` internal nodes, keeps every leaf, and puts the sum of its two
children's frequencies at every internal node; of the empty list it makes none, and of one entry, leaf or not, that entry as it is.
With the round of `FrequencyListStaysSorted` this fixes COMBINE on every list. -/
def Obligations.CombineKeepsEveryLeaf : Prop :=
  combine [] = none ∧ (∀ x : TreeNode, combine [x] = some x) ∧
  ∀ list : List TreeNode, list ≠ [] → (∀ x ∈ list, x.isLeaf = true) →
    ∃ t, combine list = some t ∧ t.leaves.Perm (list.flatMap TreeNode.leaves) ∧ t.internals + 1 = list.length ∧ t.sumsOk = true

/-- R94: CREATE builds solely from the source, RES0 is SRC_LEN; an empty source leaves no root whatever the dictionary held;
nothing else changes. -/
def Obligations.CreateBuildsFromTheSourceAlone : Prop :=
  ∀ s : State, s.sourceUsable →
    exec .create s = .next { s with root := combine (count s.source), cause := .ok, res0 := s.srcLen, res1 := 0 } ∧
    (s.srcLen = 0 → combine (count s.source) = none)

/-- R82, R94, R13 to R15: the dictionary CREATE builds is sound and gives every byte value the number of its occurrences in the
source. -/
def Obligations.CreateCountsEveryByte : Prop :=
  ∀ s : State, s.sourceUsable → ∃ t, exec .create s = .next t ∧ dictionarySound t.root = true ∧
    ∀ v : Byte, freqOfDict t.root v = s.source.count v

/-- R95, R91: CREATE_PART rebuilds from the fresh list merged with the recovered leaves; after an OK end size() is the old size()
plus SRC_LEN, every leaf frequency is the sum of the fresh and the recovered one, and nothing but ROOT and the results changes. -/
def Obligations.CreatePartAddsToTheDictionary : Prop :=
  ∀ s : State, s.Inv → s.sourceUsable → s.srcLen.toNat + s.size ≤ 2 ^ 64 - 1 →
    ∃ t, exec .createPart s = .next t ∧
      t = { s with root := combine (merge (count s.source) s.root), cause := .ok, res0 := BitVec.ofNat 64 (s.srcLen.toNat + s.size), res1 := 0 } ∧
      t.size = s.srcLen.toNat + s.size ∧ t.res0.toNat = t.size ∧ dictionarySound t.root = true ∧
      ∀ v : Byte, freqOfDict t.root v = s.source.count v + freqOfDict s.root v

/-- R96: when SRC_LEN + size() would exceed MAXV = 2^64 - 1 the command is not carried out, whatever the source region: ROOT and
memory stay, RES0 is the unchanged size(). -/
def Obligations.CreatePartOverflowLeavesTheRoot : Prop :=
  ∀ s : State, 2 ^ 64 - 1 < s.srcLen.toNat + s.size →
    exec .createPart s = .next { s with cause := .freqOverflow, res0 := BitVec.ofNat 64 s.size, res1 := 0 } ∧
    (s.Inv → (BitVec.ofNat 64 s.size).toNat = s.size)

/-- R101: CREATE_PART of B1 then CREATE_PART of B2 yields the leaf frequencies of CREATE of B1 ++ B2. -/
def Obligations.CreatePartTwiceEqualsCreateOfBoth : Prop :=
  ∀ s1 t1 s2 t2 s3 t3 : State, s1.root = none → exec .createPart s1 = .next t1 → t1.cause = .ok →
    s2.root = t1.root → exec .createPart s2 = .next t2 → t2.cause = .ok →
    s3.source = s1.source ++ s2.source → exec .create s3 = .next t3 →
    ∀ v : Byte, freqOfDict t2.root v = freqOfDict t3.root v

/-- R97: exactly one distinct byte value yields a root that is itself a leaf. -/
def Obligations.OneByteValueGivesALeafRoot : Prop :=
  ∀ (s : State) (v : Byte), s.sourceUsable → s.srcLen ≠ 0 → (∀ b ∈ s.source, b = v) →
    exec .create s = .next { s with root := some (.leaf v s.srcLen.toNat), cause := .ok, res0 := s.srcLen, res1 := 0 }

/-- R15: bounds of every tree that can be ROOT. -/
def Obligations.SoundTreeBounds : Prop :=
  ∀ t : TreeNode, t.sound = true →
    1 ≤ t.leaves.length ∧ t.leaves.length ≤ 256 ∧ t.internals ≤ 255 ∧ t.leaves.length + t.internals ≤ 511 ∧ t.height ≤ 255 ∧
    t.freq ≤ 2 ^ 64 - 1

/-! The Code Table Deriver (42_code_table.md). -/

/-- R112, R110, R111: in the table of a sound tree with an internal root a byte is absent exactly when no leaf carries it; a code
has 1 to 8 bits, bit k the k-th edge from the root, and leads to the byte's leaf; a wide entry is the depth, above 8, of the
byte's leaf. -/
def Obligations.TableEntriesArePaths : Prop :=
  ∀ (l r : TreeNode) (f : Nat) (v : Byte), (TreeNode.node l r f).sound = true →
    ((derive (.node l r f)).entry v = .absent ↔ v ∉ (TreeNode.node l r f).bytes) ∧
    (∀ pat len, (derive (.node l r f)).entry v = .code pat len → 1 ≤ len ∧ len ≤ 8 ∧ pat < 2 ^ len ∧
      ∃ g, (TreeNode.node l r f).follow (patternBits pat len) = some (.leaf v g)) ∧
    (∀ d, (derive (.node l r f)).entry v = .wide d → 8 < d ∧
      ∃ es g, es.length = d ∧ (∀ e ∈ es, e < 2) ∧ (TreeNode.node l r f).follow es = some (.leaf v g))

/-- R113: the only byte of a degenerate tree has the one-bit code 0, every other byte is absent. -/
def Obligations.DegenerateTreeHasAOneBitCode : Prop :=
  ∀ (v : Byte) (f : Nat), (derive (.leaf v f)).entry v = .code 0 1 ∧ ∀ u : Byte, u ≠ v → (derive (.leaf v f)).entry u = .absent

/-- R115: no code is a prefix of another's. -/
def Obligations.CodesArePrefixFree : Prop :=
  ∀ (t : TreeNode) (u v : Byte), t.sound = true → ((derive t).entry u).isCode = true → ((derive t).entry v).isCode = true → u ≠ v →
    ¬∃ rest, ((derive t).entry v).bits = ((derive t).entry u).bits ++ rest

/-! The Stream Encoder (43_encoder.md). -/

/-- R121: UNINIT for no dictionary, whatever else holds, otherwise EMPTY for a zero length; (0, 0), no memory touched, nothing else
changed. -/
def Obligations.EncodeZeroProgress : Prop :=
  (∀ s : State, s.root = none → exec .encode s = .next { s with cause := .uninit, res0 := 0, res1 := 0 }) ∧
  (∀ s : State, s.root ≠ none → (s.srcLen = 0 ∨ s.dstLen = 0) →
    exec .encode s = .next { s with cause := .empty, res0 := 0, res1 := 0 })

/-- R123, R122: the first byte of the clamped input without a code aborts the whole call, absent with UNKNOWN_SYMBOL and wide with
CODE_WIDTH; not one bit of dst, and nothing but the cause and the results, is changed. -/
def Obligations.EncodeAbortsBeforeWriting : Prop :=
  ∀ (s : State) (t : TreeNode) (i : Nat) (b : Byte), s.root = some t → s.srcLen ≠ 0 → s.dstLen ≠ 0 → s.buffersUsable →
    i < min s.srcLen.toNat (2 ^ 61 - 1) → s.source[i]? = some b →
    (∀ (j : Nat) (c : Byte), j < i → s.source[j]? = some c → ((derive t).entry c).isCode = true) →
    ((derive t).entry b = .absent → exec .encode s = .next { s with cause := .unknownSymbol, res0 := 0, res1 := 0 }) ∧
    (∀ d, (derive t).entry b = .wide d → exec .encode s = .next { s with cause := .codeWidth, res0 := 0, res1 := 0 })

/-- R125, R127, R122, R124: ENCODE of an input whose every (clamped) byte has a code. RES0 is the number of bytes whose whole code
words were written, RES1 is BIT_OFFSET plus the number of their bits, what is written stays below CAP, the loop stops only
before a code word that does not fit, and the cause is OK exactly when RES0 = SRC_LEN, then BUFFER_EXHAUSTED or CLAMPED. -/
def Obligations.EncodeProgressIsTheLongestPrefixThatFits : Prop :=
  ∀ (s : State) (t : TreeNode), s.Inv → s.root = some t → s.srcLen ≠ 0 → s.dstLen ≠ 0 → s.buffersUsable →
    (∀ b ∈ s.source.take (2 ^ 61 - 1), ((derive t).entry b).isCode = true) →
    ∃ u, exec .encode s = .next u ∧
      u = { s with mem := u.mem, cause := u.cause, res0 := u.res0, res1 := u.res1 } ∧
      u.res0.toNat ≤ min s.srcLen.toNat (2 ^ 61 - 1) ∧
      u.res1.toNat = s.bitOffset.toNat + (codeStream (derive t) (s.source.take u.res0.toNat)).length ∧
      (u.res0 = 0 ∨ u.res1.toNat ≤ min (8 * s.dstLen.toNat) (2 ^ 64 - 1)) ∧
      (∀ b, u.res0.toNat < min s.srcLen.toNat (2 ^ 61 - 1) → s.source[u.res0.toNat]? = some b →
        min (8 * s.dstLen.toNat) (2 ^ 64 - 1) < u.res1.toNat + ((derive t).entry b).bits.length) ∧
      (u.cause = .ok ↔ u.res0 = s.srcLen) ∧
      (u.cause = .bufferExhausted ↔ u.res0.toNat < min s.srcLen.toNat (2 ^ 61 - 1)) ∧
      (u.cause = .clamped ↔ u.res0 ≠ s.srcLen ∧ u.res0.toNat = 2 ^ 61 - 1)

/-- R122, R127: a source longer than the clamp of 2^61 - 1 bytes, all of which have codes that fit, ends CLAMPED with RES0 the clamp;
the bytes beyond it are not looked at. -/
def Obligations.ClampedEncodeStopsAtTheClamp : Prop :=
  ∀ (s : State) (t : TreeNode), s.Inv → s.root = some t → 2 ^ 61 - 1 < s.srcLen.toNat → s.dstLen ≠ 0 → s.buffersUsable →
    (∀ b ∈ s.source.take (2 ^ 61 - 1), ((derive t).entry b).isCode = true) →
    s.bitOffset.toNat + (codeStream (derive t) (s.source.take (2 ^ 61 - 1))).length ≤ min (8 * s.dstLen.toNat) (2 ^ 64 - 1) →
    ∃ u, exec .encode s = .next u ∧ u.cause = .clamped ∧ u.res0.toNat = 2 ^ 61 - 1 ∧
      u.res1.toNat = s.bitOffset.toNat + (codeStream (derive t) (s.source.take (2 ^ 61 - 1))).length

/-- R126: the bits at the positions [BIT_OFFSET, RES1) of dst become the code words of the encoded bytes, first edge first, laid end
to end; every other bit of dst and every byte that holds no such position is unchanged. -/
def Obligations.EncodeWritesExactlyTheCodeStream : Prop :=
  ∀ (s : State) (t : TreeNode), s.Inv → s.root = some t → s.srcLen ≠ 0 → s.dstLen ≠ 0 → s.buffersUsable →
    (∀ b ∈ s.source.take (2 ^ 61 - 1), ((derive t).entry b).isCode = true) →
    ∃ u, exec .encode s = .next u ∧
      bitsFrom u.mem s.dstAddr.toNat s.bitOffset.toNat (u.res1.toNat - s.bitOffset.toNat) =
        codeStream (derive t) (s.source.take u.res0.toNat) ∧
      (∀ p, p < s.bitOffset.toNat ∨ u.res1.toNat ≤ p → u.mem.getBit s.dstAddr.toNat p = s.mem.getBit s.dstAddr.toNat p) ∧
      (∀ a, (∀ p, s.bitOffset.toNat ≤ p → p < u.res1.toNat → a ≠ s.dstAddr.toNat + p / 8) → u.mem.read a = s.mem.read a)

/-- R130: an input split in two, encoded by two threaded calls into one destination, gives the memory, the final position and the
byte count of one call over the whole, when both calls end OK and the whole is within the clamp and the address space. -/
def Obligations.SplitEncodeEqualsWholeEncode : Prop :=
  ∀ (s : State) (n1 n2 : Word), s.Inv → n1.toNat + n2.toNat = s.srcLen.toNat → s.srcLen.toNat ≤ 2 ^ 61 - 1 →
    s.srcAddr.toNat + s.srcLen.toNat ≤ 2 ^ 64 →
    ∀ u1, exec .encode { s with srcLen := n1 } = .next u1 → u1.cause = .ok →
    ∀ u2, exec .encode { u1 with srcAddr := s.srcAddr + n1, srcLen := n2, bitOffset := u1.res1 } = .next u2 → u2.cause = .ok →
    ∃ u, exec .encode s = .next u ∧ u.cause = .ok ∧ u.mem = u2.mem ∧ u.res1 = u2.res1 ∧
      u.res0.toNat = u1.res0.toNat + u2.res0.toNat

/-- R204, R94: after CREATE over a buffer every byte of that buffer is in the dictionary: ENCODE of it never ends UNKNOWN_SYMBOL. -/
def Obligations.CreatedDictionaryKnowsItsBytes : Prop :=
  ∀ s t : State, s.sourceUsable → exec .create s = .next t →
    ∀ (dst len off : Word) (u : State),
      exec .encode { t with dstAddr := dst, dstLen := len, bitOffset := off } = .next u → u.cause ≠ .unknownSymbol

/-! The Stream Decoder (44_decoder.md). -/

/-- R141: no dictionary, UNINIT and (0, 0), no memory touched and nothing else changed, whatever the regions. -/
def Obligations.DecodeWithoutDictionary : Prop :=
  ∀ s : State, s.root = none → exec .decode s = .next { s with cause := .uninit, res0 := 0, res1 := 0 }

/-- R147, R142, R143, R145, R146: DECODE on a dictionary. The valid bits from BIT_OFFSET to RES0 are the code words, one after the
other, of the RES1 bytes stored at dst; every other byte is unchanged; RES0 passes END never (it is BIT_OFFSET when nothing was
decoded); and it stops because no valid bit remains (OK), because the rest of the valid bits ends inside the tree (OK), or,
with valid bits left, because dst is full (BUFFER_EXHAUSTED). -/
def Obligations.DecodeStoresTheBytesOfWholeCodeWords : Prop :=
  ∀ (s : State) (t : TreeNode) (stop : Nat), s.Inv → s.root = some t → s.buffersUsable →
    stop = (if s.srcLen = 0 then 0
      else if s.endBitOffset = 0 then min (8 * s.srcLen.toNat) (2 ^ 64 - 1)
      else min (8 * (s.srcLen.toNat - 1) + s.endBitOffset.toNat) (2 ^ 64 - 1)) →
    ∃ (u : State) (words : List (List Nat)), exec .decode s = .next u ∧
      u = { s with mem := u.mem, cause := u.cause, res0 := u.res0, res1 := u.res1 } ∧
      u.res1.toNat ≤ s.dstLen.toNat ∧ s.bitOffset.toNat ≤ u.res0.toNat ∧
      List.Forall₂ (isWord t) words (u.mem.readBytes s.dstAddr.toNat u.res1.toNat) ∧
      bitsFrom s.mem s.srcAddr.toNat s.bitOffset.toNat (u.res0.toNat - s.bitOffset.toNat) = words.flatten ∧
      (∀ a, a < s.dstAddr.toNat ∨ s.dstAddr.toNat + u.res1.toNat ≤ a → u.mem.read a = s.mem.read a) ∧
      (u.res1 ≠ 0 → u.res0.toNat ≤ stop) ∧ (u.res1 = 0 → u.res0 = s.bitOffset) ∧
      ((u.cause = .ok ∧ stop ≤ u.res0.toNat) ∨
       (u.cause = .ok ∧ u.res0.toNat < stop ∧ u.res1.toNat < s.dstLen.toNat ∧
         ∃ l r f, t.follow (bitsFrom s.mem s.srcAddr.toNat u.res0.toNat (stop - u.res0.toNat)) = some (.node l r f)) ∨
       (u.cause = .bufferExhausted ∧ u.res0.toNat < stop ∧ u.res1 = s.dstLen))

/-- R144: a degenerate dictionary decodes one byte for each valid bit, whatever its value, as far as dst has room. -/
def Obligations.DegenerateDecodeCountsBits : Prop :=
  ∀ (s : State) (v : Byte) (f : Nat), s.Inv → s.root = some (.leaf v f) → s.buffersUsable → s.bitOffset.toNat ≤ s.endOfBits →
    ∃ u, exec .decode s = .next u ∧ u.res1.toNat = min (s.endOfBits - s.bitOffset.toNat) s.dstLen.toNat ∧
      u.res0.toNat = s.bitOffset.toNat + u.res1.toNat ∧
      u.mem.readBytes s.dstAddr.toNat u.res1.toNat = List.replicate u.res1.toNat v ∧
      (u.cause = .ok ↔ u.res0.toNat = s.endOfBits)

/-- R148: after BUFFER_EXHAUSTED, a second DECODE from the returned bit position into the rest of the destination ends as one
DECODE into the whole destination does: same memory, same position, same cause, the two byte counts added. -/
def Obligations.ResumedDecodeEqualsWholeDecode : Prop :=
  ∀ (s : State) (n1 n2 : Word), s.Inv → s.buffersUsable → n1.toNat + n2.toNat = s.dstLen.toNat →
    ∀ u1, exec .decode { s with dstLen := n1 } = .next u1 → u1.cause = .bufferExhausted →
    ∀ u2, exec .decode { u1 with dstAddr := s.dstAddr + n1, dstLen := n2, bitOffset := u1.res0 } = .next u2 →
    ∃ u, exec .decode s = .next u ∧ u.mem = u2.mem ∧ u.res0 = u2.res0 ∧ u.cause = u2.cause ∧
      u.res1.toNat = u1.res1.toNat + u2.res1.toNat

/-- R150, R115: CREATE over a non-empty buffer, ENCODE of it at any offset into a destination with room, none of its bytes wide,
then DECODE with the matching offsets: it ends OK with (e, len(B)) and the buffer is restored. The bounds that the source is
within the clamp and the last position within MAXV are said as hypotheses; the rule leaves them to the capacities. -/
def Obligations.RoundTripRestoresTheBuffer : Prop :=
  ∀ (s a : State) (t : TreeNode) (dst len off : Word), s.Inv → s.sourceUsable → s.srcLen ≠ 0 →
    exec .create s = .next a → a.root = some t →
    ({ a with dstAddr := dst, dstLen := len, bitOffset := off } : State).buffersUsable →
    (∀ b ∈ s.source, ∀ d, (derive t).entry b ≠ .wide d) → s.srcLen.toNat ≤ 2 ^ 61 - 1 →
    off.toNat + (codeStream (derive t) s.source).length ≤ min (8 * len.toNat) (2 ^ 64 - 1) →
    ∃ e, exec .encode { a with dstAddr := dst, dstLen := len, bitOffset := off } = .next e ∧ e.cause = .ok ∧ e.res0 = s.srcLen ∧
      e.res1.toNat = off.toNat + (codeStream (derive t) s.source).length ∧
      ∀ out room : Word,
        ({ e with srcAddr := dst, srcLen := BitVec.ofNat 64 ((e.res1.toNat + 7) / 8), bitOffset := off, endBitOffset := BitVec.ofNat 3 (e.res1.toNat % 8), dstAddr := out, dstLen := room } : State).buffersUsable →
        s.srcLen.toNat ≤ room.toNat →
        ∃ d, exec .decode { e with srcAddr := dst, srcLen := BitVec.ofNat 64 ((e.res1.toNat + 7) / 8), bitOffset := off, endBitOffset := BitVec.ofNat 3 (e.res1.toNat % 8), dstAddr := out, dstLen := room } = .next d ∧
          d.cause = .ok ∧ d.res0 = e.res1 ∧ d.res1 = s.srcLen ∧ d.mem.readBytes out.toNat s.srcLen.toNat = s.source

/-! The tree image (45_dictionary_access.md). -/

/-- R164: the image of a tree with k leaves has 10·k + (k − 1) bytes, at most 2815 for a tree that can be ROOT. -/
def Obligations.ImageLengthFromLeafCount : Prop :=
  ∀ t : TreeNode, (image t).length = imageLen t ∧ imageLen t = 10 * t.leaves.length + (t.leaves.length - 1) ∧
    (t.sound = true → imageLen t ≤ 2815)

/-- R166: TREE_EXPORT ends UNINIT without a root, BUFFER_EXHAUSTED with (0, needed) and nothing written when the image does not fit,
and otherwise stores the whole image at dst and no other byte; ROOT never changes. -/
def Obligations.ExportWritesTheImageOrNothing : Prop :=
  (∀ s : State, s.root = none → exec .treeExport s = .next { s with cause := .uninit, res0 := 0, res1 := 0 }) ∧
  (∀ (s : State) (t : TreeNode), s.root = some t → s.dstLen.toNat < (image t).length →
    exec .treeExport s = .next { s with cause := .bufferExhausted, res0 := 0, res1 := BitVec.ofNat 64 (image t).length }) ∧
  (∀ (s : State) (t : TreeNode), s.Inv → s.root = some t → (image t).length ≤ s.dstLen.toNat → s.destUsable →
    ∃ u, exec .treeExport s = .next u ∧
      u = { s with mem := u.mem, cause := .ok, res0 := BitVec.ofNat 64 (image t).length, res1 := BitVec.ofNat 64 (image t).length } ∧
      u.mem.readBytes s.dstAddr.toNat (image t).length = image t ∧
      ∀ a, a < s.dstAddr.toNat ∨ s.dstAddr.toNat + (image t).length ≤ a → u.mem.read a = s.mem.read a)

/-- R169: TREE_IMPORT. A candidate that parses and is valid becomes ROOT, with RES0 the bytes its image occupied and RES1 its
size(); anything else leaves the dictionary uninitialized, whatever it held. Nothing is written to memory. -/
def Obligations.ImportAcceptsOrClears : Prop :=
  ∀ s : State, s.sourceUsable →
    (∀ (t : TreeNode) (used : Nat), parse s.source 0 = some (t, used) → t.valid = true →
      exec .treeImport s = .next { s with root := some t, cause := .ok, res0 := BitVec.ofNat 64 used, res1 := BitVec.ofNat 64 t.freq } ∧
      used ≤ s.srcLen.toNat ∧ t.freq ≤ 2 ^ 64 - 1 ∧ t.sound = true) ∧
    ((∀ (t : TreeNode) (used : Nat), parse s.source 0 = some (t, used) → t.valid = false) →
      exec .treeImport s = .next { s with root := none, cause := .malformedTree, res0 := 0, res1 := 0 })

/-- R167, R168: malformed images that the rules name are rejected: an empty source, an unknown tag, an internal node whose right
child is missing, and a byte value carried by two leaves. -/
def Obligations.MalformedImagesAreRejected : Prop :=
  ∀ s : State, s.sourceUsable →
    (s.source = [] ∨ (∃ tag rest, tag ≠ 0x00 ∧ tag ≠ 0x01 ∧ s.source = tag :: rest) ∨
      (∃ l, l.sound = true ∧ s.source = 0x00 :: image l) ∨
      (∃ l r x v, l.sound = true ∧ r.sound = true ∧ v ∈ l.bytes ∧ v ∈ r.bytes ∧ s.source = 0x00 :: (image l ++ image r ++ x))) →
    exec .treeImport s = .next { s with root := none, cause := .malformedTree, res0 := 0, res1 := 0 }

/-- R170: TREE_EXPORT that ends OK, followed by TREE_IMPORT of the written bytes (and whatever follows them), restores the same
ROOT, including every internal frequency. -/
def Obligations.ExportThenImportRestoresTheRoot : Prop :=
  ∀ (s u s' : State) (t : TreeNode), s.Inv → s.root = some t → exec .treeExport s = .next u → u.cause = .ok →
    s'.mem = u.mem → s'.srcAddr = s.dstAddr → u.res0.toNat ≤ s'.srcLen.toNat → s'.sourceUsable →
    exec .treeImport s' = .next { s' with root := some t, cause := .ok, res0 := u.res0, res1 := BitVec.ofNat 64 t.freq }

/-! Memory (20_memory.md). -/

/-- R41, R42: MemRead is the little-endian sum; MemWrite stores n bytes that read back as the value and changes no other byte. -/
def Obligations.MemoryIsLittleEndian : Prop :=
  (∀ (m : Memory) (a n : Nat), m.memRead a n = ((List.range n).map fun i => (m.read (a + i)).toNat * 256 ^ i).sum) ∧
  (∀ (m : Memory) (a n v : Nat), m.wf = true → a + n ≤ 2 ^ 64 → v < 256 ^ n →
    (∀ i, i < n → ((m.memWrite a n v).read (a + i)).toNat = v / 256 ^ i % 256) ∧
    (m.memWrite a n v).memRead a n = v ∧
    (∀ x, x < a ∨ a + n ≤ x → (m.memWrite a n v).read x = m.read x) ∧ (m.memWrite a n v).wf = true)

/-- R45, R44: SetBit changes bit p mod 8 of the byte at base + p div 8 to b and leaves the other seven bits and every other byte as
they were. -/
def Obligations.SetBitChangesOneBit : Prop :=
  ∀ (m : Memory) (base p b : Nat), m.wf = true → b < 2 → base + p / 8 < 2 ^ 64 →
    (m.setBit base p b).getBit base p = b ∧
    (∀ q, q ≠ p → (m.setBit base p b).getBit base q = m.getBit base q) ∧
    (∀ x, x ≠ base + p / 8 → (m.setBit base p b).read x = m.read x) ∧ (m.setBit base p b).wf = true

/-- R49: a command is refused exactly when it reaches its memory phase with a region it uses that wraps, is not accessible, or, for
ENCODE and DECODE, shares an address with the other; the commands without a memory phase never are. -/
def Obligations.RefusedExactlyInABadMemoryPhase : Prop :=
  ∀ s : State,
    ((∃ r, exec .create s = .refused r) ↔ ¬s.sourceUsable) ∧
    ((∃ r, exec .createPart s = .refused r) ↔ s.srcLen.toNat + s.size ≤ 2 ^ 64 - 1 ∧ ¬s.sourceUsable) ∧
    ((∃ r, exec .treeImport s = .refused r) ↔ ¬s.sourceUsable) ∧
    ((∃ r, exec .treeExport s = .refused r) ↔ ∃ t, s.root = some t ∧ imageLen t ≤ s.dstLen.toNat ∧ ¬s.destUsable) ∧
    ((∃ r, exec .encode s = .refused r) ↔ s.root ≠ none ∧ s.srcLen ≠ 0 ∧ s.dstLen ≠ 0 ∧ ¬s.buffersUsable) ∧
    ((∃ r, exec .decode s = .refused r) ↔ s.root ≠ none ∧ ¬s.buffersUsable) ∧
    (∀ i ∈ [Instr.nop, .size, .isInit, .clear], ¬∃ r, exec i s = .refused r)

/-- R48: CREATE, CREATE_PART, SIZE, IS_INIT, NOP, CLEAR and TREE_IMPORT write no memory; ENCODE, DECODE and TREE_EXPORT change no byte
outside the destination region. -/
def Obligations.MemoryChangesOnlyInTheDestination : Prop :=
  ∀ (i : Instr) (s t : State), s.Inv → exec i s = .next t →
    (i ≠ .encode → i ≠ .decode → i ≠ .treeExport → t.mem = s.mem) ∧
    ∀ a, (∀ j, j < s.dstLen.toNat → a ≠ s.dstAddr.toNat + j) → t.mem.read a = s.mem.read a

/-! Whole-machine rules (10_state.md, 60_exceptions.md). -/

/-- R29, and the frame of every command: no command writes an operand register, or anything that is not ROOT, memory or the result
triple. -/
def Obligations.NoCommandWritesAnOperandRegister : Prop :=
  ∀ (i : Instr) (s t : State), exec i s = .next t →
    t.srcAddr = s.srcAddr ∧ t.srcLen = s.srcLen ∧ t.dstAddr = s.dstAddr ∧ t.dstLen = s.dstLen ∧ t.bitOffset = s.bitOffset ∧
    t.endBitOffset = s.endBitOffset ∧ t.pending = s.pending ∧ t.replies = s.replies ∧ t.platform = s.platform

/-- R16: only CREATE, CREATE_PART, TREE_IMPORT and CLEAR assign ROOT, and no host register access does: the only other action that
changes it is a reset, which gives it its reset value (R200). The second clause is about a step that takes the next action from the
host's list, which is the model's (log 1). -/
def Obligations.OnlyFourCommandsAssignTheRoot : Prop :=
  (∀ (i : Instr) (s t : State), i ∉ [Instr.create, .createPart, .treeImport, .clear] → exec i s = .next t → t.root = s.root) ∧
  (∀ (s t : State) (a : HostAction) (rest : List HostAction), s.pending = a :: rest → step s = .next t → t.root ≠ s.root →
    a = .reset ∨ a = .wr 0x00 8 1 ∨ a = .wr 0x00 8 2 ∨ a = .wr 0x00 8 8 ∨ a = .wr 0x00 8 9)

/-- R182: the causes each command can end with, a reserved command word included. The last clause is about a step that takes the
word from the host's list, which is the model's (log 1). -/
def Obligations.CausesOfEachCommand : Prop :=
  ∀ (s t : State),
    (∀ i ∈ [Instr.nop, .size, .isInit, .clear, .create], exec i s = .next t → t.cause = .ok) ∧
    (exec .createPart s = .next t → t.cause ∈ [Cause.ok, .freqOverflow]) ∧
    (exec .encode s = .next t →
      t.cause ∈ [Cause.uninit, .empty, .unknownSymbol, .codeWidth, .ok, .bufferExhausted, .clamped]) ∧
    (exec .decode s = .next t → t.cause ∈ [Cause.uninit, .ok, .bufferExhausted]) ∧
    (exec .treeExport s = .next t → t.cause ∈ [Cause.uninit, .bufferExhausted, .ok]) ∧
    (exec .treeImport s = .next t → t.cause ∈ [Cause.malformedTree, .ok]) ∧
    (∀ (w : Word) (rest : List HostAction) (why : Illegal), s.pending = .wr 0x00 8 w :: rest → decodeWord w = .illegal why →
      step s = .next t → t.cause = .illegalCmd)

/-- R186: every cause other than OK, BUFFER_EXHAUSTED and CLAMPED leaves buffer memory exactly as it was; MALFORMED_TREE sets ROOT to
none and every other cause but OK leaves ROOT as it was; so does a reserved command word, with ILLEGAL_CMD. The last clause is about a step
that takes the word from the host's list, which is the model's (log 1). -/
def Obligations.FailureIsAtomic : Prop :=
  (∀ (i : Instr) (s t : State), exec i s = .next t →
    (t.cause ∉ [Cause.ok, .bufferExhausted, .clamped] → t.mem = s.mem) ∧
    (t.cause = .malformedTree → t.root = none) ∧
    (t.cause ≠ .malformedTree → t.cause ≠ .ok → t.root = s.root)) ∧
  (∀ (s t : State) (w : Word) (rest : List HostAction) (why : Illegal), s.pending = .wr 0x00 8 w :: rest →
    decodeWord w = .illegal why → step s = .next t → t.cause = .illegalCmd ∧ t.mem = s.mem ∧ t.root = s.root)

/-- R187: CAUSE is not sticky and no command's behaviour depends on STATUS, RES0 and RES1: a command answers the same from states
that differ only in them. -/
def Obligations.EarlierResultsDoNotMatter : Prop :=
  ∀ (i : Instr) (s : State) (c : Cause) (r0 r1 : Word), exec i { s with cause := c, res0 := r0, res1 := r1 } = exec i s

/-- R67: a command reads no operand register that is not listed for it: from states that agree on ROOT, memory, the platform and the
registers listed, it ends with the same ROOT, memory, cause and results, or is refused for the same reason. -/
def Obligations.UnlistedOperandsAreNotRead : Prop :=
  ∀ (i : Instr) (s s' : State), s'.root = s.root → s'.mem = s.mem → s'.platform = s.platform →
    (i ∈ [Instr.create, .createPart, .treeImport, .encode, .decode] → s'.srcAddr = s.srcAddr ∧ s'.srcLen = s.srcLen) →
    (i ∈ [Instr.treeExport, .encode, .decode] → s'.dstAddr = s.dstAddr ∧ s'.dstLen = s.dstLen) →
    (i ∈ [Instr.encode, .decode] → s'.bitOffset = s.bitOffset) → (i = .decode → s'.endBitOffset = s.endBitOffset) →
    (∃ r, exec i s = .refused r ∧ exec i s' = .refused r) ∨
    (∃ t t', exec i s = .next t ∧ exec i s' = .next t' ∧ t'.root = t.root ∧ t'.mem = t.mem ∧ t'.cause = t.cause ∧
      t'.res0 = t.res0 ∧ t'.res1 = t.res1)

/-- The pair (0, 0) does not tell the cause. DECODE from bit 0 ends with it OK on an empty source and BUFFER_EXHAUSTED on a
destination of length 0 (R191's DECODE case, R141, R147), and UNINIT ends with it too (R141). The third clause is NOT what R191
says: R191 names an ENCODE with BIT_OFFSET = 0 whose first code word does not fit as such a case. The model follows the commands'
own rules instead, by its own choice (log 19): DST_LEN = 0 ends EMPTY (R121), and any other destination has 8 bit positions
(R124), which hold any code word (R114), so an ENCODE from bit 0 that ends BUFFER_EXHAUSTED has encoded something. -/
def Obligations.ZeroPairNeedsTheCause : Prop :=
  (∀ (s : State) (t : TreeNode), s.root = some t → s.buffersUsable → s.bitOffset = 0 →
    (s.srcLen = 0 → exec .decode s = .next { s with cause := .ok, res0 := 0, res1 := 0 }) ∧
    (s.srcLen ≠ 0 → s.dstLen = 0 → exec .decode s = .next { s with cause := .bufferExhausted, res0 := 0, res1 := 0 })) ∧
  (∀ s : State, s.root = none → exec .decode s = .next { s with cause := .uninit, res0 := 0, res1 := 0 }) ∧
  (∀ (s u : State), s.Inv → s.bitOffset = 0 → exec .encode s = .next u → u.cause = .bufferExhausted → u.res0 ≠ 0 ∧ u.res1 ≠ 0)

/-- R13, R14, R15, R16: what every step keeps, from every state that has it: a sound dictionary, and a memory in canonical form (the
model's, log 6). -/
def Obligations.EveryStepKeepsTheInvariant : Prop :=
  ∀ s t : State, s.Inv → step s = .next t → t.Inv

/-- The invariant holds after reset. -/
def Obligations.ResetMeetsTheInvariant : Prop :=
  State.reset.Inv

/-! MERGE, entry by entry (41_tree_builder.md). -/

/-- R90, R91: the recovered pairs are those of the leaves, left subtree before right subtree, and MERGE takes them in that order. A
pair (b, f) whose byte has an entry takes the (first) entry Leaf(b, g) out of the list and INSERTs Leaf(b, g + f); any other pair
INSERTs Leaf(b, f). -/
def Obligations.MergeReinsertsEachRecoveredPair : Prop :=
  (∀ (front back : List TreeNode) (b : Byte) (g f : Nat), (∀ x, TreeNode.leaf b x ∉ front) →
    mergePair (front ++ .leaf b g :: back) (b, f) = insertByFreq (front ++ back) (.leaf b (g + f))) ∧
  (∀ (list : List TreeNode) (b : Byte) (f : Nat), (∀ x, TreeNode.leaf b x ∉ list) →
    mergePair list (b, f) = insertByFreq list (.leaf b f)) ∧
  (∀ list : List TreeNode, merge list none = list) ∧
  (∀ (list : List TreeNode) (b : Byte) (f : Nat), merge list (some (.leaf b f)) = mergePair list (b, f)) ∧
  (∀ (list : List TreeNode) (l r : TreeNode) (f : Nat),
    merge list (some (.node l r f)) = merge (merge list (some l)) (some r)) ∧
  leavesOf none = [] ∧ (∀ (b : Byte) (f : Nat), leavesOf (some (.leaf b f)) = [(b, f)]) ∧
  (∀ (l r : TreeNode) (f : Nat), leavesOf (some (.node l r f)) = leavesOf (some l) ++ leavesOf (some r))
end

