-- ==== Sys2Proof/Laws/Counter.lean ====
section
/-! SUPPORT. The Frequency Counter: HIST counts, INSERT is a stable sorted insertion, COUNT is the sorted list of the leaves of the
byte values that occur (R80 to R83). -/

namespace Sys2Proof.Machine

/-! The order of byte values. -/

theorem byte_lt_trans {a b c : Byte} (h : a < b) (k : b < c) : a < c := by
  rw [BitVec.lt_def] at *; omega

theorem byte_lt_irrefl {a : Byte} (h : a < a) : False := by
  rw [BitVec.lt_def] at h; omega

theorem byte_lt_of_not_lt {a b : Byte} (h : ¬a < b) (k : a ≠ b) : b < a := by
  rw [BitVec.lt_def] at *
  have k' : a.toNat ≠ b.toNat := fun e => k (BitVec.eq_of_toNat_eq e)
  omega

/-! HIST. -/

/-- Byte values strictly ascending. -/
def ascending (h : List (Byte × Nat)) : Prop :=
  h.Pairwise fun p q => p.1 < q.1

theorem mem_bump {v : Byte} {h : List (Byte × Nat)} {u : Byte} (hu : u ∈ (bump v h).map (·.1)) :
    u = v ∨ u ∈ h.map (·.1) := by
  induction h with
  | nil => simpa [bump] using hu
  | cons p h ih =>
    obtain ⟨w, n⟩ := p
    simp only [bump] at hu
    split at hu
    · simpa using hu
    · split at hu
      · right; simpa using hu
      · simp only [List.map_cons, List.mem_cons] at hu ⊢
        rcases hu with h | h
        · exact .inr (.inl h)
        · exact (ih h).imp id .inr

theorem bump_ascending (v : Byte) {h : List (Byte × Nat)} (ha : ascending h) : ascending (bump v h) := by
  induction h with
  | nil => simp [bump, ascending]
  | cons p h ih =>
    obtain ⟨w, n⟩ := p
    have ha' := ha
    simp only [ascending, List.pairwise_cons] at ha
    simp only [bump]
    split
    · rename_i hlt
      simp only [ascending, List.pairwise_cons]
      refine ⟨?_, ha⟩
      rintro q hq
      rcases List.mem_cons.mp hq with rfl | hq
      · exact hlt
      · exact byte_lt_trans hlt (ha.1 q hq)
    · split
      · simp only [ascending, List.pairwise_cons]
        exact ha
      · rename_i h1 h2
        simp only [ascending, List.pairwise_cons]
        refine ⟨fun q hq => ?_, ih ha.2⟩
        have hq' : q.1 ∈ (bump v h).map (·.1) := List.mem_map_of_mem hq
        rcases mem_bump hq' with e | e
        · rw [e]
          exact byte_lt_of_not_lt h1 h2
        · obtain ⟨q', hq', e⟩ := List.mem_map.mp e
          rw [← e]
          exact ha.1 q' hq'

theorem hist_ascending (buf : List Byte) : ascending (hist buf) := by
  induction buf with
  | nil => simp [hist, ascending]
  | cons v buf ih => exact bump_ascending v ih

/-- `hist[v]` of a histogram, 0 for a value that is not listed. -/
def histAt (h : List (Byte × Nat)) (v : Byte) : Nat :=
  ((h.filter fun p => p.1 = v).map (·.2)).sum

theorem histAt_bump (v u : Byte) {h : List (Byte × Nat)} (ha : ascending h) :
    histAt (bump v h) u = histAt h u + if u = v then 1 else 0 := by
  induction h with
  | nil =>
    by_cases e : u = v
    · subst e; simp [bump, histAt]
    · simp [bump, histAt, e, Ne.symm e]
  | cons p h ih =>
    obtain ⟨w, n⟩ := p
    simp only [ascending, List.pairwise_cons] at ha
    simp only [bump]
    split
    · by_cases e : u = v
      · subst e; simp [histAt]; omega
      · simp [histAt, e, Ne.symm e]
    · split
      · rename_i h1 h2
        subst h2
        by_cases e : u = v
        · subst e; simp [histAt]; omega
        · simp [histAt, e, Ne.symm e]
      · have := ih ha.2
        simp only [histAt] at this ⊢
        by_cases e : w = u
        · simp only [List.filter_cons, e, decide_true, if_true, List.map_cons, List.sum_cons, this]
          omega
        · simp only [List.filter_cons, e, decide_false, Bool.false_eq_true, if_false, this]

/-- `hist[v]` is "the number of indices i with buf[i] = v" (R80). -/
theorem hist_lookup (buf : List Byte) (v : Byte) : histAt (hist buf) v = buf.count v := by
  induction buf with
  | nil => rfl
  | cons u buf ih =>
    rw [hist, histAt_bump _ _ (hist_ascending buf), ih, List.count_cons]
    by_cases e : u = v
    · simp [e]
    · simp [e, Ne.symm e]

theorem bump_pos {v : Byte} {h : List (Byte × Nat)} (hp : ∀ p ∈ h, 0 < p.2) : ∀ p ∈ bump v h, 0 < p.2 := by
  induction h with
  | nil => simp [bump]
  | cons q h ih =>
    obtain ⟨w, n⟩ := q
    simp only [bump]
    split
    · intro p hm
      rcases List.mem_cons.mp hm with rfl | hm
      · exact Nat.one_pos
      · exact hp p hm
    · split
      · intro p hm
        rcases List.mem_cons.mp hm with rfl | hm
        · exact Nat.succ_pos n
        · exact hp p (List.mem_cons_of_mem _ hm)
      · intro p hm
        rcases List.mem_cons.mp hm with rfl | hm
        · exact hp _ List.mem_cons_self
        · exact ih (fun p hm => hp p (List.mem_cons_of_mem _ hm)) p hm

theorem hist_pos (buf : List Byte) : ∀ p ∈ hist buf, 0 < p.2 := by
  induction buf with
  | nil => simp [hist]
  | cons v buf ih => exact bump_pos ih

theorem ascending_nodup {h : List (Byte × Nat)} (ha : ascending h) : (h.map (·.1)).Nodup := by
  rw [List.Nodup, List.pairwise_map]
  refine List.Pairwise.imp ?_ ha
  intro p q hlt e
  rw [e] at hlt
  exact byte_lt_irrefl hlt

/-- In a list with distinct first components the entries of a byte are the one pair. -/
theorem histAt_of_mem {h : List (Byte × Nat)} (hn : (h.map (·.1)).Nodup) {v : Byte} {n : Nat} (hm : (v, n) ∈ h) :
    histAt h v = n := by
  induction h with
  | nil => cases hm
  | cons p h ih =>
    obtain ⟨w, k⟩ := p
    simp only [List.map_cons, List.nodup_cons] at hn
    rcases List.mem_cons.mp hm with e | hm
    · cases e
      have : h.filter (fun p => decide (p.1 = v)) = [] := by
        rw [List.filter_eq_nil_iff]
        intro p hp e
        exact hn.1 (by simpa using ⟨p.2, by simpa [← (by simpa using e : p.1 = v)] using hp⟩)
      simp [histAt, this]
    · have hne : w ≠ v := by
        rintro rfl
        exact hn.1 (List.mem_map_of_mem hm)
      simpa [histAt, hne] using ih hn.2 hm

theorem histAt_of_not_mem {h : List (Byte × Nat)} {v : Byte} (hm : v ∉ h.map (·.1)) : histAt h v = 0 := by
  have : h.filter (fun p => decide (p.1 = v)) = [] := by
    rw [List.filter_eq_nil_iff]
    intro p hp e
    exact hm (by simpa using ⟨p.2, by simpa [← (by simpa using e : p.1 = v)] using hp⟩)
  simp [histAt, this]

/-- The histogram lists exactly the byte values that occur, each with its count (R80). -/
theorem mem_hist {buf : List Byte} {v : Byte} {n : Nat} : (v, n) ∈ hist buf ↔ n = buf.count v ∧ 0 < n := by
  have hn := ascending_nodup (hist_ascending buf)
  constructor
  · intro hm
    exact ⟨by rw [← hist_lookup, histAt_of_mem hn hm], hist_pos buf _ hm⟩
  · rintro ⟨e, hp⟩
    have hv : v ∈ (hist buf).map (·.1) := by
      by_contra hc
      rw [e, ← hist_lookup, histAt_of_not_mem hc] at hp
      exact absurd hp (Nat.lt_irrefl 0)
    obtain ⟨q, hq, e'⟩ := List.mem_map.mp hv
    obtain ⟨w, k⟩ := q
    simp only at e'
    subst e'
    have := histAt_of_mem hn hq
    rw [hist_lookup, ← e] at this
    rwa [this]

theorem bump_sum (v : Byte) (h : List (Byte × Nat)) : ((bump v h).map (·.2)).sum = (h.map (·.2)).sum + 1 := by
  induction h with
  | nil => simp [bump]
  | cons p h ih =>
    obtain ⟨w, n⟩ := p
    simp only [bump]
    split
    · simp; omega
    · split
      · simp; omega
      · simp [ih]; omega

/-- "The sum of their frequencies is N" (R82). -/
theorem hist_sum (buf : List Byte) : ((hist buf).map (·.2)).sum = buf.length := by
  induction buf with
  | nil => rfl
  | cons v buf ih => rw [hist, bump_sum, ih, List.length_cons]

/-! INSERT. -/

theorem insertByFreq_perm (list : List TreeNode) (x : TreeNode) : (insertByFreq list x).Perm (x :: list) := by
  induction list with
  | nil => exact List.Perm.refl _
  | cons y ys ih =>
    simp only [insertByFreq]
    split
    · exact ((ih.cons y).trans (List.Perm.swap x y ys))
    · exact List.Perm.refl _

theorem insertByFreq_length (list : List TreeNode) (x : TreeNode) : (insertByFreq list x).length = list.length + 1 :=
  (insertByFreq_perm list x).length_eq

/-- INSERT puts x behind every element of at most its frequency at the front and before the rest (R81). -/
theorem insertByFreq_split (list : List TreeNode) (x : TreeNode) :
    ∃ front back, list = front ++ back ∧ insertByFreq list x = front ++ x :: back ∧ (∀ y ∈ front, y.freq ≤ x.freq) ∧
      ∀ y, back.head? = some y → x.freq < y.freq := by
  induction list with
  | nil => exact ⟨[], [], rfl, rfl, by simp, by simp⟩
  | cons y ys ih =>
    simp only [insertByFreq]
    split
    · rename_i h
      obtain ⟨f, b, e1, e2, h1, h2⟩ := ih
      refine ⟨y :: f, b, by simp [e1], by simp [e2], ?_, h2⟩
      intro z hz
      rcases List.mem_cons.mp hz with rfl | hz
      · exact h
      · exact h1 z hz
    · rename_i h
      refine ⟨[], y :: ys, rfl, rfl, by simp, ?_⟩
      intro z hz
      cases hz
      omega

theorem insertByFreq_sorted {list : List TreeNode} (x : TreeNode) (hs : sortedByFreq list) : sortedByFreq (insertByFreq list x) := by
  induction list with
  | nil => simp [insertByFreq, sortedByFreq]
  | cons y ys ih =>
    simp only [sortedByFreq, List.pairwise_cons] at hs
    simp only [insertByFreq]
    split
    · rename_i h
      simp only [sortedByFreq, List.pairwise_cons]
      refine ⟨fun z hz => ?_, ih hs.2⟩
      rcases List.mem_cons.mp ((insertByFreq_perm ys x).mem_iff.mp hz) with rfl | hz
      · exact h
      · exact hs.1 z hz
    · rename_i h
      simp only [sortedByFreq, List.pairwise_cons]
      refine ⟨fun z hz => ?_, hs⟩
      rcases List.mem_cons.mp hz with rfl | hz
      · omega
      · have := hs.1 z hz
        omega

/-! COUNT. -/

/-- The leaf of a (byte, frequency) pair. -/
def leafOf (p : Byte × Nat) : TreeNode :=
  .leaf p.1 p.2

/-- Frequency ascending, then byte value ascending (R83). -/
def keyLt (p q : Byte × Nat) : Prop :=
  p.2 < q.2 ∨ p.2 = q.2 ∧ p.1 < q.1

/-- INSERT of a leaf into a list of leaves, seen on the pairs. -/
def insertPair : List (Byte × Nat) → Byte × Nat → List (Byte × Nat)
  | [], x => [x]
  | y :: ys, x => if y.2 ≤ x.2 then y :: insertPair ys x else x :: y :: ys

theorem insertByFreq_leaves (ps : List (Byte × Nat)) (p : Byte × Nat) : insertByFreq (ps.map leafOf) (leafOf p) = (insertPair ps p).map leafOf := by
  induction ps with
  | nil => rfl
  | cons q qs ih =>
    simp only [List.map_cons, insertByFreq, insertPair]
    have h1 : (leafOf q).freq = q.2 := rfl
    have h2 : (leafOf p).freq = p.2 := rfl
    rw [h1, h2]
    split
    · simp [ih]
    · simp

theorem insertPair_perm (ps : List (Byte × Nat)) (p : Byte × Nat) : (insertPair ps p).Perm (p :: ps) := by
  induction ps with
  | nil => exact List.Perm.refl _
  | cons q qs ih =>
    simp only [insertPair]
    split
    · exact (ih.cons q).trans (List.Perm.swap p q qs)
    · exact List.Perm.refl _

theorem insertPair_sorted {ps : List (Byte × Nat)} {p : Byte × Nat} (hs : ps.Pairwise keyLt) (hb : ∀ q ∈ ps, q.1 < p.1) :
    (insertPair ps p).Pairwise keyLt := by
  induction ps with
  | nil => simp [insertPair]
  | cons q qs ih =>
    rw [List.pairwise_cons] at hs
    simp only [insertPair]
    split
    · rename_i h
      rw [List.pairwise_cons]
      refine ⟨fun z hz => ?_, ih hs.2 fun z hz => hb z (List.mem_cons_of_mem _ hz)⟩
      rcases List.mem_cons.mp ((insertPair_perm qs p).mem_iff.mp hz) with rfl | hz
      · rcases Nat.lt_or_eq_of_le h with h | h
        · exact .inl h
        · exact .inr ⟨h, hb q List.mem_cons_self⟩
      · exact hs.1 z hz
    · rename_i h
      rw [List.pairwise_cons, List.pairwise_cons]
      refine ⟨fun z hz => ?_, hs⟩
      rcases List.mem_cons.mp hz with rfl | hz
      · exact .inl (by omega)
      · rcases hs.1 z hz with h' | h'
        · exact .inl (by omega)
        · exact .inl (by omega)

theorem foldl_insert_leaves (h ps : List (Byte × Nat)) :
    h.foldl (fun list vn => insertByFreq list (.leaf vn.1 vn.2)) (ps.map leafOf) = (h.foldl insertPair ps).map leafOf := by
  induction h generalizing ps with
  | nil => rfl
  | cons p h ih =>
    rw [List.foldl_cons, List.foldl_cons, ← ih]
    congr 1
    exact insertByFreq_leaves ps p

theorem foldl_insertPair_perm (h ps : List (Byte × Nat)) : (h.foldl insertPair ps).Perm (h ++ ps) := by
  induction h generalizing ps with
  | nil => exact List.Perm.refl _
  | cons p h ih =>
    rw [List.foldl_cons]
    refine (ih _).trans ?_
    refine ((insertPair_perm ps p).append_left h).trans ?_
    exact List.perm_middle

theorem foldl_insertPair_sorted {h ps : List (Byte × Nat)} (ha : ascending h) (hs : ps.Pairwise keyLt)
    (hb : ∀ q ∈ ps, ∀ p ∈ h, q.1 < p.1) : (h.foldl insertPair ps).Pairwise keyLt := by
  induction h generalizing ps with
  | nil => exact hs
  | cons p h ih =>
    simp only [ascending, List.pairwise_cons] at ha
    rw [List.foldl_cons]
    refine ih ha.2 (insertPair_sorted hs fun q hq => hb q hq p List.mem_cons_self) ?_
    intro q hq p' hp'
    rcases List.mem_cons.mp ((insertPair_perm ps p).mem_iff.mp hq) with rfl | hq
    · exact ha.1 p' hp'
    · exact hb q hq p' (List.mem_cons_of_mem _ hp')

/-- COUNT as leaves of the sorted pairs. -/
theorem count_eq (buf : List Byte) : count buf = ((hist buf).foldl insertPair []).map leafOf :=
  foldl_insert_leaves (hist buf) []

theorem count_pairs_perm (buf : List Byte) : ((hist buf).foldl insertPair []).Perm (hist buf) := by
  simpa using foldl_insertPair_perm (hist buf) []

theorem count_pairs_sorted (buf : List Byte) : ((hist buf).foldl insertPair []).Pairwise keyLt :=
  foldl_insertPair_sorted (hist_ascending buf) List.Pairwise.nil (by simp)

/-- The literal scan of R82 over the byte values 0, 1, …, 255. -/
def scanCount (buf : List Byte) : List TreeNode :=
  (List.range 256).foldl (fun list v =>
    if 0 < buf.count (BitVec.ofNat 8 v) then insertByFreq list (.leaf (BitVec.ofNat 8 v) (buf.count (BitVec.ofNat 8 v))) else list) []

/-- The pairs the literal scan inserts are the histogram. -/
theorem scan_pairs (buf : List Byte) :
    ((List.range 256).filter fun v => 0 < buf.count (BitVec.ofNat 8 v)).map
      (fun v => (BitVec.ofNat 8 v, buf.count (BitVec.ofNat 8 v))) = hist buf := by
  have asc : ascending (((List.range 256).filter fun v => 0 < buf.count (BitVec.ofNat 8 v)).map
      (fun v => ((BitVec.ofNat 8 v : Byte), buf.count (BitVec.ofNat 8 v)))) := by
    unfold ascending
    rw [List.pairwise_map]
    refine List.Pairwise.imp_of_mem ?_ (List.pairwise_lt_range.filter _)
    intro a b ha hb hab
    have ha' := List.mem_range.mp (List.mem_filter.mp ha).1
    have hb' := List.mem_range.mp (List.mem_filter.mp hb).1
    simp only [BitVec.lt_def, BitVec.toNat_ofNat]
    omega
  have mem : ∀ p, p ∈ ((List.range 256).filter fun v => 0 < buf.count (BitVec.ofNat 8 v)).map
      (fun v => ((BitVec.ofNat 8 v : Byte), buf.count (BitVec.ofNat 8 v))) ↔ p ∈ hist buf := by
    rintro ⟨v, n⟩
    rw [mem_hist]
    simp only [List.mem_map, List.mem_filter, List.mem_range, decide_eq_true_eq, Prod.mk.injEq]
    constructor
    · rintro ⟨k, ⟨hk, hp⟩, rfl, rfl⟩
      exact ⟨rfl, hp⟩
    · rintro ⟨rfl, hp⟩
      exact ⟨v.toNat, ⟨v.isLt, by simpa using hp⟩, by simp, by simp⟩
  have irr : ∀ (l : List (Byte × Nat)), ascending l → l.Nodup := fun l hl => hl.imp fun h e => by
    rw [e] at h; exact byte_lt_irrefl h
  refine List.Perm.eq_of_pairwise ?_ asc (hist_ascending buf) ((List.perm_ext_iff_of_nodup (irr _ asc) (irr _ (hist_ascending buf))).mpr mem)
  intro a b _ _ h1 h2
  exact absurd (byte_lt_trans h1 h2) byte_lt_irrefl

/-- COUNT is the scan of R82 (log 12). -/
theorem count_eq_scan (buf : List Byte) : count buf = scanCount buf := by
  have key : ∀ (l : List Nat) (acc : List TreeNode),
      l.foldl (fun list v => if 0 < buf.count (BitVec.ofNat 8 v) then
        insertByFreq list (.leaf (BitVec.ofNat 8 v) (buf.count (BitVec.ofNat 8 v))) else list) acc =
      ((l.filter fun v => 0 < buf.count (BitVec.ofNat 8 v)).map
        (fun v => ((BitVec.ofNat 8 v : Byte), buf.count (BitVec.ofNat 8 v)))).foldl
          (fun list vn => insertByFreq list (.leaf vn.1 vn.2)) acc := by
    intro l
    induction l with
    | nil => intro acc; rfl
    | cons v l ih =>
      intro acc
      rw [List.foldl_cons, ih, List.filter_cons]
      split
      · rename_i h
        simp [h]
      · rename_i h
        simp [h]
  unfold count scanCount
  rw [key, scan_pairs]

end Sys2Proof.Machine
end

