-- ==== Sys2Proof/Laws/Builder.lean ====
section
/-! SUPPORT. The Tree Builder: what MERGE and COMBINE do to the leaves of their lists, and that the dictionary they give is sound
(R91 to R93, R100, R101, R13 to R15). -/

namespace Sys2Proof.Machine

/-! Frequencies of bytes in lists of leaves. -/

theorem histAt_append (h k : List (Byte × Nat)) (v : Byte) : histAt (h ++ k) v = histAt h v + histAt k v := by
  simp [histAt]

theorem histAt_perm {h k : List (Byte × Nat)} (p : h.Perm k) (v : Byte) : histAt h v = histAt k v :=
  ((p.filter _).map _).sum_eq

theorem histAt_cons (p : Byte × Nat) (h : List (Byte × Nat)) (v : Byte) :
    histAt (p :: h) v = (if v = p.1 then p.2 else 0) + histAt h v := by
  by_cases e : v = p.1
  · simp [histAt, e]
  · simp [histAt, e, Ne.symm e]

theorem TreeNode.freqOf_eq (t : TreeNode) (v : Byte) : t.freqOf v = histAt t.leaves v := rfl

theorem freqOfDict_eq (t : Option TreeNode) (v : Byte) : freqOfDict t v = histAt (leavesOf t) v := by
  cases t <;> rfl

/-- The leaves of a list of trees, front tree first. -/
def listLeaves (list : List TreeNode) : List (Byte × Nat) :=
  list.flatMap TreeNode.leaves

@[simp] theorem listLeaves_nil : listLeaves [] = [] := rfl

@[simp] theorem listLeaves_cons (t : TreeNode) (ts : List TreeNode) : listLeaves (t :: ts) = t.leaves ++ listLeaves ts := rfl

theorem listLeaves_perm {l k : List TreeNode} (p : l.Perm k) : (listLeaves l).Perm (listLeaves k) :=
  p.flatMap_right _

theorem listLeaves_leafOf (ps : List (Byte × Nat)) : listLeaves (ps.map leafOf) = ps := by
  induction ps with
  | nil => rfl
  | cons p ps ih => simp [leafOf, TreeNode.leaves, ih]

/-! Sums at the nodes. -/

theorem TreeNode.leaves_ne_nil (t : TreeNode) : t.leaves ≠ [] := by
  induction t with
  | leaf b f => simp [TreeNode.leaves]
  | node l r f ihl ihr => simp [TreeNode.leaves, ihl]

/-- "Equals the sum of the frequencies of the leaves below it" (R13). -/
theorem TreeNode.freq_eq_sum {t : TreeNode} (h : t.sumsOk = true) : t.freq = (t.leaves.map (·.2)).sum := by
  induction t with
  | leaf b f => simp [TreeNode.freq, TreeNode.leaves]
  | node l r f ihl ihr =>
    simp only [TreeNode.sumsOk, Bool.and_eq_true, decide_eq_true_eq] at h
    rw [TreeNode.leaves, List.map_append, List.sum_append, ← ihl h.1.2, ← ihr h.2]
    exact h.1.1

theorem join_sumsOk {a b : TreeNode} (ha : a.sumsOk = true) (hb : b.sumsOk = true) : (join a b).sumsOk = true := by
  simp [join, TreeNode.sumsOk, ha, hb]

/-! A list of trees that can become a dictionary. -/

/-- Sums right at every node, leaf bytes distinct, leaf frequencies positive. -/
structure GoodList (list : List TreeNode) : Prop where
  sums : ∀ t ∈ list, t.sumsOk = true
  bytes : ((listLeaves list).map (·.1)).Nodup
  pos : ∀ p ∈ listLeaves list, 1 ≤ p.2

theorem GoodList.perm {l k : List TreeNode} (p : l.Perm k) (h : GoodList l) : GoodList k where
  sums t ht := h.sums t (p.mem_iff.mpr ht)
  bytes := ((listLeaves_perm p).map _).nodup_iff.mp h.bytes
  pos q hq := h.pos q ((listLeaves_perm p).mem_iff.mpr hq)

theorem GoodList.nil : GoodList [] := ⟨by simp, by simp, by simp⟩

theorem count_goodList (buf : List Byte) : GoodList (count buf) := by
  have hp := count_pairs_perm buf
  rw [count_eq]
  refine ⟨?_, ?_, ?_⟩
  · intro t ht
    obtain ⟨p, _, rfl⟩ := List.mem_map.mp ht
    rfl
  · rw [listLeaves_leafOf]
    exact (hp.map _).nodup_iff.mpr (ascending_nodup (hist_ascending buf))
  · rw [listLeaves_leafOf]
    exact fun p hm => hist_pos buf p (hp.mem_iff.mp hm)

theorem count_leaves_perm (buf : List Byte) : (listLeaves (count buf)).Perm (hist buf) := by
  rw [count_eq, listLeaves_leafOf]
  exact count_pairs_perm buf

/-- COUNT gives every byte value the number of its occurrences (R82). -/
theorem count_freq (buf : List Byte) (v : Byte) : histAt (listLeaves (count buf)) v = buf.count v := by
  rw [histAt_perm (count_leaves_perm buf), hist_lookup]

theorem count_sum (buf : List Byte) : ((listLeaves (count buf)).map (·.2)).sum = buf.length := by
  rw [((count_leaves_perm buf).map _).sum_eq, hist_sum]

theorem count_allLeaves (buf : List Byte) : ∀ t ∈ count buf, t.isLeaf = true := by
  rw [count_eq]
  intro t ht
  obtain ⟨p, _, rfl⟩ := List.mem_map.mp ht
  rfl

theorem keyLt_freq {p q : Byte × Nat} (h : keyLt p q) : (leafOf p).freq ≤ (leafOf q).freq := by
  rcases h with h | h
  · exact Nat.le_of_lt h
  · exact Nat.le_of_eq h.1

theorem count_sorted (buf : List Byte) : sortedByFreq (count buf) := by
  rw [count_eq, sortedByFreq, List.pairwise_map]
  exact (count_pairs_sorted buf).imp keyLt_freq

theorem count_nil : count [] = [] := rfl

/-! MERGE. -/

theorem takeLeaf_some {b : Byte} {list rest : List TreeNode} {g : Nat} (h : takeLeaf b list = some (g, rest)) :
    list.Perm (.leaf b g :: rest) ∧ rest.Sublist list := by
  induction list generalizing rest with
  | nil => cases h
  | cons t ts ih =>
    cases t with
    | leaf c f =>
      simp only [takeLeaf] at h
      split at h
      · rename_i e
        cases h
        subst e
        exact ⟨List.Perm.refl _, List.sublist_cons_self _ _⟩
      · cases hx : takeLeaf b ts with
        | none => simp [hx] at h
        | some gr =>
          obtain ⟨g', r'⟩ := gr
          simp only [hx, Option.some.injEq, Prod.mk.injEq] at h
          obtain ⟨rfl, rfl⟩ := h
          obtain ⟨p, s⟩ := ih hx
          exact ⟨(p.cons _).trans (List.Perm.swap _ _ _), s.cons_cons _⟩
    | node l r f =>
      simp only [takeLeaf] at h
      cases hx : takeLeaf b ts with
      | none => simp [hx] at h
      | some gr =>
        obtain ⟨g', r'⟩ := gr
        simp only [hx, Option.some.injEq, Prod.mk.injEq] at h
        obtain ⟨rfl, rfl⟩ := h
        obtain ⟨p, s⟩ := ih hx
        exact ⟨(p.cons _).trans (List.Perm.swap _ _ _), s.cons_cons _⟩

theorem takeLeaf_none {b : Byte} {list : List TreeNode} (h : takeLeaf b list = none) (f : Nat) : TreeNode.leaf b f ∉ list := by
  induction list with
  | nil => simp
  | cons t ts ih =>
    cases t with
    | leaf c g =>
      simp only [takeLeaf] at h
      split at h
      · cases h
      · rename_i e
        have : takeLeaf b ts = none := by
          cases hx : takeLeaf b ts with
          | none => rfl
          | some gr => simp [hx] at h
        intro hm
        rcases List.mem_cons.mp hm with hm | hm
        · cases hm; exact e rfl
        · exact ih this hm
    | node l r g =>
      simp only [takeLeaf] at h
      have : takeLeaf b ts = none := by
        cases hx : takeLeaf b ts with
        | none => rfl
        | some gr => simp [hx] at h
      intro hm
      rcases List.mem_cons.mp hm with hm | hm
      · cases hm
      · exact ih this hm

/-- The first entry of a byte is the one taken out (R91). -/
theorem takeLeaf_first {b : Byte} {g : Nat} {front back : List TreeNode} (h : ∀ x, TreeNode.leaf b x ∉ front) :
    takeLeaf b (front ++ .leaf b g :: back) = some (g, front ++ back) := by
  induction front with
  | nil => simp [takeLeaf]
  | cons t ts ih =>
    have hts := ih fun x hx => h x (List.mem_cons_of_mem _ hx)
    cases t with
    | leaf c f =>
      have hc : c ≠ b := fun e => h f (e ▸ List.mem_cons_self)
      simp [takeLeaf, hc, hts]
    | node l r f => simp [takeLeaf, hts]

/-- Without an entry of the byte there is nothing to take out (R91). -/
theorem takeLeaf_absent {b : Byte} {list : List TreeNode} (h : ∀ x, TreeNode.leaf b x ∉ list) : takeLeaf b list = none := by
  cases hx : takeLeaf b list with
  | none => rfl
  | some gr => exact absurd ((takeLeaf_some hx).1.mem_iff.mpr List.mem_cons_self) (h gr.1)

/-- What MERGE does with one recovered pair: the frequency is added to the entry of its byte, or a new leaf is inserted (R91). -/
theorem mergePair_cases (list : List TreeNode) (b : Byte) (f : Nat) :
    (∃ g rest, list.Perm (.leaf b g :: rest) ∧ rest.Sublist list ∧
      mergePair list (b, f) = insertByFreq rest (.leaf b (g + f))) ∨
    ((∀ g, TreeNode.leaf b g ∉ list) ∧ mergePair list (b, f) = insertByFreq list (.leaf b f)) := by
  unfold mergePair
  cases h : takeLeaf b list with
  | none => exact .inr ⟨takeLeaf_none h, rfl⟩
  | some gr =>
    obtain ⟨g, rest⟩ := gr
    obtain ⟨p, s⟩ := takeLeaf_some h
    exact .inl ⟨g, rest, p, s, rfl⟩

theorem mergePair_freq (list : List TreeNode) (b : Byte) (f : Nat) (v : Byte) :
    histAt (listLeaves (mergePair list (b, f))) v = histAt (listLeaves list) v + if v = b then f else 0 := by
  rcases mergePair_cases list b f with ⟨g, rest, p, -, e⟩ | ⟨-, e⟩
  · rw [e, histAt_perm (listLeaves_perm (insertByFreq_perm rest _)), histAt_perm (listLeaves_perm p)]
    simp only [listLeaves_cons, TreeNode.leaves, histAt_append, histAt_cons, show histAt [] v = 0 from rfl]
    split <;> omega
  · rw [e, histAt_perm (listLeaves_perm (insertByFreq_perm list _))]
    simp only [listLeaves_cons, TreeNode.leaves, histAt_append, histAt_cons]
    simp only [show histAt [] v = 0 from rfl]
    split <;> omega

theorem mergePair_sum (list : List TreeNode) (b : Byte) (f : Nat) :
    ((listLeaves (mergePair list (b, f))).map (·.2)).sum = ((listLeaves list).map (·.2)).sum + f := by
  rcases mergePair_cases list b f with ⟨g, rest, p, -, e⟩ | ⟨-, e⟩
  · rw [e, ((listLeaves_perm (insertByFreq_perm rest _)).map _).sum_eq, ((listLeaves_perm p).map _).sum_eq]
    simp [TreeNode.leaves]; omega
  · rw [e, ((listLeaves_perm (insertByFreq_perm list _)).map _).sum_eq]
    simp [TreeNode.leaves]; omega

theorem mergePair_sorted {list : List TreeNode} (bf : Byte × Nat) (hs : sortedByFreq list) : sortedByFreq (mergePair list bf) := by
  obtain ⟨b, f⟩ := bf
  rcases mergePair_cases list b f with ⟨g, rest, -, s, e⟩ | ⟨-, e⟩
  · rw [e]; exact insertByFreq_sorted _ (List.Pairwise.sublist s hs)
  · rw [e]; exact insertByFreq_sorted _ hs

theorem mergePair_allLeaves {list : List TreeNode} (bf : Byte × Nat) (hl : ∀ t ∈ list, t.isLeaf = true) :
    ∀ t ∈ mergePair list bf, t.isLeaf = true := by
  obtain ⟨b, f⟩ := bf
  rcases mergePair_cases list b f with ⟨g, rest, -, s, e⟩ | ⟨-, e⟩
  · rw [e]
    intro t ht
    rcases List.mem_cons.mp ((insertByFreq_perm rest _).mem_iff.mp ht) with rfl | ht
    · rfl
    · exact hl t (s.mem ht)
  · rw [e]
    intro t ht
    rcases List.mem_cons.mp ((insertByFreq_perm list _).mem_iff.mp ht) with rfl | ht
    · rfl
    · exact hl t ht

theorem not_mem_bytes_of_allLeaves {list : List TreeNode} {b : Byte} (hl : ∀ t ∈ list, t.isLeaf = true)
    (h : ∀ g, TreeNode.leaf b g ∉ list) : b ∉ (listLeaves list).map (·.1) := by
  intro hm
  obtain ⟨p, hp, e⟩ := List.mem_map.mp hm
  obtain ⟨t, ht, hpt⟩ := List.mem_flatMap.mp hp
  have := hl t ht
  cases t with
  | node l r f => simp [TreeNode.isLeaf] at this
  | leaf c f =>
    simp only [TreeNode.leaves, List.mem_singleton] at hpt
    subst hpt
    simp only at e
    subst e
    exact h f ht

theorem mergePair_goodList {list : List TreeNode} {bf : Byte × Nat} (hf : 1 ≤ bf.2) (hl : ∀ t ∈ list, t.isLeaf = true)
    (hg : GoodList list) : GoodList (mergePair list bf) := by
  obtain ⟨b, f⟩ := bf
  rcases mergePair_cases list b f with ⟨g, rest, p, -, e⟩ | ⟨hn, e⟩
  · rw [e]
    refine GoodList.perm (insertByFreq_perm rest _).symm ?_
    have h := hg.perm p
    refine ⟨?_, ?_, ?_⟩
    · intro t ht
      rcases List.mem_cons.mp ht with rfl | ht
      · rfl
      · exact h.sums t (List.mem_cons_of_mem _ ht)
    · simpa [TreeNode.leaves] using h.bytes
    · intro q hq
      simp only [listLeaves_cons, TreeNode.leaves, List.singleton_append, List.mem_cons] at hq
      rcases hq with rfl | hq
      · exact Nat.le_trans hf (Nat.le_add_left _ _)
      · exact h.pos q (by simp [TreeNode.leaves, hq])
  · rw [e]
    refine GoodList.perm (insertByFreq_perm list _).symm ?_
    refine ⟨?_, ?_, ?_⟩
    · intro t ht
      rcases List.mem_cons.mp ht with rfl | ht
      · rfl
      · exact hg.sums t ht
    · simp only [listLeaves_cons, TreeNode.leaves, List.singleton_append, List.map_cons, List.nodup_cons]
      exact ⟨not_mem_bytes_of_allLeaves hl hn, hg.bytes⟩
    · intro q hq
      simp only [listLeaves_cons, TreeNode.leaves, List.singleton_append, List.mem_cons] at hq
      rcases hq with rfl | hq
      · exact hf
      · exact hg.pos q hq

/-- MERGE adds the recovered frequency of every byte (R91). -/
theorem merge_freq (list : List TreeNode) (t : Option TreeNode) (v : Byte) :
    histAt (listLeaves (merge list t)) v = histAt (listLeaves list) v + freqOfDict t v := by
  rw [freqOfDict_eq]
  unfold merge
  generalize leavesOf t = ps
  induction ps generalizing list with
  | nil => simp [histAt]
  | cons p ps ih =>
    rw [List.foldl_cons, ih, mergePair_freq, histAt_cons]
    omega

theorem merge_sum (list : List TreeNode) (t : Option TreeNode) :
    ((listLeaves (merge list t)).map (·.2)).sum = ((listLeaves list).map (·.2)).sum + ((leavesOf t).map (·.2)).sum := by
  unfold merge
  generalize leavesOf t = ps
  induction ps generalizing list with
  | nil => simp
  | cons p ps ih =>
    rw [List.foldl_cons, ih, mergePair_sum, List.map_cons, List.sum_cons]
    omega

/-- The list stays sorted at every step of MERGE (R93). -/
theorem merge_sorted {list : List TreeNode} (t : Option TreeNode) (hs : sortedByFreq list) : sortedByFreq (merge list t) := by
  unfold merge
  generalize leavesOf t = ps
  induction ps generalizing list with
  | nil => exact hs
  | cons p ps ih => exact ih (mergePair_sorted p hs)

theorem merge_allLeaves {list : List TreeNode} (t : Option TreeNode) (hl : ∀ x ∈ list, x.isLeaf = true) :
    ∀ x ∈ merge list t, x.isLeaf = true := by
  unfold merge
  generalize leavesOf t = ps
  induction ps generalizing list with
  | nil => exact hl
  | cons p ps ih => exact ih (mergePair_allLeaves p hl)

theorem merge_goodList {list : List TreeNode} {t : Option TreeNode} (ht : ∀ p ∈ leavesOf t, 1 ≤ p.2) (hl : ∀ x ∈ list, x.isLeaf = true)
    (hg : GoodList list) : GoodList (merge list t) := by
  unfold merge
  revert ht
  generalize leavesOf t = ps
  intro ht
  induction ps generalizing list with
  | nil => exact hg
  | cons p ps ih =>
    exact ih (mergePair_allLeaves p hl) (mergePair_goodList (ht p List.mem_cons_self) hl hg)
      fun q hq => ht q (List.mem_cons_of_mem _ hq)

/-- "MERGE(L, none) = L" (R91). -/
theorem merge_none (list : List TreeNode) : merge list none = list := rfl

/-! COMBINE. -/

theorem combine_nil : combine [] = none := rfl

theorem combine_one (t : TreeNode) : combine [t] = some t := rfl

/-- One round of the loop of COMBINE (R92). -/
theorem combine_step (a b : TreeNode) (rest : List TreeNode) : combine (a :: b :: rest) = combine (insertByFreq rest (join a b)) := by
  unfold combine
  rw [insertByFreq_length]
  rfl

theorem combineLoop_spec (fuel : Nat) {list : List TreeNode} (hne : list ≠ []) (hf : list.length ≤ fuel + 1)
    (hs : ∀ t ∈ list, t.sumsOk = true) :
    ∃ t, combineLoop fuel list = some t ∧ t.leaves.Perm (listLeaves list) ∧ t.sumsOk = true := by
  induction fuel generalizing list with
  | zero =>
    match list, hne, hf, hs with
    | [t], _, _, hs => exact ⟨t, rfl, by simp, hs t List.mem_cons_self⟩
  | succ fuel ih =>
    match list, hne, hf, hs with
    | [t], _, _, hs => exact ⟨t, rfl, by simp, hs t List.mem_cons_self⟩
    | a :: b :: rest, _, hf, hs =>
      have hp := insertByFreq_perm rest (join a b)
      obtain ⟨t, e, p, h⟩ := ih (list := insertByFreq rest (join a b))
        (by intro e; simpa [insertByFreq_length] using congrArg List.length e)
        (by rw [insertByFreq_length]; simp at hf; omega)
        (by
          intro t ht
          rcases List.mem_cons.mp (hp.mem_iff.mp ht) with rfl | ht
          · exact join_sumsOk (hs a (by simp)) (hs b (by simp))
          · exact hs t (by simp [ht]))
      refine ⟨t, e, p.trans ((listLeaves_perm hp).trans ?_), h⟩
      simp [join, TreeNode.leaves]

/-- COMBINE of a non-empty list is one tree with the same leaves (R92). -/
theorem combine_spec {list : List TreeNode} (hne : list ≠ []) (hs : ∀ t ∈ list, t.sumsOk = true) :
    ∃ t, combine list = some t ∧ t.leaves.Perm (listLeaves list) ∧ t.sumsOk = true :=
  combineLoop_spec list.length hne (Nat.le_succ _) hs

theorem combine_eq_none {list : List TreeNode} (hs : ∀ t ∈ list, t.sumsOk = true) : combine list = none ↔ list = [] := by
  constructor
  · intro h
    by_contra hne
    obtain ⟨t, e, -⟩ := combine_spec hne hs
    rw [h] at e
    cases e
  · rintro rfl
    rfl

theorem combine_leaves_perm {list : List TreeNode} (hs : ∀ t ∈ list, t.sumsOk = true) :
    (leavesOf (combine list)).Perm (listLeaves list) := by
  by_cases hne : list = []
  · subst hne; exact List.Perm.refl _
  · obtain ⟨t, e, p, -⟩ := combine_spec hne hs
    rw [e]
    exact p

theorem combine_size {list : List TreeNode} (hs : ∀ t ∈ list, t.sumsOk = true) :
    dictSize (combine list) = ((listLeaves list).map (·.2)).sum := by
  by_cases hne : list = []
  · subst hne; rfl
  · obtain ⟨t, e, p, h⟩ := combine_spec hne hs
    rw [e, ← (p.map _).sum_eq]
    exact TreeNode.freq_eq_sum h

theorem combine_freq {list : List TreeNode} (hs : ∀ t ∈ list, t.sumsOk = true) (v : Byte) :
    freqOfDict (combine list) v = histAt (listLeaves list) v := by
  rw [freqOfDict_eq, histAt_perm (combine_leaves_perm hs)]

/-! Soundness of what is built (R13 to R15, R100). -/

theorem TreeNode.valid_iff {t : TreeNode} : t.valid = true ↔
    (∀ p ∈ t.leaves, 1 ≤ p.2) ∧ (t.leaves.map (·.1)).Nodup ∧ (t.leaves.map (·.2)).sum ≤ Config.MAXV := by
  simp only [TreeNode.valid, Bool.and_eq_true, List.all_eq_true, decide_eq_true_eq, and_assoc]

theorem TreeNode.sound_iff {t : TreeNode} : t.sound = true ↔ t.sumsOk = true ∧ t.valid = true := by
  simp [TreeNode.sound]

theorem combine_sound {list : List TreeNode} (hg : GoodList list) (hm : ((listLeaves list).map (·.2)).sum ≤ Config.MAXV) :
    dictionarySound (combine list) = true := by
  by_cases hne : list = []
  · subst hne; rfl
  · obtain ⟨t, e, p, h⟩ := combine_spec hne hg.sums
    rw [e]
    refine TreeNode.sound_iff.mpr ⟨h, TreeNode.valid_iff.mpr ⟨?_, ?_, ?_⟩⟩
    · exact fun q hq => hg.pos q (p.mem_iff.mp hq)
    · exact (p.map _).nodup_iff.mpr hg.bytes
    · rw [(p.map _).sum_eq]; exact hm

theorem dictionarySound_pos {t : Option TreeNode} (h : dictionarySound t = true) : ∀ p ∈ leavesOf t, 1 ≤ p.2 := by
  cases t with
  | none => simp [leavesOf]
  | some t => exact (TreeNode.valid_iff.mp (TreeNode.sound_iff.mp h).2).1

/-- "Sum of leaf frequencies equals size()" (R13). -/
theorem dictionarySound_size {t : Option TreeNode} (h : dictionarySound t = true) : dictSize t = ((leavesOf t).map (·.2)).sum := by
  cases t with
  | none => rfl
  | some t => exact TreeNode.freq_eq_sum (TreeNode.sound_iff.mp h).1

theorem dictionarySound_size_le {t : Option TreeNode} (h : dictionarySound t = true) : dictSize t ≤ Config.MAXV := by
  rw [dictionarySound_size h]
  cases t with
  | none => simp [leavesOf]
  | some t => exact (TreeNode.valid_iff.mp (TreeNode.sound_iff.mp h).2).2.2

/-- size() after CREATE over a buffer (R94). -/
theorem create_size (buf : List Byte) : dictSize (combine (count buf)) = buf.length := by
  rw [combine_size (count_goodList buf).sums, count_sum]

theorem create_sound {buf : List Byte} (h : buf.length ≤ Config.MAXV) : dictionarySound (combine (count buf)) = true :=
  combine_sound (count_goodList buf) (by rw [count_sum]; exact h)

/-- size() after CREATE_PART (R95). -/
theorem createPart_size {buf : List Byte} {t : Option TreeNode} (ht : dictionarySound t = true) :
    dictSize (combine (merge (count buf) t)) = buf.length + dictSize t := by
  rw [combine_size (merge_goodList (dictionarySound_pos ht) (count_allLeaves buf) (count_goodList buf)).sums, merge_sum, count_sum,
    ← dictionarySound_size ht]

theorem createPart_sound {buf : List Byte} {t : Option TreeNode} (ht : dictionarySound t = true)
    (h : buf.length + dictSize t ≤ Config.MAXV) : dictionarySound (combine (merge (count buf) t)) = true := by
  refine combine_sound (merge_goodList (dictionarySound_pos ht) (count_allLeaves buf) (count_goodList buf)) ?_
  rw [merge_sum, count_sum, ← dictionarySound_size ht]
  exact h

/-- The frequency of a byte after CREATE_PART is the sum of its fresh and its recovered frequency (R91, R95). -/
theorem createPart_freq {buf : List Byte} {t : Option TreeNode} (ht : dictionarySound t = true) (v : Byte) :
    freqOfDict (combine (merge (count buf) t)) v = buf.count v + freqOfDict t v := by
  rw [combine_freq (merge_goodList (dictionarySound_pos ht) (count_allLeaves buf) (count_goodList buf)).sums, merge_freq, count_freq]

theorem create_freq (buf : List Byte) (v : Byte) : freqOfDict (combine (count buf)) v = buf.count v := by
  rw [combine_freq (count_goodList buf).sums, count_freq]

/-! Shape bounds (R15). -/

theorem TreeNode.leaves_length (t : TreeNode) : t.leaves.length = t.internals + 1 := by
  induction t with
  | leaf b f => rfl
  | node l r f ihl ihr => simp only [TreeNode.leaves, List.length_append, ihl, ihr, TreeNode.internals]; omega

theorem TreeNode.height_le (t : TreeNode) : t.height ≤ t.internals := by
  induction t with
  | leaf b f => exact Nat.le_refl 0
  | node l r f ihl ihr => simp only [TreeNode.height, TreeNode.internals]; omega

theorem nodup_bytes_length {bs : List Byte} (h : bs.Nodup) : bs.length ≤ 256 := by
  have hn : (bs.map BitVec.toNat).Nodup := h.map fun _ _ => BitVec.eq_of_toNat_eq
  have hs : bs.map BitVec.toNat ⊆ List.range 256 := by
    intro x hx
    obtain ⟨b, _, rfl⟩ := List.mem_map.mp hx
    exact List.mem_range.mpr b.isLt
  have := (hn.subperm hs).length_le
  rwa [List.length_map, List.length_range] at this

end Sys2Proof.Machine
end

