-- ==== Sys2Proof/Laws/CodeTable.lean ====
section
/-! SUPPORT. Paths in a tree, the bits of patterns, and what DERIVE puts in the table (R110 to R115). -/

namespace Sys2Proof.Machine

/-! Bits of a pattern. -/

/-- The list holds bits. -/
def isBits (es : List Nat) : Prop :=
  ∀ e ∈ es, e < 2

/-- `sum over k of e_k · 2^k` (R112). -/
def bitsValue : List Nat → Nat
  | [] => 0
  | e :: es => e + 2 * bitsValue es

theorem bitsValue_lt {es : List Nat} (h : isBits es) : bitsValue es < 2 ^ es.length := by
  induction es with
  | nil => simp [bitsValue]
  | cons e es ih =>
    have h1 := h e List.mem_cons_self
    have h2 := ih fun x hx => h x (List.mem_cons_of_mem _ hx)
    simp only [bitsValue, List.length_cons, Nat.pow_succ]
    omega

theorem bit_succ (v k : Nat) : bit v (k + 1) = bit (v / 2) k := by
  simp [bit, Nat.pow_succ, Nat.div_div_eq_div_mul, Nat.mul_comm]

/-- Bit k of the stored pattern is the k-th edge from the root (R112). -/
theorem bit_bitsValue {es : List Nat} (h : isBits es) (k : Nat) : bit (bitsValue es) k = (es[k]?).getD 0 := by
  induction es generalizing k with
  | nil => simp [bitsValue, bit]
  | cons e es ih =>
    have h1 := h e List.mem_cons_self
    have h2 : isBits es := fun x hx => h x (List.mem_cons_of_mem _ hx)
    cases k with
    | zero => simp [bitsValue, bit]; omega
    | succ k =>
      rw [bit_succ, show bitsValue (e :: es) / 2 = bitsValue es by simp only [bitsValue]; omega, ih h2]
      rfl

theorem patternBits_length (pat len : Nat) : (patternBits pat len).length = len := by
  simp [patternBits]

theorem patternBits_isBits (pat len : Nat) : isBits (patternBits pat len) := by
  intro e he
  obtain ⟨k, _, rfl⟩ := List.mem_map.mp he
  exact Nat.mod_lt _ (by decide)

theorem patternBits_bitsValue {es : List Nat} (h : isBits es) : patternBits (bitsValue es) es.length = es := by
  apply List.ext_getElem?
  intro i
  simp only [patternBits, List.getElem?_map]
  by_cases hi : i < es.length
  · simp [hi, bit_bitsValue h]
  · simp [hi]

theorem patternBits_succ (pat len : Nat) : patternBits pat (len + 1) = patternBits pat len ++ [bit pat len] := by
  simp [patternBits, List.range_succ]

theorem CodeEntry.bits_isBits (e : CodeEntry) : isBits e.bits := by
  cases e with
  | absent => simp [CodeEntry.bits, isBits]
  | code pat len => exact patternBits_isBits pat len
  | wide d => simp [CodeEntry.bits, isBits]

theorem codeStream_isBits (table : CodeTable) (bs : List Byte) : isBits (codeStream table bs) := by
  intro e he
  obtain ⟨b, _, hb⟩ := List.mem_flatMap.mp he
  exact CodeEntry.bits_isBits _ e hb

/-! Paths. -/

theorem TreeNode.follow_nil (t : TreeNode) : t.follow [] = some t := by cases t <;> rfl

theorem TreeNode.follow_append (t : TreeNode) (a b : List Nat) : t.follow (a ++ b) = (t.follow a).bind (·.follow b) := by
  induction a generalizing t with
  | nil => simp [TreeNode.follow_nil]
  | cons e es ih =>
    cases t with
    | leaf v f => rfl
    | node l r f =>
      simp only [List.cons_append, TreeNode.follow]
      split <;> exact ih _

theorem TreeNode.leaf_follow {v w : Byte} {f g : Nat} {es : List Nat} (h : (TreeNode.leaf v f).follow es = some (.leaf w g)) :
    es = [] ∧ v = w ∧ f = g := by
  cases es with
  | nil =>
    simp only [TreeNode.follow, Option.some.injEq, TreeNode.leaf.injEq] at h
    exact ⟨rfl, h⟩
  | cons e es => simp [TreeNode.follow] at h

/-- A path that ends at a leaf ends at a leaf of the tree. -/
theorem TreeNode.mem_leaves_of_follow {t : TreeNode} {es : List Nat} {v : Byte} {f : Nat} (h : t.follow es = some (.leaf v f)) :
    (v, f) ∈ t.leaves := by
  induction t generalizing es with
  | leaf w g =>
    obtain ⟨-, rfl, rfl⟩ := TreeNode.leaf_follow h
    simp [TreeNode.leaves]
  | node l r g ihl ihr =>
    cases es with
    | nil => simp [TreeNode.follow] at h
    | cons e es =>
      simp only [TreeNode.follow] at h
      simp only [TreeNode.leaves, List.mem_append]
      split at h
      · exact .inl (ihl h)
      · exact .inr (ihr h)

theorem TreeNode.mem_bytes_of_follow {t : TreeNode} {es : List Nat} {v : Byte} {f : Nat} (h : t.follow es = some (.leaf v f)) :
    v ∈ t.bytes :=
  List.mem_map_of_mem (f := (·.1)) (TreeNode.mem_leaves_of_follow h)

/-- Every leaf is at the end of a path of edge bits, of at most as many edges as the tree is high. -/
theorem TreeNode.exists_path {t : TreeNode} {v : Byte} {f : Nat} (h : (v, f) ∈ t.leaves) :
    ∃ es, isBits es ∧ t.follow es = some (.leaf v f) ∧ es.length ≤ t.height := by
  induction t with
  | leaf w g =>
    simp only [TreeNode.leaves, List.mem_singleton, Prod.mk.injEq] at h
    obtain ⟨rfl, rfl⟩ := h
    exact ⟨[], by simp [isBits], rfl, Nat.zero_le _⟩
  | node l r g ihl ihr =>
    simp only [TreeNode.leaves, List.mem_append] at h
    rcases h with h | h
    · obtain ⟨es, hb, hf, hl⟩ := ihl h
      refine ⟨1 :: es, ?_, ?_, ?_⟩
      · intro e he
        rcases List.mem_cons.mp he with rfl | he
        · decide
        · exact hb e he
      · simpa [TreeNode.follow] using hf
      · simp only [List.length_cons, TreeNode.height]; omega
    · obtain ⟨es, hb, hf, hl⟩ := ihr h
      refine ⟨0 :: es, ?_, ?_, ?_⟩
      · intro e he
        rcases List.mem_cons.mp he with rfl | he
        · decide
        · exact hb e he
      · simpa [TreeNode.follow] using hf
      · simp only [List.length_cons, TreeNode.height]; omega

theorem TreeNode.bytes_node (l r : TreeNode) (f : Nat) : (TreeNode.node l r f).bytes = l.bytes ++ r.bytes := by
  simp [TreeNode.bytes, TreeNode.leaves]

/-- Distinct leaf bytes: a byte has one path. -/
theorem TreeNode.path_unique {t : TreeNode} (hn : t.bytes.Nodup) {es fs : List Nat} (he : isBits es) (hf : isBits fs) {v : Byte} {f g : Nat}
    (h1 : t.follow es = some (.leaf v f)) (h2 : t.follow fs = some (.leaf v g)) : es = fs := by
  induction t generalizing es fs with
  | leaf w k => rw [(TreeNode.leaf_follow h1).1, (TreeNode.leaf_follow h2).1]
  | node l r k ihl ihr =>
    rw [TreeNode.bytes_node, List.nodup_append] at hn
    cases es with
    | nil => simp [TreeNode.follow] at h1
    | cons e es =>
      cases fs with
      | nil => simp [TreeNode.follow] at h2
      | cons d fs =>
        have e2 := he e List.mem_cons_self
        have d2 := hf d List.mem_cons_self
        have he' : isBits es := fun x hx => he x (List.mem_cons_of_mem _ hx)
        have hf' : isBits fs := fun x hx => hf x (List.mem_cons_of_mem _ hx)
        simp only [TreeNode.follow] at h1 h2
        split at h1 <;> split at h2
        · rw [ihl hn.1 he' hf' h1 h2, ‹e = 1›, ‹d = 1›]
        · exact absurd rfl (hn.2.2 v (TreeNode.mem_bytes_of_follow h1) v (TreeNode.mem_bytes_of_follow h2))
        · exact absurd rfl (hn.2.2 v (TreeNode.mem_bytes_of_follow h2) v (TreeNode.mem_bytes_of_follow h1))
        · rw [ihr hn.2.1 he' hf' h1 h2, show e = d by omega]

/-! DERIVE. -/

theorem entry_walk_other {t : TreeNode} {v : Byte} (h : v ∉ t.bytes) (pat d : Nat) (table : CodeTable) :
    (walkCodes t pat d table).entry v = table.entry v := by
  induction t generalizing pat d table with
  | leaf w f =>
    have : w ≠ v := fun e => h (by simp [TreeNode.bytes, TreeNode.leaves, e])
    simp [walkCodes, CodeTable.entry, this]
  | node l r f ihl ihr =>
    rw [TreeNode.bytes_node, List.mem_append, not_or] at h
    rw [walkCodes, ihr h.2, ihl h.1]

/-- The entry of a leaf is made of the edges of its path (R112). -/
theorem entry_walk {t : TreeNode} (hn : t.bytes.Nodup) {es : List Nat} (hb : isBits es) {v : Byte} {f : Nat}
    (h : t.follow es = some (.leaf v f)) (pat d : Nat) (table : CodeTable) :
    (walkCodes t pat d table).entry v = leafEntry (pat + 2 ^ d * bitsValue es) (d + es.length) := by
  induction t generalizing es pat d table with
  | leaf w g =>
    obtain ⟨rfl, rfl, -⟩ := TreeNode.leaf_follow h
    simp [walkCodes, CodeTable.entry, bitsValue]
  | node l r g ihl ihr =>
    rw [TreeNode.bytes_node, List.nodup_append] at hn
    cases es with
    | nil => simp [TreeNode.follow] at h
    | cons e es =>
      have e2 := hb e List.mem_cons_self
      have hb' : isBits es := fun x hx => hb x (List.mem_cons_of_mem _ hx)
      simp only [TreeNode.follow] at h
      rw [walkCodes]
      split at h
      · subst e
        have hr : v ∉ r.bytes := fun hr => hn.2.2 v (TreeNode.mem_bytes_of_follow h) v hr rfl
        rw [entry_walk_other hr, ihl hn.1 hb' h]
        congr 1
        · simp only [bitsValue, Nat.pow_succ]; ring
        · simp only [List.length_cons]; omega
      · obtain rfl : e = 0 := by omega
        rw [ihr hn.2.1 hb' h]
        congr 1
        · simp only [bitsValue, Nat.pow_succ]; ring
        · simp only [List.length_cons]; omega

theorem entry_nil (v : Byte) : CodeTable.entry [] v = .absent := rfl

/-- DERIVE of an internal root: the entry of a byte at the end of a path (R112, R114). -/
theorem derive_entry {l r : TreeNode} {f : Nat} (hn : (TreeNode.node l r f).bytes.Nodup) {es : List Nat} (hb : isBits es) {v : Byte} {g : Nat}
    (h : (TreeNode.node l r f).follow es = some (.leaf v g)) :
    (derive (.node l r f)).entry v = leafEntry (bitsValue es) es.length := by
  rw [derive, entry_walk hn hb h]
  simp

theorem derive_absent {l r : TreeNode} {f : Nat} {v : Byte} (h : v ∉ (TreeNode.node l r f).bytes) :
    (derive (.node l r f)).entry v = .absent := by
  rw [derive, entry_walk_other h, entry_nil]

theorem TreeNode.sound_bytes {t : TreeNode} (h : t.sound = true) : t.bytes.Nodup :=
  (TreeNode.valid_iff.mp (TreeNode.sound_iff.mp h).2).2.1

theorem mem_bytes_iff {t : TreeNode} {v : Byte} : v ∈ t.bytes ↔ ∃ f, (v, f) ∈ t.leaves := by
  simp [TreeNode.bytes]

/-- Every entry of DERIVE of an internal root (R110, R112, R114): absent exactly for a byte that no leaf carries, otherwise the
path of its leaf, as a code when it has at most 8 edges. -/
theorem derive_cases {l r : TreeNode} {f : Nat} (hn : (TreeNode.node l r f).bytes.Nodup) (v : Byte) :
    (v ∉ (TreeNode.node l r f).bytes ∧ (derive (.node l r f)).entry v = .absent) ∨
    ∃ es g, isBits es ∧ (TreeNode.node l r f).follow es = some (.leaf v g) ∧ 1 ≤ es.length ∧
      (derive (.node l r f)).entry v = leafEntry (bitsValue es) es.length := by
  by_cases h : v ∈ (TreeNode.node l r f).bytes
  · right
    obtain ⟨g, hg⟩ := mem_bytes_iff.mp h
    obtain ⟨es, hb, hf, -⟩ := TreeNode.exists_path hg
    refine ⟨es, g, hb, hf, ?_, derive_entry hn hb hf⟩
    cases es with
    | nil => simp [TreeNode.follow] at hf
    | cons e es => simp
  · exact .inl ⟨h, derive_absent h⟩

/-- A code of an internal root leads back to its leaf. -/
theorem derive_code {l r : TreeNode} {f : Nat} (hn : (TreeNode.node l r f).bytes.Nodup) {v : Byte} {pat len : Nat}
    (h : (derive (.node l r f)).entry v = .code pat len) :
    1 ≤ len ∧ len ≤ 8 ∧ pat < 2 ^ len ∧ ∃ g, (TreeNode.node l r f).follow (patternBits pat len) = some (.leaf v g) := by
  rcases derive_cases hn v with ⟨-, e⟩ | ⟨es, g, hb, hf, hl, e⟩
  · rw [h] at e; cases e
  · rw [h] at e
    unfold leafEntry at e
    split at e
    · simp only [CodeEntry.code.injEq] at e
      obtain ⟨rfl, rfl⟩ := e
      exact ⟨hl, ‹_›, bitsValue_lt hb, g, by rw [patternBits_bitsValue hb]; exact hf⟩
    · cases e

/-- A wide entry is a leaf deeper than 8 (R114). -/
theorem derive_wide {l r : TreeNode} {f : Nat} (hn : (TreeNode.node l r f).bytes.Nodup) {v : Byte} {d : Nat}
    (h : (derive (.node l r f)).entry v = .wide d) :
    8 < d ∧ ∃ es g, isBits es ∧ es.length = d ∧ (TreeNode.node l r f).follow es = some (.leaf v g) := by
  rcases derive_cases hn v with ⟨-, e⟩ | ⟨es, g, hb, hf, hl, e⟩
  · rw [h] at e; cases e
  · rw [h] at e
    unfold leafEntry at e
    split at e
    · cases e
    · simp only [CodeEntry.wide.injEq] at e
      rename_i h8
      exact ⟨by rw [e]; exact Nat.lt_of_not_le h8, es, g, hb, e.symm, hf⟩

/-- DERIVE of a degenerate tree (R113). -/
theorem derive_leaf (v u : Byte) (f : Nat) : (derive (.leaf v f)).entry u = if v = u then .code 0 1 else .absent := rfl

/-- A byte is absent from the table exactly when no leaf carries it (R110), for either kind of root. -/
theorem derive_absent_iff {t : TreeNode} (hn : t.bytes.Nodup) (v : Byte) : (derive t).entry v = .absent ↔ v ∉ t.bytes := by
  cases t with
  | leaf w f =>
    rw [derive_leaf]
    by_cases e : w = v
    · simp [e, TreeNode.bytes, TreeNode.leaves]
    · simp [e, TreeNode.bytes, TreeNode.leaves, Ne.symm e]
  | node l r f =>
    rcases derive_cases hn v with ⟨h, e⟩ | ⟨es, g, hb, hf, hl, e⟩
    · exact ⟨fun _ => h, fun _ => e⟩
    · constructor
      · intro h
        rw [e] at h
        unfold leafEntry at h
        split at h <;> cases h
      · intro h
        exact absurd (TreeNode.mem_bytes_of_follow hf) h

/-- A code has 1 to 8 bits (R110), for either kind of root. -/
theorem derive_code_length {t : TreeNode} (hn : t.bytes.Nodup) {v : Byte} {pat len : Nat} (h : (derive t).entry v = .code pat len) :
    1 ≤ len ∧ len ≤ 8 ∧ pat < 2 ^ len := by
  cases t with
  | leaf w f =>
    rw [derive_leaf] at h
    split at h
    · simp only [CodeEntry.code.injEq] at h
      obtain ⟨rfl, rfl⟩ := h
      decide
    · cases h
  | node l r f => exact ⟨(derive_code hn h).1, (derive_code hn h).2.1, (derive_code hn h).2.2.1⟩

/-! Prefix property (R115). -/

/-- A path that ends at a leaf cannot be continued. -/
theorem TreeNode.follow_leaf_append {t : TreeNode} {a b : List Nat} {v : Byte} {f : Nat} (h : t.follow a = some (.leaf v f)) {x : TreeNode}
    (h2 : t.follow (a ++ b) = some x) : b = [] := by
  rw [TreeNode.follow_append, h] at h2
  cases b with
  | nil => rfl
  | cons e es => simp [TreeNode.follow] at h2

end Sys2Proof.Machine
end

