-- ==== Sys2Proof/Laws/Memory.lean ====
section
/-! SUPPORT. Buffer memory: the canonical form is kept by every operation, what is read after a write, and bits in bytes. -/

namespace Sys2Proof.Machine

/-! The canonical form. -/

theorem Memory.wfFrom_mono {lo lo' : Nat} (h : lo' ≤ lo) {m : Memory} (hm : m.wfFrom lo = true) : m.wfFrom lo' = true := by
  cases m with
  | nil => rfl
  | cons c m =>
    obtain ⟨a, b⟩ := c
    simp only [Memory.wfFrom, Bool.and_eq_true, decide_eq_true_eq] at hm ⊢
    exact ⟨⟨⟨by omega, hm.1.1.2⟩, hm.1.2⟩, hm.2⟩

theorem Memory.wf_of_wfFrom {lo : Nat} {m : Memory} (hm : m.wfFrom lo = true) : m.wf = true :=
  Memory.wfFrom_mono (Nat.zero_le lo) hm

/-- Below the first cell every address reads as unlisted. -/
theorem Memory.read_below {lo : Nat} {m : Memory} (hm : m.wfFrom lo = true) {a : Nat} (ha : a < lo) :
    m.read a = unlistedByte := by
  cases m with
  | nil => rfl
  | cons c m =>
    obtain ⟨k, v⟩ := c
    simp only [Memory.wfFrom, Bool.and_eq_true, decide_eq_true_eq] at hm
    simp only [Memory.read]
    rw [if_pos (by omega)]

theorem Memory.cell_wf {lo a : Nat} {b : Byte} {m : Memory} (hlo : lo ≤ a) (ha : a < 2 ^ 64) (hm : m.wfFrom (a + 1) = true) :
    (Memory.cell a b m).wfFrom lo = true := by
  unfold Memory.cell
  split
  · exact Memory.wfFrom_mono (by omega) hm
  · simp only [Memory.wfFrom, Bool.and_eq_true, decide_eq_true_eq]
    exact ⟨⟨⟨hlo, ha⟩, ‹_›⟩, hm⟩

theorem Memory.write_wfFrom {m : Memory} {lo a : Nat} (b : Byte) (hm : m.wfFrom lo = true) (hlo : lo ≤ a) (ha : a < 2 ^ 64) :
    (m.write a b).wfFrom lo = true := by
  induction m generalizing lo with
  | nil => exact Memory.cell_wf hlo ha rfl
  | cons c m ih =>
    obtain ⟨k, v⟩ := c
    have hm' := hm
    simp only [Memory.wfFrom, Bool.and_eq_true, decide_eq_true_eq] at hm
    simp only [Memory.write]
    split
    · refine Memory.cell_wf hlo ha ?_
      simp only [Memory.wfFrom, Bool.and_eq_true, decide_eq_true_eq]
      exact ⟨⟨⟨by omega, hm.1.1.2⟩, hm.1.2⟩, hm.2⟩
    · split
      · subst a
        exact Memory.cell_wf hlo ha hm.2
      · simp only [Memory.wfFrom, Bool.and_eq_true, decide_eq_true_eq]
        exact ⟨⟨⟨hm.1.1.1, hm.1.1.2⟩, hm.1.2⟩, ih hm.2 (by omega)⟩

/-- A write inside the address space keeps the canonical form. -/
theorem Memory.write_wf {m : Memory} {a : Nat} (b : Byte) (hm : m.wf = true) (ha : a < 2 ^ 64) : (m.write a b).wf = true :=
  Memory.write_wfFrom b hm (Nat.zero_le a) ha

/-! Read after write. -/

theorem Memory.read_cell {a x : Nat} {b : Byte} {m : Memory} (hm : m.wfFrom (a + 1) = true) :
    (Memory.cell a b m).read x = if x = a then b else m.read x := by
  unfold Memory.cell
  split
  · split
    · subst x
      rw [Memory.read_below hm (by omega), ‹b = _›]
    · rfl
  · simp only [Memory.read]
    by_cases hx : x < a
    · rw [if_pos hx, if_neg (by omega), Memory.read_below hm (by omega)]
    · rw [if_neg hx]

theorem Memory.read_write_from {m : Memory} {lo a : Nat} (b : Byte) (hm : m.wfFrom lo = true) (x : Nat) :
    (m.write a b).read x = if x = a then b else m.read x := by
  induction m generalizing lo with
  | nil => exact Memory.read_cell rfl
  | cons c m ih =>
    obtain ⟨k, v⟩ := c
    have hm' := hm
    simp only [Memory.wfFrom, Bool.and_eq_true, decide_eq_true_eq] at hm
    simp only [Memory.write]
    split
    · refine Memory.read_cell ?_
      simp only [Memory.wfFrom, Bool.and_eq_true, decide_eq_true_eq]
      exact ⟨⟨⟨by omega, hm.1.1.2⟩, hm.1.2⟩, hm.2⟩
    · split
      · subst a
        rw [Memory.read_cell hm.2]
        by_cases hx : x = k
        · simp [hx]
        · simp only [if_neg hx, Memory.read]
          by_cases hlt : x < k
          · rw [if_pos hlt, Memory.read_below hm.2 (by omega)]
          · rw [if_neg hlt]
      · simp only [Memory.read]
        rw [ih hm.2]
        by_cases hx : x = a
        · subst x
          simp only [if_true]
          rw [if_neg (by omega), if_neg (by omega)]
        · simp only [if_neg hx]

/-- What a byte reads after a write: the value written at its address, as before elsewhere (R42, R47). -/
theorem Memory.read_write {m : Memory} (hm : m.wf = true) (a : Nat) (b : Byte) (x : Nat) :
    (m.write a b).read x = if x = a then b else m.read x :=
  Memory.read_write_from b hm x

/-- Two memories in canonical form that read alike everywhere are equal lists. -/
theorem Memory.ext_from {m n : Memory} {lo : Nat} (hm : m.wfFrom lo = true) (hn : n.wfFrom lo = true)
    (h : ∀ a, m.read a = n.read a) : m = n := by
  induction m generalizing n lo with
  | nil =>
    cases n with
    | nil => rfl
    | cons c n =>
      obtain ⟨k, v⟩ := c
      have := h k
      simp only [Memory.wfFrom, Bool.and_eq_true, decide_eq_true_eq] at hn
      simp [Memory.read] at this
      exact absurd this.symm hn.1.2
  | cons c m ih =>
    obtain ⟨k, v⟩ := c
    have hm' := hm
    simp only [Memory.wfFrom, Bool.and_eq_true, decide_eq_true_eq] at hm
    cases n with
    | nil =>
      have := h k
      simp [Memory.read] at this
      exact absurd this hm.1.2
    | cons d n =>
      obtain ⟨j, w⟩ := d
      have hn' := hn
      simp only [Memory.wfFrom, Bool.and_eq_true, decide_eq_true_eq] at hn
      have hjk : j = k := by
        rcases Nat.lt_trichotomy j k with hlt | heq | hgt
        · have := h j
          simp [Memory.read, hlt] at this
          exact absurd this.symm hn.1.2
        · exact heq
        · have := h k
          simp [Memory.read, hgt] at this
          exact absurd this hm.1.2
      subst hjk
      have hv : v = w := by simpa [Memory.read] using h j
      subst hv
      refine congrArg _ (ih hm.2 hn.2 fun a => ?_)
      have := h a
      simp only [Memory.read] at this
      by_cases hlt : a < j + 1
      · rw [Memory.read_below hm.2 hlt, Memory.read_below hn.2 hlt]
      · rwa [if_neg (by omega), if_neg (by omega), if_neg (by omega), if_neg (by omega)] at this

/-- Equal memories are equal data. -/
theorem Memory.ext {m n : Memory} (hm : m.wf = true) (hn : n.wf = true) (h : ∀ a, m.read a = n.read a) : m = n :=
  Memory.ext_from hm hn h

/-! Several bytes. -/

theorem Memory.readBytes_length (m : Memory) (a n : Nat) : (m.readBytes a n).length = n := by
  induction n generalizing a with
  | zero => rfl
  | succ n ih => simp [Memory.readBytes, ih]

theorem Memory.readBytes_getElem? (m : Memory) (a n i : Nat) :
    (m.readBytes a n)[i]? = if i < n then some (m.read (a + i)) else none := by
  induction n generalizing a i with
  | zero => simp [Memory.readBytes]
  | succ n ih =>
    cases i with
    | zero => simp [Memory.readBytes]
    | succ i =>
      simp only [Memory.readBytes, List.getElem?_cons_succ, ih]
      simp [Nat.add_assoc, Nat.add_comm 1 i]

/-- The bytes read are those of each address in turn (R84). -/
theorem Memory.readBytes_eq_map (m : Memory) (a n : Nat) : m.readBytes a n = (List.range n).map fun i => m.read (a + i) := by
  apply List.ext_getElem?
  intro i
  rw [Memory.readBytes_getElem?]
  by_cases h : i < n <;> simp [h]

theorem Memory.readBytes_congr {m n : Memory} {a len : Nat} (h : ∀ i, i < len → m.read (a + i) = n.read (a + i)) :
    m.readBytes a len = n.readBytes a len := by
  rw [Memory.readBytes_eq_map, Memory.readBytes_eq_map]
  exact List.map_congr_left fun i hi => h i (List.mem_range.mp hi)

theorem Memory.readBytes_append (m : Memory) (a n k : Nat) :
    m.readBytes a (n + k) = m.readBytes a n ++ m.readBytes (a + n) k := by
  induction n generalizing a with
  | zero => simp [Memory.readBytes]
  | succ n ih =>
    rw [Nat.succ_add]
    simp [Memory.readBytes, ih, Nat.add_assoc, Nat.add_comm 1 n]

theorem Memory.readBytes_take (m : Memory) (a : Nat) {n k : Nat} (h : k ≤ n) :
    (m.readBytes a n).take k = m.readBytes a k := by
  obtain ⟨d, rfl⟩ := Nat.exists_eq_add_of_le h
  rw [Memory.readBytes_append, List.take_left' (Memory.readBytes_length m a k)]

theorem Memory.writeBytes_wf {m : Memory} {a : Nat} (bs : List Byte) (hm : m.wf = true) (ha : a + bs.length ≤ 2 ^ 64) :
    (m.writeBytes a bs).wf = true := by
  induction bs generalizing m a with
  | nil => exact hm
  | cons b bs ih =>
    simp only [List.length_cons] at ha
    exact ih (Memory.write_wf b hm (by omega)) (by omega)

/-- What a byte reads after a list of bytes has been stored at `a` on, inside the address space. -/
theorem Memory.read_writeBytes {m : Memory} {a : Nat} {bs : List Byte} (hm : m.wf = true) (ha : a + bs.length ≤ 2 ^ 64) (x : Nat) :
    (m.writeBytes a bs).read x = if a ≤ x then (bs[x - a]?).getD (m.read x) else m.read x := by
  induction bs generalizing m a with
  | nil => simp [Memory.writeBytes]
  | cons b bs ih =>
    simp only [List.length_cons] at ha
    simp only [Memory.writeBytes]
    rw [ih (Memory.write_wf b hm (by omega)) (by omega), Memory.read_write hm]
    by_cases h1 : a + 1 ≤ x
    · rw [if_pos h1, if_neg (show ¬x = a by omega), if_pos (show a ≤ x by omega)]
      obtain ⟨d, rfl⟩ := Nat.exists_eq_add_of_le h1
      have e1 : a + 1 + d - (a + 1) = d := by omega
      have e2 : a + 1 + d - a = d + 1 := by omega
      rw [e1, e2, List.getElem?_cons_succ]
    · rw [if_neg h1]
      by_cases h2 : x = a
      · subst x
        simp
      · rw [if_neg h2, if_neg (show ¬a ≤ x by omega)]

theorem Memory.readBytes_writeBytes {m : Memory} {a : Nat} {bs : List Byte} (hm : m.wf = true) (ha : a + bs.length ≤ 2 ^ 64) :
    (m.writeBytes a bs).readBytes a bs.length = bs := by
  apply List.ext_getElem?
  intro i
  rw [Memory.readBytes_getElem?]
  by_cases h : i < bs.length
  · rw [if_pos h, Memory.read_writeBytes hm ha, if_pos (by omega), Nat.add_sub_cancel_left, List.getElem?_eq_getElem h]
    rfl
  · rw [if_neg h, List.getElem?_eq_none (by omega)]

theorem Memory.read_writeBytes_outside {m : Memory} {a : Nat} {bs : List Byte} (hm : m.wf = true) (ha : a + bs.length ≤ 2 ^ 64)
    {x : Nat} (hx : x < a ∨ a + bs.length ≤ x) : (m.writeBytes a bs).read x = m.read x := by
  rw [Memory.read_writeBytes hm ha]
  by_cases h : a ≤ x
  · rw [if_pos h, List.getElem?_eq_none (by omega)]
    rfl
  · rw [if_neg h]

/-! Little-endian numbers (R41, R42). -/

theorem leBytes_length (n v : Nat) : (leBytes n v).length = n := by
  induction n generalizing v with
  | zero => rfl
  | succ n ih => simp [leBytes, ih]

theorem leValue_leBytes (n v : Nat) : leValue (leBytes n v) = v % 256 ^ n := by
  induction n generalizing v with
  | zero => simp [leBytes, leValue, Nat.mod_one]
  | succ n ih =>
    simp only [leBytes, leValue, ih, BitVec.toNat_ofNat]
    rw [show (256 : Nat) ^ (n + 1) = 256 * 256 ^ n from by rw [Nat.pow_succ, Nat.mul_comm], Nat.mod_mul]
    omega

theorem leValue_lt (bs : List Byte) : leValue bs < 256 ^ bs.length := by
  induction bs with
  | nil => simp [leValue]
  | cons b bs ih =>
    have hb := b.isLt
    simp only [leValue, List.length_cons, Nat.pow_succ]
    omega

/-- Byte i of `LE(v)` is `(v div 256^i) mod 256` (R42, R165). -/
theorem leBytes_getElem? (n v i : Nat) :
    (leBytes n v)[i]? = if i < n then some (BitVec.ofNat 8 (v / 256 ^ i % 256)) else none := by
  induction n generalizing v i with
  | zero => simp [leBytes]
  | succ n ih =>
    cases i with
    | zero => simp [leBytes]
    | succ i =>
      simp only [leBytes, List.getElem?_cons_succ, ih, Nat.div_div_eq_div_mul]
      simp [Nat.pow_succ, Nat.mul_comm]

theorem Memory.memRead_one (m : Memory) (a : Nat) : m.memRead a 1 = (m.read a).toNat := by
  simp [Memory.memRead, Memory.readBytes, leValue]

theorem Memory.memWrite_one (m : Memory) (a v : Nat) : m.memWrite a 1 v = m.write a (BitVec.ofNat 8 (v % 256)) := by
  simp [Memory.memWrite, leBytes, Memory.writeBytes]

/-- `MemRead` is the sum of `M[a+i] · 256^i` (R41), one term at a time. -/
theorem Memory.memRead_succ (m : Memory) (a n : Nat) :
    m.memRead a (n + 1) = (m.read a).toNat + 256 * m.memRead (a + 1) n := rfl

/-! Bits of a byte (R44, R45). -/

theorem bit_lt (v k : Nat) : bit v k < 2 := Nat.mod_lt _ (by decide)

/-- One bit of a byte replaced, the other seven kept, checked for every byte, bit number and bit value (R45). -/
theorem replaceBit_table : ∀ old < 256, ∀ k < 8, ∀ b < 2,
    old - bit old k * 2 ^ k + b * 2 ^ k < 256 ∧
    ∀ j < 8, bit (old - bit old k * 2 ^ k + b * 2 ^ k) j = if j = k then b else bit old j := by
  decide +kernel

theorem Memory.getBit_eq (m : Memory) (base p : Nat) : m.getBit base p = bit (m.read (base + p / 8)).toNat (p % 8) := by
  simp [Memory.getBit, Memory.memRead_one]

theorem Memory.getBit_lt (m : Memory) (base p : Nat) : m.getBit base p < 2 := bit_lt _ _

theorem Memory.setBit_eq (m : Memory) (base p b : Nat) (hb : b < 2) :
    m.setBit base p b = m.write (base + p / 8) (BitVec.ofNat 8
      ((m.read (base + p / 8)).toNat - bit (m.read (base + p / 8)).toNat (p % 8) * 2 ^ (p % 8) + b * 2 ^ (p % 8))) := by
  have h := (replaceBit_table _ (m.read (base + p / 8)).isLt (p % 8) (Nat.mod_lt _ (by decide)) b hb).1
  simp only [Memory.setBit, Memory.memRead_one, Memory.memWrite_one, Nat.mod_eq_of_lt h]

theorem Memory.setBit_wf {m : Memory} {base p b : Nat} (hm : m.wf = true) (ha : base + p / 8 < 2 ^ 64) (hb : b < 2) :
    (m.setBit base p b).wf = true := by
  rw [Memory.setBit_eq m base p b hb]
  exact Memory.write_wf _ hm ha

/-- "It changes bit p mod 8 of that byte to b and leaves the other seven bits of the byte, and every other byte, as they were"
(R45): bits of the same buffer. -/
theorem Memory.getBit_setBit {m : Memory} (hm : m.wf = true) (base p b q : Nat) (hb : b < 2) :
    (m.setBit base p b).getBit base q = if q = p then b else m.getBit base q := by
  have h := replaceBit_table _ (m.read (base + p / 8)).isLt (p % 8) (Nat.mod_lt _ (by decide)) b hb
  rw [Memory.setBit_eq m base p b hb, Memory.getBit_eq, Memory.read_write hm, Memory.getBit_eq]
  by_cases hq : base + q / 8 = base + p / 8
  · rw [if_pos hq, BitVec.toNat_ofNat, Nat.mod_eq_of_lt h.1, h.2 (q % 8) (Nat.mod_lt _ (by decide)), hq]
    by_cases hp : q = p
    · simp [hp]
    · rw [if_neg hp, if_neg (by omega)]
  · rw [if_neg hq, if_neg (fun e => hq (by rw [e]))]

/-- SetBit leaves every other byte as it was (R45). -/
theorem Memory.read_setBit_other {m : Memory} (hm : m.wf = true) {base p b x : Nat} (hb : b < 2) (hx : x ≠ base + p / 8) :
    (m.setBit base p b).read x = m.read x := by
  rw [Memory.setBit_eq m base p b hb, Memory.read_write hm, if_neg hx]

/-- A byte is the sum of its eight bits. -/
theorem byte_sum_bits_table : ∀ a < 256,
    a = bit a 0 + 2 * bit a 1 + 4 * bit a 2 + 8 * bit a 3 + 16 * bit a 4 + 32 * bit a 5 + 64 * bit a 6 + 128 * bit a 7 := by
  decide +kernel

theorem byte_ext_bits {a b : Nat} (ha : a < 256) (hb : b < 256) (h : ∀ j < 8, bit a j = bit b j) : a = b := by
  rw [byte_sum_bits_table a ha, byte_sum_bits_table b hb, h 0 (by decide), h 1 (by decide), h 2 (by decide), h 3 (by decide),
    h 4 (by decide), h 5 (by decide), h 6 (by decide), h 7 (by decide)]

theorem Memory.read_ext_bits {m n : Memory} {base x : Nat} (h : ∀ j, j < 8 → m.getBit base (8 * x + j) = n.getBit base (8 * x + j)) :
    m.read (base + x) = n.read (base + x) := by
  apply BitVec.eq_of_toNat_eq
  refine byte_ext_bits (BitVec.isLt _) (BitVec.isLt _) fun j hj => ?_
  have := h j hj
  rwa [Memory.getBit_eq, Memory.getBit_eq, show (8 * x + j) / 8 = x by omega, show (8 * x + j) % 8 = j by omega] at this

theorem Memory.getBit_congr {m n : Memory} {base p : Nat} (h : m.read (base + p / 8) = n.read (base + p / 8)) :
    m.getBit base p = n.getBit base p := by
  rw [Memory.getBit_eq, Memory.getBit_eq, h]

end Sys2Proof.Machine
end

