-- ==== Sys2Proof/Laws/State.lean ====
section
/-! SUPPORT. One lemma per field and update of the state, each true by rfl, and the fields the derived views read. -/

namespace Sys2Proof.Machine

variable (s : State)

/-! Fields after `setRoot`: `ROOT <- t`. -/

@[simp] theorem State.setRoot_root (t : Option TreeNode) : (s.setRoot t).root = t := rfl
@[simp] theorem State.setRoot_cause (t : Option TreeNode) : (s.setRoot t).cause = s.cause := rfl
@[simp] theorem State.setRoot_srcAddr (t : Option TreeNode) : (s.setRoot t).srcAddr = s.srcAddr := rfl
@[simp] theorem State.setRoot_srcLen (t : Option TreeNode) : (s.setRoot t).srcLen = s.srcLen := rfl
@[simp] theorem State.setRoot_dstAddr (t : Option TreeNode) : (s.setRoot t).dstAddr = s.dstAddr := rfl
@[simp] theorem State.setRoot_dstLen (t : Option TreeNode) : (s.setRoot t).dstLen = s.dstLen := rfl
@[simp] theorem State.setRoot_bitOffset (t : Option TreeNode) : (s.setRoot t).bitOffset = s.bitOffset := rfl
@[simp] theorem State.setRoot_endBitOffset (t : Option TreeNode) : (s.setRoot t).endBitOffset = s.endBitOffset := rfl
@[simp] theorem State.setRoot_res0 (t : Option TreeNode) : (s.setRoot t).res0 = s.res0 := rfl
@[simp] theorem State.setRoot_res1 (t : Option TreeNode) : (s.setRoot t).res1 = s.res1 := rfl
@[simp] theorem State.setRoot_mem (t : Option TreeNode) : (s.setRoot t).mem = s.mem := rfl
@[simp] theorem State.setRoot_pending (t : Option TreeNode) : (s.setRoot t).pending = s.pending := rfl
@[simp] theorem State.setRoot_replies (t : Option TreeNode) : (s.setRoot t).replies = s.replies := rfl
@[simp] theorem State.setRoot_platform (t : Option TreeNode) : (s.setRoot t).platform = s.platform := rfl

/-! Fields after `setMem`: the memory after a command. -/

@[simp] theorem State.setMem_root (m : Memory) : (s.setMem m).root = s.root := rfl
@[simp] theorem State.setMem_cause (m : Memory) : (s.setMem m).cause = s.cause := rfl
@[simp] theorem State.setMem_srcAddr (m : Memory) : (s.setMem m).srcAddr = s.srcAddr := rfl
@[simp] theorem State.setMem_srcLen (m : Memory) : (s.setMem m).srcLen = s.srcLen := rfl
@[simp] theorem State.setMem_dstAddr (m : Memory) : (s.setMem m).dstAddr = s.dstAddr := rfl
@[simp] theorem State.setMem_dstLen (m : Memory) : (s.setMem m).dstLen = s.dstLen := rfl
@[simp] theorem State.setMem_bitOffset (m : Memory) : (s.setMem m).bitOffset = s.bitOffset := rfl
@[simp] theorem State.setMem_endBitOffset (m : Memory) : (s.setMem m).endBitOffset = s.endBitOffset := rfl
@[simp] theorem State.setMem_res0 (m : Memory) : (s.setMem m).res0 = s.res0 := rfl
@[simp] theorem State.setMem_res1 (m : Memory) : (s.setMem m).res1 = s.res1 := rfl
@[simp] theorem State.setMem_mem (m : Memory) : (s.setMem m).mem = m := rfl
@[simp] theorem State.setMem_pending (m : Memory) : (s.setMem m).pending = s.pending := rfl
@[simp] theorem State.setMem_replies (m : Memory) : (s.setMem m).replies = s.replies := rfl
@[simp] theorem State.setMem_platform (m : Memory) : (s.setMem m).platform = s.platform := rfl

/-! Fields after `reply`: a value returned to the host. -/

@[simp] theorem State.reply_root (v : Word) : (s.reply v).root = s.root := rfl
@[simp] theorem State.reply_cause (v : Word) : (s.reply v).cause = s.cause := rfl
@[simp] theorem State.reply_srcAddr (v : Word) : (s.reply v).srcAddr = s.srcAddr := rfl
@[simp] theorem State.reply_srcLen (v : Word) : (s.reply v).srcLen = s.srcLen := rfl
@[simp] theorem State.reply_dstAddr (v : Word) : (s.reply v).dstAddr = s.dstAddr := rfl
@[simp] theorem State.reply_dstLen (v : Word) : (s.reply v).dstLen = s.dstLen := rfl
@[simp] theorem State.reply_bitOffset (v : Word) : (s.reply v).bitOffset = s.bitOffset := rfl
@[simp] theorem State.reply_endBitOffset (v : Word) : (s.reply v).endBitOffset = s.endBitOffset := rfl
@[simp] theorem State.reply_res0 (v : Word) : (s.reply v).res0 = s.res0 := rfl
@[simp] theorem State.reply_res1 (v : Word) : (s.reply v).res1 = s.res1 := rfl
@[simp] theorem State.reply_mem (v : Word) : (s.reply v).mem = s.mem := rfl
@[simp] theorem State.reply_pending (v : Word) : (s.reply v).pending = s.pending := rfl
@[simp] theorem State.reply_replies (v : Word) : (s.reply v).replies = s.replies ++ [v] := rfl
@[simp] theorem State.reply_platform (v : Word) : (s.reply v).platform = s.platform := rfl

/-! Fields after `setPending`: the host's actions still to come. -/

@[simp] theorem State.setPending_root (p : List HostAction) : (s.setPending p).root = s.root := rfl
@[simp] theorem State.setPending_cause (p : List HostAction) : (s.setPending p).cause = s.cause := rfl
@[simp] theorem State.setPending_srcAddr (p : List HostAction) : (s.setPending p).srcAddr = s.srcAddr := rfl
@[simp] theorem State.setPending_srcLen (p : List HostAction) : (s.setPending p).srcLen = s.srcLen := rfl
@[simp] theorem State.setPending_dstAddr (p : List HostAction) : (s.setPending p).dstAddr = s.dstAddr := rfl
@[simp] theorem State.setPending_dstLen (p : List HostAction) : (s.setPending p).dstLen = s.dstLen := rfl
@[simp] theorem State.setPending_bitOffset (p : List HostAction) : (s.setPending p).bitOffset = s.bitOffset := rfl
@[simp] theorem State.setPending_endBitOffset (p : List HostAction) : (s.setPending p).endBitOffset = s.endBitOffset := rfl
@[simp] theorem State.setPending_res0 (p : List HostAction) : (s.setPending p).res0 = s.res0 := rfl
@[simp] theorem State.setPending_res1 (p : List HostAction) : (s.setPending p).res1 = s.res1 := rfl
@[simp] theorem State.setPending_mem (p : List HostAction) : (s.setPending p).mem = s.mem := rfl
@[simp] theorem State.setPending_pending (p : List HostAction) : (s.setPending p).pending = p := rfl
@[simp] theorem State.setPending_replies (p : List HostAction) : (s.setPending p).replies = s.replies := rfl
@[simp] theorem State.setPending_platform (p : List HostAction) : (s.setPending p).platform = s.platform := rfl

/-! Fields after `finish`: the end of a command. -/

@[simp] theorem State.finish_root (c : Cause) (r0 r1 : Nat) : (s.finish c r0 r1).root = s.root := rfl
@[simp] theorem State.finish_cause (c : Cause) (r0 r1 : Nat) : (s.finish c r0 r1).cause = c := rfl
@[simp] theorem State.finish_srcAddr (c : Cause) (r0 r1 : Nat) : (s.finish c r0 r1).srcAddr = s.srcAddr := rfl
@[simp] theorem State.finish_srcLen (c : Cause) (r0 r1 : Nat) : (s.finish c r0 r1).srcLen = s.srcLen := rfl
@[simp] theorem State.finish_dstAddr (c : Cause) (r0 r1 : Nat) : (s.finish c r0 r1).dstAddr = s.dstAddr := rfl
@[simp] theorem State.finish_dstLen (c : Cause) (r0 r1 : Nat) : (s.finish c r0 r1).dstLen = s.dstLen := rfl
@[simp] theorem State.finish_bitOffset (c : Cause) (r0 r1 : Nat) : (s.finish c r0 r1).bitOffset = s.bitOffset := rfl
@[simp] theorem State.finish_endBitOffset (c : Cause) (r0 r1 : Nat) : (s.finish c r0 r1).endBitOffset = s.endBitOffset := rfl
@[simp] theorem State.finish_res0 (c : Cause) (r0 r1 : Nat) : (s.finish c r0 r1).res0 = BitVec.ofNat 64 r0 := rfl
@[simp] theorem State.finish_res1 (c : Cause) (r0 r1 : Nat) : (s.finish c r0 r1).res1 = BitVec.ofNat 64 r1 := rfl
@[simp] theorem State.finish_mem (c : Cause) (r0 r1 : Nat) : (s.finish c r0 r1).mem = s.mem := rfl
@[simp] theorem State.finish_pending (c : Cause) (r0 r1 : Nat) : (s.finish c r0 r1).pending = s.pending := rfl
@[simp] theorem State.finish_replies (c : Cause) (r0 r1 : Nat) : (s.finish c r0 r1).replies = s.replies := rfl
@[simp] theorem State.finish_platform (c : Cause) (r0 r1 : Nat) : (s.finish c r0 r1).platform = s.platform := rfl

/-! Fields after `blockReset`: reset. -/

@[simp] theorem State.blockReset_root : s.blockReset.root = none := rfl
@[simp] theorem State.blockReset_cause : s.blockReset.cause = .ok := rfl
@[simp] theorem State.blockReset_srcAddr : s.blockReset.srcAddr = 0 := rfl
@[simp] theorem State.blockReset_srcLen : s.blockReset.srcLen = 0 := rfl
@[simp] theorem State.blockReset_dstAddr : s.blockReset.dstAddr = 0 := rfl
@[simp] theorem State.blockReset_dstLen : s.blockReset.dstLen = 0 := rfl
@[simp] theorem State.blockReset_bitOffset : s.blockReset.bitOffset = 0 := rfl
@[simp] theorem State.blockReset_endBitOffset : s.blockReset.endBitOffset = 0 := rfl
@[simp] theorem State.blockReset_res0 : s.blockReset.res0 = 0 := rfl
@[simp] theorem State.blockReset_res1 : s.blockReset.res1 = 0 := rfl
@[simp] theorem State.blockReset_mem : s.blockReset.mem = s.mem := rfl
@[simp] theorem State.blockReset_pending : s.blockReset.pending = s.pending := rfl
@[simp] theorem State.blockReset_replies : s.blockReset.replies = s.replies := rfl
@[simp] theorem State.blockReset_platform : s.blockReset.platform = s.platform := rfl

/-! The views that read other fields only. -/

@[simp] theorem State.setRoot_srcRegion (t : Option TreeNode) : (s.setRoot t).srcRegion = s.srcRegion := rfl
@[simp] theorem State.setRoot_dstRegion (t : Option TreeNode) : (s.setRoot t).dstRegion = s.dstRegion := rfl
@[simp] theorem State.setRoot_srcProblem (t : Option TreeNode) : (s.setRoot t).srcProblem = s.srcProblem := rfl
@[simp] theorem State.setRoot_dstProblem (t : Option TreeNode) : (s.setRoot t).dstProblem = s.dstProblem := rfl
@[simp] theorem State.setRoot_bothProblem (t : Option TreeNode) : (s.setRoot t).bothProblem = s.bothProblem := rfl
@[simp] theorem State.setRoot_clampedLen (t : Option TreeNode) : (s.setRoot t).clampedLen = s.clampedLen := rfl
@[simp] theorem State.setRoot_capacity (t : Option TreeNode) : (s.setRoot t).capacity = s.capacity := rfl
@[simp] theorem State.setRoot_endOfBits (t : Option TreeNode) : (s.setRoot t).endOfBits = s.endOfBits := rfl
@[simp] theorem State.setMem_srcRegion (m : Memory) : (s.setMem m).srcRegion = s.srcRegion := rfl
@[simp] theorem State.setMem_dstRegion (m : Memory) : (s.setMem m).dstRegion = s.dstRegion := rfl
@[simp] theorem State.setMem_srcProblem (m : Memory) : (s.setMem m).srcProblem = s.srcProblem := rfl
@[simp] theorem State.setMem_dstProblem (m : Memory) : (s.setMem m).dstProblem = s.dstProblem := rfl
@[simp] theorem State.setMem_bothProblem (m : Memory) : (s.setMem m).bothProblem = s.bothProblem := rfl
@[simp] theorem State.setMem_clampedLen (m : Memory) : (s.setMem m).clampedLen = s.clampedLen := rfl
@[simp] theorem State.setMem_capacity (m : Memory) : (s.setMem m).capacity = s.capacity := rfl
@[simp] theorem State.setMem_endOfBits (m : Memory) : (s.setMem m).endOfBits = s.endOfBits := rfl
@[simp] theorem State.reply_srcRegion (v : Word) : (s.reply v).srcRegion = s.srcRegion := rfl
@[simp] theorem State.reply_dstRegion (v : Word) : (s.reply v).dstRegion = s.dstRegion := rfl
@[simp] theorem State.reply_srcProblem (v : Word) : (s.reply v).srcProblem = s.srcProblem := rfl
@[simp] theorem State.reply_dstProblem (v : Word) : (s.reply v).dstProblem = s.dstProblem := rfl
@[simp] theorem State.reply_bothProblem (v : Word) : (s.reply v).bothProblem = s.bothProblem := rfl
@[simp] theorem State.reply_clampedLen (v : Word) : (s.reply v).clampedLen = s.clampedLen := rfl
@[simp] theorem State.reply_capacity (v : Word) : (s.reply v).capacity = s.capacity := rfl
@[simp] theorem State.reply_endOfBits (v : Word) : (s.reply v).endOfBits = s.endOfBits := rfl
@[simp] theorem State.setPending_srcRegion (p : List HostAction) : (s.setPending p).srcRegion = s.srcRegion := rfl
@[simp] theorem State.setPending_dstRegion (p : List HostAction) : (s.setPending p).dstRegion = s.dstRegion := rfl
@[simp] theorem State.setPending_srcProblem (p : List HostAction) : (s.setPending p).srcProblem = s.srcProblem := rfl
@[simp] theorem State.setPending_dstProblem (p : List HostAction) : (s.setPending p).dstProblem = s.dstProblem := rfl
@[simp] theorem State.setPending_bothProblem (p : List HostAction) : (s.setPending p).bothProblem = s.bothProblem := rfl
@[simp] theorem State.setPending_clampedLen (p : List HostAction) : (s.setPending p).clampedLen = s.clampedLen := rfl
@[simp] theorem State.setPending_capacity (p : List HostAction) : (s.setPending p).capacity = s.capacity := rfl
@[simp] theorem State.setPending_endOfBits (p : List HostAction) : (s.setPending p).endOfBits = s.endOfBits := rfl
@[simp] theorem State.finish_srcRegion (c : Cause) (r0 r1 : Nat) : (s.finish c r0 r1).srcRegion = s.srcRegion := rfl
@[simp] theorem State.finish_dstRegion (c : Cause) (r0 r1 : Nat) : (s.finish c r0 r1).dstRegion = s.dstRegion := rfl
@[simp] theorem State.finish_srcProblem (c : Cause) (r0 r1 : Nat) : (s.finish c r0 r1).srcProblem = s.srcProblem := rfl
@[simp] theorem State.finish_dstProblem (c : Cause) (r0 r1 : Nat) : (s.finish c r0 r1).dstProblem = s.dstProblem := rfl
@[simp] theorem State.finish_bothProblem (c : Cause) (r0 r1 : Nat) : (s.finish c r0 r1).bothProblem = s.bothProblem := rfl
@[simp] theorem State.finish_clampedLen (c : Cause) (r0 r1 : Nat) : (s.finish c r0 r1).clampedLen = s.clampedLen := rfl
@[simp] theorem State.finish_capacity (c : Cause) (r0 r1 : Nat) : (s.finish c r0 r1).capacity = s.capacity := rfl
@[simp] theorem State.finish_endOfBits (c : Cause) (r0 r1 : Nat) : (s.finish c r0 r1).endOfBits = s.endOfBits := rfl

@[simp] theorem State.setRoot_size (t : Option TreeNode) : (s.setRoot t).size = dictSize t := rfl
@[simp] theorem State.setMem_size (m : Memory) : (s.setMem m).size = s.size := rfl
@[simp] theorem State.reply_size (v : Word) : (s.reply v).size = s.size := rfl
@[simp] theorem State.setPending_size (p : List HostAction) : (s.setPending p).size = s.size := rfl
@[simp] theorem State.finish_size (c : Cause) (r0 r1 : Nat) : (s.finish c r0 r1).size = s.size := rfl
@[simp] theorem State.finish_status (c : Cause) (r0 r1 : Nat) : (s.finish c r0 r1).status = BitVec.ofNat 64 c.code := rfl

end Sys2Proof.Machine
end

