-- ==== Sys2Proof/Laws/Regions.lean ====
section
/-! SUPPORT. The memory phase: the model's test of intervals says exactly what R49 says address by address. -/

namespace Sys2Proof.Machine

theorem meets_eq_true {r q : Region} : meets r q = true ↔ ∃ i, i < r.len ∧ ∃ j, j < q.len ∧ r.base + i = q.base + j := by
  simp only [meets, Bool.and_eq_true, decide_eq_true_eq]
  constructor
  · rintro ⟨⟨⟨hr, hq⟩, h1⟩, h2⟩
    rcases Nat.le_total r.base q.base with h | h
    · exact ⟨q.base - r.base, by omega, 0, by omega, by omega⟩
    · exact ⟨0, by omega, r.base - q.base, by omega, by omega⟩
  · rintro ⟨i, hi, j, hj, e⟩
    omega

theorem meets_eq_false {r q : Region} : meets r q = false ↔ disjoint r q := by
  rw [← Bool.not_eq_true, meets_eq_true]
  exact ⟨fun h i hi j hj e => h ⟨i, hi, j, hj, e⟩, fun h ⟨i, hi, j, hj, e⟩ => h i hi j hj e⟩

theorem accessible_eq_true {c : Config} {a : Nat} :
    accessible c a = true ↔ ∀ h ∈ c.unreachable, ¬(h.base ≤ a ∧ a < h.base + h.len) := by
  simp only [accessible, List.all_eq_true, Bool.not_eq_true', Bool.and_eq_false_iff, decide_eq_false_iff_not]
  exact forall₂_congr fun h _ => by omega

/-- No unreachable range meets the region exactly when every address of the region is accessible. -/
theorem unreachable_meets {c : Config} {r : Region} :
    c.unreachable.any (meets r) = false ↔ ∀ i, i < r.len → accessible c (r.base + i) = true := by
  rw [List.any_eq_false]
  constructor
  · intro h i hi
    rw [accessible_eq_true]
    rintro g hg ⟨h1, h2⟩
    exact h g hg (meets_eq_true.mpr ⟨i, hi, r.base + i - g.base, by omega, by omega⟩)
  · intro h g hg hm
    obtain ⟨i, hi, j, hj, e⟩ := meets_eq_true.mp hm
    exact accessible_eq_true.mp (h i hi) g hg ⟨by omega, by omega⟩

/-- (a) and (b) of R49. -/
theorem regionProblem_eq_none {c : Config} {r : Region} : regionProblem c r = none ↔ usable c r := by
  unfold regionProblem usable
  rw [← unreachable_meets, show (2 : Nat) ^ Config.AW = 2 ^ 64 from rfl]
  split
  · constructor
    · intro h; cases h
    · rintro ⟨h, _⟩; omega
  · split
    · rename_i h
      constructor
      · intro h; cases h
      · rintro ⟨_, h'⟩; rw [h] at h'; cases h'
    · rename_i h1 h2
      exact ⟨fun _ => ⟨by omega, by simpa using h2⟩, fun _ => rfl⟩

theorem overlapProblem_eq_none {r q : Region} : overlapProblem r q = none ↔ disjoint r q := by
  rw [← meets_eq_false]
  unfold overlapProblem
  cases meets r q <;> simp

theorem State.srcProblem_eq_none {s : State} : s.srcProblem = none ↔ s.sourceUsable := regionProblem_eq_none

theorem State.dstProblem_eq_none {s : State} : s.dstProblem = none ↔ s.destUsable := regionProblem_eq_none

theorem State.bothProblem_eq_none {s : State} : s.bothProblem = none ↔ s.buffersUsable := by
  unfold State.bothProblem State.buffersUsable
  rw [Option.or_eq_none_iff, Option.or_eq_none_iff, State.srcProblem_eq_none, State.dstProblem_eq_none, overlapProblem_eq_none,
    and_assoc]

/-- A region problem is one of the three refusals of R49, never another. -/
theorem State.bothProblem_cases {s : State} {r : Refusal} (h : s.bothProblem = some r) :
    r = .regionWraps ∨ r = .regionNotAccessible ∨ r = .regionsOverlap := by
  have key : ∀ (c : Config) (q : Region), regionProblem c q = some r → r = .regionWraps ∨ r = .regionNotAccessible := by
    intro c q hq
    unfold regionProblem at hq
    split at hq
    · cases hq; exact .inl rfl
    · split at hq <;> cases hq
      exact .inr rfl
  unfold State.bothProblem at h
  rw [Option.or_eq_some_iff, Option.or_eq_some_iff] at h
  rcases h with (h | ⟨_, h⟩) | ⟨_, h⟩
  · exact (key _ _ h).imp id .inl
  · exact (key _ _ h).imp id .inl
  · unfold overlapProblem at h
    split at h <;> cases h
    exact .inr (.inr rfl)

/-! What a memory phase answers. -/

theorem memoryPhase_eq_next {p : Option Refusal} {g t : State} :
    memoryPhase p g = .next t ↔ p = none ∧ t = g := by
  cases p with
  | none => simp [memoryPhase, eq_comm]
  | some r => simp [memoryPhase]

theorem memoryPhase_none {p : Option Refusal} (h : p = none) (g : State) : memoryPhase p g = .next g := by
  rw [h]; rfl

theorem memoryPhase_eq_refused {p : Option Refusal} {g : State} {r : Refusal} :
    memoryPhase p g = .refused r ↔ p = some r := by
  cases p <;> simp [memoryPhase]

/-- The source region of a command that may use it lies inside the address space. -/
theorem State.sourceUsable.bound {s : State} (h : s.sourceUsable) {i : Nat} (hi : i < s.srcLen.toNat) :
    s.srcAddr.toNat + i < 2 ^ 64 := by
  have := h.1
  simp only [State.srcRegion] at this
  omega

theorem State.destUsable.bound {s : State} (h : s.destUsable) {i : Nat} (hi : i < s.dstLen.toNat) :
    s.dstAddr.toNat + i < 2 ^ 64 := by
  have := h.1
  simp only [State.dstRegion] at this
  omega

end Sys2Proof.Machine
end

