-- ==== Sys2Proof/Laws/Encoder.lean ====
section
/-! SUPPORT. The Stream Encoder: the packing loop writes a prefix of the code stream, the longest that fits, and no other bit
(R123 to R127, R130, R131). -/

namespace Sys2Proof.Machine

/-! The first pass (R123). -/

theorem symbolProblem_none {table : CodeTable} {bs : List Byte} :
    symbolProblem table bs = none ↔ ∀ b ∈ bs, (table.entry b).isCode = true := by
  induction bs with
  | nil => simp [symbolProblem]
  | cons b bs ih =>
    simp only [symbolProblem, List.forall_mem_cons]
    cases h : table.entry b <;> simp [CodeEntry.isCode, ih]

/-- The first byte without a code names the cause (R123, R184). -/
theorem symbolProblem_some {table : CodeTable} {bs : List Byte} {c : Cause} :
    symbolProblem table bs = some c ↔ ∃ front b back, bs = front ++ b :: back ∧ (∀ x ∈ front, (table.entry x).isCode = true) ∧
      ((table.entry b = .absent ∧ c = .unknownSymbol) ∨ ((∃ d, table.entry b = .wide d) ∧ c = .codeWidth)) := by
  induction bs with
  | nil => simp [symbolProblem]
  | cons a bs ih =>
    simp only [symbolProblem]
    cases h : table.entry a with
    | absent =>
      constructor
      · intro e
        cases e
        exact ⟨[], a, bs, rfl, by simp, .inl ⟨h, rfl⟩⟩
      · rintro ⟨front, b, back, e, hf, hb⟩
        cases front with
        | nil =>
          simp only [List.nil_append, List.cons.injEq] at e
          obtain ⟨rfl, rfl⟩ := e
          rcases hb with ⟨-, rfl⟩ | ⟨⟨d, hd⟩, -⟩
          · rfl
          · rw [h] at hd; cases hd
        | cons x front =>
          simp only [List.cons_append, List.cons.injEq] at e
          obtain ⟨rfl, rfl⟩ := e
          have := hf a List.mem_cons_self
          simp [h, CodeEntry.isCode] at this
    | wide d =>
      constructor
      · intro e
        cases e
        exact ⟨[], a, bs, rfl, by simp, .inr ⟨⟨d, h⟩, rfl⟩⟩
      · rintro ⟨front, b, back, e, hf, hb⟩
        cases front with
        | nil =>
          simp only [List.nil_append, List.cons.injEq] at e
          obtain ⟨rfl, rfl⟩ := e
          rcases hb with ⟨hd, -⟩ | ⟨-, rfl⟩
          · rw [h] at hd; cases hd
          · rfl
        | cons x front =>
          simp only [List.cons_append, List.cons.injEq] at e
          obtain ⟨rfl, rfl⟩ := e
          have := hf a List.mem_cons_self
          simp [h, CodeEntry.isCode] at this
    | code pat len =>
      simp only
      rw [ih]
      constructor
      · rintro ⟨front, b, back, rfl, hf, hb⟩
        refine ⟨a :: front, b, back, rfl, ?_, hb⟩
        intro x hx
        rcases List.mem_cons.mp hx with rfl | hx
        · simp [h, CodeEntry.isCode]
        · exact hf x hx
      · rintro ⟨front, b, back, e, hf, hb⟩
        cases front with
        | nil =>
          simp only [List.nil_append, List.cons.injEq] at e
          obtain ⟨rfl, rfl⟩ := e
          rcases hb with ⟨hd, -⟩ | ⟨⟨d, hd⟩, -⟩
          · rw [h] at hd; cases hd
          · rw [h] at hd; cases hd
        | cons x front =>
          simp only [List.cons_append, List.cons.injEq] at e
          obtain ⟨rfl, rfl⟩ := e
          exact ⟨front, b, back, rfl, fun x hx => hf x (List.mem_cons_of_mem _ hx), hb⟩

/-! Writing a stream of bits. -/

/-- SetBit of each bit of a list at ascending positions. -/
def putStream (dst : Nat) : Nat → List Nat → Memory → Memory
  | _, [], m => m
  | pos, e :: es, m => putStream dst (pos + 1) es (m.setBit dst pos e)

theorem putStream_append (dst pos : Nat) (a b : List Nat) (m : Memory) :
    putStream dst pos (a ++ b) m = putStream dst (pos + a.length) b (putStream dst pos a m) := by
  induction a generalizing pos m with
  | nil => rfl
  | cons e es ih =>
    rw [List.cons_append, putStream, ih, putStream, List.length_cons, Nat.add_assoc, Nat.add_comm 1]

theorem putCode_eq (dst pos pat len : Nat) (m : Memory) : putCode dst pos pat len m = putStream dst pos (patternBits pat len) m := by
  induction len generalizing m with
  | zero => rfl
  | succ k ih => rw [putCode, ih, patternBits_succ, putStream_append, patternBits_length]; rfl

/-- The positions of a stream lie at addresses of the address space. -/
def inSpace (dst pos n : Nat) : Prop :=
  ∀ k, k < n → dst + (pos + k) / 8 < 2 ^ 64

theorem inSpace_cons {dst pos n : Nat} (h : inSpace dst pos (n + 1)) : dst + pos / 8 < 2 ^ 64 ∧ inSpace dst (pos + 1) n := by
  refine ⟨by simpa using h 0 (Nat.succ_pos n), fun k hk => ?_⟩
  have := h (k + 1) (by omega)
  rwa [show pos + (k + 1) = pos + 1 + k by omega] at this

theorem putStream_wf {dst pos : Nat} {es : List Nat} {m : Memory} (hm : m.wf = true) (hb : isBits es)
    (hs : inSpace dst pos es.length) : (putStream dst pos es m).wf = true := by
  induction es generalizing pos m with
  | nil => exact hm
  | cons e es ih =>
    obtain ⟨h1, h2⟩ := inSpace_cons hs
    exact ih (Memory.setBit_wf hm h1 (hb e List.mem_cons_self)) (fun x hx => hb x (List.mem_cons_of_mem _ hx)) h2

/-- The bits of the buffer after a stream: those of the stream in its range, the old ones elsewhere (R126). -/
theorem getBit_putStream {dst pos : Nat} {es : List Nat} {m : Memory} (hm : m.wf = true) (hb : isBits es)
    (hs : inSpace dst pos es.length) (q : Nat) :
    (putStream dst pos es m).getBit dst q = if pos ≤ q then (es[q - pos]?).getD (m.getBit dst q) else m.getBit dst q := by
  induction es generalizing pos m with
  | nil => simp [putStream]
  | cons e es ih =>
    obtain ⟨h1, h2⟩ := inSpace_cons hs
    have he := hb e List.mem_cons_self
    rw [putStream, ih (Memory.setBit_wf hm h1 he) (fun x hx => hb x (List.mem_cons_of_mem _ hx)) h2, Memory.getBit_setBit hm _ _ _ _ he]
    rcases Nat.lt_trichotomy q pos with h | h | h
    · rw [if_neg (show ¬pos + 1 ≤ q by omega), if_neg (show ¬q = pos by omega), if_neg (show ¬pos ≤ q by omega)]
    · subst h
      simp
    · rw [if_pos (show pos + 1 ≤ q by omega), if_neg (show ¬q = pos by omega), if_pos (show pos ≤ q by omega),
        show q - pos = (q - (pos + 1)) + 1 by omega, List.getElem?_cons_succ]

theorem bitsFrom_length (m : Memory) (base p n : Nat) : (bitsFrom m base p n).length = n := by
  simp [bitsFrom]

/-- The bits written are read back (R126). -/
theorem bitsFrom_putStream {dst pos : Nat} {es : List Nat} {m : Memory} (hm : m.wf = true) (hb : isBits es)
    (hs : inSpace dst pos es.length) : bitsFrom (putStream dst pos es m) dst pos es.length = es := by
  apply List.ext_getElem?
  intro i
  simp only [bitsFrom, List.getElem?_map]
  by_cases hi : i < es.length
  · simp [hi, getBit_putStream hm hb hs]
  · simp [hi]

theorem getBit_putStream_outside {dst pos : Nat} {es : List Nat} {m : Memory} (hm : m.wf = true) (hb : isBits es)
    (hs : inSpace dst pos es.length) {q : Nat} (hq : q < pos ∨ pos + es.length ≤ q) :
    (putStream dst pos es m).getBit dst q = m.getBit dst q := by
  rw [getBit_putStream hm hb hs]
  by_cases h : pos ≤ q
  · rw [if_pos h, List.getElem?_eq_none (by omega)]
    rfl
  · rw [if_neg h]

/-- A byte that holds no position of the stream is as before (R126, R131). -/
theorem read_putStream_outside {dst pos : Nat} {es : List Nat} {m : Memory} (hm : m.wf = true) (hb : isBits es)
    (hs : inSpace dst pos es.length) {x : Nat} (hx : ∀ k, k < es.length → x ≠ dst + (pos + k) / 8) :
    (putStream dst pos es m).read x = m.read x := by
  induction es generalizing pos m with
  | nil => rfl
  | cons e es ih =>
    obtain ⟨h1, h2⟩ := inSpace_cons hs
    have he := hb e List.mem_cons_self
    rw [putStream, ih (Memory.setBit_wf hm h1 he) (fun x hx => hb x (List.mem_cons_of_mem _ hx)) h2 ?_,
      Memory.read_setBit_other hm he (by simpa using hx 0 (Nat.succ_pos _))]
    intro k hk
    have := hx (k + 1) (by simp; omega)
    rwa [show pos + (k + 1) = pos + 1 + k by omega] at this

/-! The packing loop (R125). -/

/-- How many code words of a list of bytes fit below `cap`, laid end to end from `pos` on (R125). -/
def fitCount (table : CodeTable) (cap : Nat) : Nat → List Byte → Nat
  | _, [] => 0
  | pos, b :: bs =>
    if (table.entry b).isCode = true ∧ pos + (table.entry b).bits.length ≤ cap then
      1 + fitCount table cap (pos + (table.entry b).bits.length) bs
    else 0

/-- Number of code bits of a list of bytes. -/
def streamLen (table : CodeTable) (bs : List Byte) : Nat :=
  (codeStream table bs).length

theorem codeStream_cons (table : CodeTable) (b : Byte) (bs : List Byte) :
    codeStream table (b :: bs) = (table.entry b).bits ++ codeStream table bs := rfl

theorem codeStream_append (table : CodeTable) (a b : List Byte) : codeStream table (a ++ b) = codeStream table a ++ codeStream table b := by
  simp [codeStream]

theorem streamLen_append (table : CodeTable) (a b : List Byte) : streamLen table (a ++ b) = streamLen table a + streamLen table b := by
  simp [streamLen, codeStream_append]

theorem streamLen_cons (table : CodeTable) (b : Byte) (bs : List Byte) :
    streamLen table (b :: bs) = (table.entry b).bits.length + streamLen table bs := by
  simp [streamLen, codeStream_cons]

theorem fitCount_le (table : CodeTable) (cap pos : Nat) (bs : List Byte) : fitCount table cap pos bs ≤ bs.length := by
  induction bs generalizing pos with
  | nil => exact Nat.le_refl 0
  | cons b bs ih =>
    simp only [fitCount, List.length_cons]
    split
    · have := ih (pos + (table.entry b).bits.length); omega
    · exact Nat.zero_le _

/-- What is written stays below the capacity (R124). -/
theorem fitCount_bound (table : CodeTable) (cap pos : Nat) (bs : List Byte) :
    fitCount table cap pos bs = 0 ∨ pos + streamLen table (bs.take (fitCount table cap pos bs)) ≤ cap := by
  induction bs generalizing pos with
  | nil => exact .inl rfl
  | cons b bs ih =>
    simp only [fitCount]
    split
    · rename_i h
      right
      rw [Nat.add_comm 1, List.take_succ_cons, streamLen_cons]
      rcases ih (pos + (table.entry b).bits.length) with e | e
      · rw [e]; simp [streamLen, codeStream]; exact h.2
      · omega
    · exact .inl rfl

/-- The loop stops only before a code word that does not fit (R125). -/
theorem fitCount_stop {table : CodeTable} {cap pos : Nat} {bs : List Byte} (hc : ∀ b ∈ bs, (table.entry b).isCode = true)
    {b : Byte} (hb : bs[fitCount table cap pos bs]? = some b) :
    cap < pos + streamLen table (bs.take (fitCount table cap pos bs)) + (table.entry b).bits.length := by
  induction bs generalizing pos with
  | nil => simp at hb
  | cons a bs ih =>
    simp only [fitCount] at hb ⊢
    split at hb
    · rename_i h
      rw [if_pos h]
      rw [Nat.add_comm 1] at hb ⊢
      rw [List.getElem?_cons_succ] at hb
      have := ih (fun x hx => hc x (List.mem_cons_of_mem _ hx)) hb
      rw [List.take_succ_cons, streamLen_cons]
      omega
    · rename_i h
      rw [if_neg h]
      simp only [List.getElem?_cons_zero, Option.some.injEq] at hb
      subst hb
      have := hc a List.mem_cons_self
      simp only [this, true_and] at h
      simp [streamLen, codeStream]
      omega

/-- All of it fits when the whole stream does. -/
theorem fitCount_all {table : CodeTable} {cap pos : Nat} {bs : List Byte} (hc : ∀ b ∈ bs, (table.entry b).isCode = true)
    (h : pos + streamLen table bs ≤ cap) : fitCount table cap pos bs = bs.length := by
  induction bs generalizing pos with
  | nil => rfl
  | cons b bs ih =>
    rw [streamLen_cons] at h
    rw [fitCount, if_pos ⟨hc b List.mem_cons_self, by omega⟩,
      ih (fun x hx => hc x (List.mem_cons_of_mem _ hx)) (by omega), List.length_cons, Nat.add_comm]

/-- The packing loop writes the code stream of the longest prefix that fits, when the destination positions below `cap` lie in
the address space and share no address with the source. -/
theorem packLoop_eq {table : CodeTable} {src dst cap : Nat} {left : Nat} {i pos : Nat} {m : Memory} (hm : m.wf = true)
    (hspace : ∀ p, p < cap → dst + p / 8 < 2 ^ 64) (hdis : ∀ k, k < left → ∀ p, p < cap → src + (i + k) ≠ dst + p / 8) :
    packLoop table src dst cap left ⟨i, pos, m⟩ =
      let bs := m.readBytes (src + i) left
      let k := fitCount table cap pos bs
      ⟨i + k, pos + streamLen table (bs.take k), putStream dst pos (codeStream table (bs.take k)) m⟩ := by
  induction left generalizing i pos m with
  | zero => rfl
  | succ left ih =>
    simp only [Memory.readBytes, packLoop, fitCount]
    cases he : table.entry (m.read (src + i)) with
    | absent => simp [CodeEntry.isCode, streamLen, codeStream, putStream]
    | wide d => simp [CodeEntry.isCode, streamLen, codeStream, putStream]
    | code pat len =>
      simp only [CodeEntry.isCode, CodeEntry.bits, patternBits_length, true_and]
      by_cases hcap : cap < pos + len
      · rw [if_pos hcap, if_neg (show ¬pos + len ≤ cap by omega)]
        simp [streamLen, codeStream, putStream]
      · rw [if_neg hcap, if_pos (show pos + len ≤ cap by omega)]
        have hin : inSpace dst pos (patternBits pat len).length := by
          intro k hk
          rw [patternBits_length] at hk
          exact hspace _ (by omega)
        have hm' : (putCode dst pos pat len m).wf = true := by
          rw [putCode_eq]; exact putStream_wf hm (patternBits_isBits pat len) hin
        have hsame : (putCode dst pos pat len m).readBytes (src + i + 1) left = m.readBytes (src + i + 1) left := by
          apply Memory.readBytes_congr
          intro j hj
          rw [putCode_eq]
          refine read_putStream_outside hm (patternBits_isBits pat len) hin fun k hk => ?_
          rw [patternBits_length] at hk
          have := hdis (j + 1) (by omega) (pos + k) (by omega)
          rwa [show src + (i + (j + 1)) = src + i + 1 + j by omega] at this
        rw [ih hm' fun k hk p hp => by
          have := hdis (k + 1) (by omega) p hp
          rwa [show i + (k + 1) = i + 1 + k by omega] at this]
        simp only [show src + (i + 1) = src + i + 1 by omega, hsame]
        simp only [Nat.add_comm 1, List.take_succ_cons, streamLen_cons, codeStream_cons, he, CodeEntry.bits, patternBits_length,
          putStream_append, ← putCode_eq]
        congr 1 <;> omega

/-! ENCODE past its tests. -/

theorem State.clampedLen_le (s : State) : s.clampedLen ≤ s.srcLen.toNat := Nat.min_le_left _ _

theorem State.clampedSource_eq_take (s : State) : s.clampedSource = s.source.take s.clampedLen :=
  (Memory.readBytes_take _ _ s.clampedLen_le).symm

theorem State.clampedSource_length (s : State) : s.clampedSource.length = s.clampedLen := Memory.readBytes_length _ _ _

/-- Positions below the capacity are bytes of the destination region (R124). -/
theorem State.capacity_div {s : State} {p : Nat} (h : p < s.capacity) : p / 8 < s.dstLen.toNat := by
  have : s.capacity ≤ 8 * s.dstLen.toNat := Nat.min_le_left _ _
  omega

theorem State.capacity_le (s : State) : s.capacity ≤ Config.MAXV := Nat.min_le_right _ _

/-- The bytes one ENCODE encodes (R125). -/
def State.encoded (s : State) (table : CodeTable) : List Byte :=
  s.clampedSource.take (fitCount table s.capacity s.bitOffset.toNat s.clampedSource)

theorem State.encoded_length (s : State) (table : CodeTable) :
    (s.encoded table).length = fitCount table s.capacity s.bitOffset.toNat s.clampedSource := by
  rw [State.encoded, List.length_take]
  exact Nat.min_eq_left (fitCount_le _ _ _ _)

/-- The bits one ENCODE writes lie in the destination region. -/
theorem State.encoded_bound (s : State) (table : CodeTable) {k : Nat} (hk : k < streamLen table (s.encoded table)) :
    s.bitOffset.toNat + k < s.capacity := by
  rcases fitCount_bound table s.capacity s.bitOffset.toNat s.clampedSource with h | h
  · rw [State.encoded, h] at hk
    simp [streamLen, codeStream] at hk
  · rw [← State.encoded] at h
    omega

theorem State.encoded_inSpace {s : State} (table : CodeTable) (hu : s.destUsable) :
    inSpace s.dstAddr.toNat s.bitOffset.toNat (codeStream table (s.encoded table)).length := by
  intro k hk
  exact hu.bound (State.capacity_div (s.encoded_bound table hk))

/-- ENCODE with a code for every byte (R120): all of its effect. -/
theorem encodeWith_eq {s : State} {table : CodeTable} (hm : s.mem.wf = true) (hu : s.buffersUsable)
    (hc : ∀ b ∈ s.clampedSource, (table.entry b).isCode = true) :
    encodeWith table s =
      (s.setMem (putStream s.dstAddr.toNat s.bitOffset.toNat (codeStream table (s.encoded table)) s.mem)).finish
        (packCause s (s.encoded table).length) (s.encoded table).length (s.bitOffset.toNat + streamLen table (s.encoded table)) := by
  have hp := packLoop_eq (table := table) (src := s.srcAddr.toNat) (dst := s.dstAddr.toNat) (cap := s.capacity) (left := s.clampedLen)
    (i := 0) (pos := s.bitOffset.toNat) hm (fun p hp => hu.2.1.bound (State.capacity_div hp)) (by
      intro k hk p hp e
      refine hu.2.2 k ?_ (p / 8) (State.capacity_div hp) ?_
      · exact Nat.lt_of_lt_of_le hk s.clampedLen_le
      · rw [Nat.zero_add] at e; exact e)
  unfold encodeWith
  rw [symbolProblem_none.mpr hc]
  simp only [hp, Nat.add_zero, Nat.zero_add]
  rw [State.encoded_length]
  rfl

/-- The final position fits a register (R127). -/
theorem State.encoded_pos_le (s : State) (table : CodeTable) :
    s.bitOffset.toNat + streamLen table (s.encoded table) ≤ Config.MAXV := by
  rcases fitCount_bound table s.capacity s.bitOffset.toNat s.clampedSource with h | h
  · have := s.bitOffset.isLt
    rw [State.encoded, h]
    exact Nat.le_sub_one_of_lt this
  · rw [State.encoded]
    exact Nat.le_trans h s.capacity_le

theorem State.encoded_length_le (s : State) (table : CodeTable) : (s.encoded table).length ≤ s.srcLen.toNat := by
  rw [State.encoded_length]
  exact Nat.le_trans (fitCount_le _ _ _ _) (by rw [State.clampedSource_length]; exact s.clampedLen_le)

end Sys2Proof.Machine
end

