-- ==== Sys2Proof/Laws/Decoder.lean ====
section
/-! SUPPORT. The Stream Decoder: the walk is the tree's `follow` on the bits of the source, the loop writes the bytes of complete
code words and stops for one of three reasons (R143 to R149), and it undoes the encoder's code stream (R115, R150). -/

namespace Sys2Proof.Machine

theorem bitsFrom_succ (m : Memory) (base p n : Nat) : bitsFrom m base p (n + 1) = m.getBit base p :: bitsFrom m base (p + 1) n := by
  simp only [bitsFrom, List.range_succ_eq_map, List.map_cons, List.map_map, Nat.add_zero, List.cons.injEq, true_and]
  exact List.map_congr_left fun k _ => by simp [Nat.add_assoc, Nat.add_comm 1 k]

theorem bitsFrom_append (m : Memory) (base p a b : Nat) : bitsFrom m base p (a + b) = bitsFrom m base p a ++ bitsFrom m base (p + a) b := by
  induction a generalizing p with
  | zero => simp [bitsFrom]
  | succ a ih =>
    rw [Nat.succ_add, bitsFrom_succ, ih, bitsFrom_succ, List.cons_append, Nat.add_assoc, Nat.add_comm 1]

theorem bitsFrom_isBits (m : Memory) (base p n : Nat) : isBits (bitsFrom m base p n) := by
  intro e he
  obtain ⟨k, _, rfl⟩ := List.mem_map.mp he
  exact Memory.getBit_lt _ _ _

theorem bitsFrom_congr {m n : Memory} {base p k : Nat} (h : ∀ j, j < k → m.getBit base (p + j) = n.getBit base (p + j)) :
    bitsFrom m base p k = bitsFrom n base p k :=
  List.map_congr_left fun j hj => h j (List.mem_range.mp hj)

/-! The walk (R143, R146). -/

/-- The walk that reaches a leaf has followed the bits it consumed. -/
theorem walkBits_some {m : Memory} {src stop : Nat} {t : TreeNode} {p : Nat} {b : Byte} {q : Nat}
    (h : walkBits m src stop t p = some (b, q)) :
    p ≤ q ∧ (q ≤ stop ∨ q = p) ∧ ∃ f, t.follow (bitsFrom m src p (q - p)) = some (.leaf b f) := by
  induction t generalizing p with
  | leaf c f =>
    simp only [walkBits, Option.some.injEq, Prod.mk.injEq] at h
    obtain ⟨rfl, rfl⟩ := h
    exact ⟨Nat.le_refl _, .inr rfl, f, by simp [bitsFrom, TreeNode.follow]⟩
  | node l r f ihl ihr =>
    simp only [walkBits] at h
    split at h
    · cases h
    · rename_i hs
      split at h
      · rename_i hb
        obtain ⟨h1, h2, g, hg⟩ := ihl h
        refine ⟨by omega, by omega, g, ?_⟩
        rw [show q - p = (q - (p + 1)) + 1 by omega, bitsFrom_succ, TreeNode.follow, if_pos hb]
        exact hg
      · rename_i hb
        obtain ⟨h1, h2, g, hg⟩ := ihr h
        refine ⟨by omega, by omega, g, ?_⟩
        rw [show q - p = (q - (p + 1)) + 1 by omega, bitsFrom_succ, TreeNode.follow, if_neg hb]
        exact hg

/-- The walk that runs out of valid bits stands at an internal node (R146). -/
theorem walkBits_none {m : Memory} {src stop : Nat} {t : TreeNode} {p : Nat} (h : walkBits m src stop t p = none) :
    ∃ l r f, t.follow (bitsFrom m src p (stop - p)) = some (.node l r f) := by
  induction t generalizing p with
  | leaf c f => simp [walkBits] at h
  | node l r f ihl ihr =>
    simp only [walkBits] at h
    split at h
    · rename_i hs
      exact ⟨l, r, f, by rw [Nat.sub_eq_zero_of_le hs]; simp [bitsFrom, TreeNode.follow]⟩
    · rename_i hs
      split at h
      · rename_i hb
        obtain ⟨l', r', f', e⟩ := ihl h
        refine ⟨l', r', f', ?_⟩
        rw [show stop - p = (stop - (p + 1)) + 1 by omega, bitsFrom_succ, TreeNode.follow, if_pos hb]
        exact e
      · rename_i hb
        obtain ⟨l', r', f', e⟩ := ihr h
        refine ⟨l', r', f', ?_⟩
        rw [show stop - p = (stop - (p + 1)) + 1 by omega, bitsFrom_succ, TreeNode.follow, if_neg hb]
        exact e

/-- The walk over valid bits that are a path to a leaf reaches it. -/
theorem walkBits_of_follow {m : Memory} {src stop : Nat} {t : TreeNode} {p : Nat} {es : List Nat} {b : Byte} {f : Nat}
    (hf : t.follow es = some (.leaf b f)) (he : bitsFrom m src p es.length = es) (hs : p + es.length ≤ stop) :
    walkBits m src stop t p = some (b, p + es.length) := by
  induction t generalizing es p with
  | leaf c g =>
    obtain ⟨rfl, rfl, -⟩ := TreeNode.leaf_follow hf
    rfl
  | node l r g ihl ihr =>
    cases es with
    | nil => simp [TreeNode.follow] at hf
    | cons e es =>
      rw [List.length_cons, bitsFrom_succ, List.cons.injEq] at he
      obtain ⟨he1, he2⟩ := he
      simp only [List.length_cons] at hs ⊢
      simp only [TreeNode.follow] at hf
      rw [walkBits, if_neg (by omega), he1]
      split at hf
      · rename_i h1
        rw [if_pos h1, ihl hf he2 (by omega)]
        congr 2; omega
      · rename_i h1
        rw [if_neg h1, ihr hf he2 (by omega)]
        congr 2; omega

theorem isWord_length {t : TreeNode} {es : List Nat} {b : Byte} (h : isWord t es b) : 1 ≤ es.length := by
  cases t with
  | leaf v f => exact Nat.le_of_eq h.1.symm
  | node l r f =>
    obtain ⟨g, hg⟩ := h
    cases es with
    | nil => simp [TreeNode.follow] at hg
    | cons e es => simp

theorem decodeSymbol_some {m : Memory} {src stop : Nat} {t : TreeNode} {p : Nat} (hp : p < stop) {b : Byte} {q : Nat}
    (h : decodeSymbol m src stop t p = some (b, q)) :
    p < q ∧ q ≤ stop ∧ isWord t (bitsFrom m src p (q - p)) b := by
  cases t with
  | leaf v f =>
    simp only [decodeSymbol, Option.some.injEq, Prod.mk.injEq] at h
    obtain ⟨rfl, rfl⟩ := h
    exact ⟨by omega, by omega, by rw [bitsFrom_length]; omega, rfl⟩
  | node l r f =>
    obtain ⟨h1, h2, hw⟩ := walkBits_some h
    have := isWord_length (t := .node l r f) hw
    rw [bitsFrom_length] at this
    exact ⟨by omega, by omega, hw⟩

theorem decodeSymbol_none {m : Memory} {src stop : Nat} {t : TreeNode} {p : Nat} (h : decodeSymbol m src stop t p = none) :
    ∃ l r f, t.follow (bitsFrom m src p (stop - p)) = some (.node l r f) := by
  cases t with
  | leaf v f => cases h
  | node l r f => exact walkBits_none h

theorem decodeSymbol_of_isWord {m : Memory} {src stop : Nat} {t : TreeNode} {p : Nat} {es : List Nat} {b : Byte} (hw : isWord t es b)
    (he : bitsFrom m src p es.length = es) (hs : p + es.length ≤ stop) :
    decodeSymbol m src stop t p = some (b, p + es.length) := by
  cases t with
  | leaf v f =>
    obtain ⟨h1, rfl⟩ := hw
    rw [h1]; rfl
  | node l r f =>
    obtain ⟨g, hg⟩ := hw
    exact walkBits_of_follow hg he hs

/-- Every code of the table is a code word of the tree (R112, R113, R143, R144). -/
theorem derive_isWord {t : TreeNode} (hn : t.bytes.Nodup) {v : Byte} (h : ((derive t).entry v).isCode = true) :
    isWord t ((derive t).entry v).bits v := by
  cases t with
  | leaf w f =>
    rw [derive_leaf] at h ⊢
    split at h
    · rename_i e
      rw [if_pos e]
      exact ⟨rfl, e.symm⟩
    · cases h
  | node l r f =>
    cases he : (derive (.node l r f)).entry v with
    | absent => simp [he, CodeEntry.isCode] at h
    | wide d => simp [he, CodeEntry.isCode] at h
    | code pat len => exact (derive_code hn he).2.2.2

/-! The outer loop. -/

/-- Why the decoder stopped (R145, R146): no valid bit left; the rest of the valid bits is not a whole code word; no room. -/
def stopReason (t : TreeNode) (m : Memory) (src stop room : Nat) (u : Unpacked) (produced : Nat) : Prop :=
  (u.cause = .ok ∧ stop ≤ u.pos) ∨
  (u.cause = .ok ∧ u.pos < stop ∧ produced < room ∧
    ∃ l r f, t.follow (bitsFrom m src u.pos (stop - u.pos)) = some (.node l r f)) ∨
  (u.cause = .bufferExhausted ∧ u.pos < stop ∧ produced = room)

/-- What DECODE's loop does (R140): the bytes of the code words it consumed are stored one after the other, and it stops for one
of the three reasons. The destination with room for `room` bytes shares no address with the valid source bits. -/
theorem unpackLoop_spec {t : TreeNode} {src dst stop room pos out : Nat} {m : Memory} (hm : m.wf = true)
    (hspace : dst + out + room ≤ 2 ^ 64) (hdis : ∀ p, p < stop → ∀ k, k < room → src + p / 8 ≠ dst + (out + k)) :
    ∃ ws bs, List.Forall₂ (isWord t) ws bs ∧
      (unpackLoop t src dst stop room pos out m).out = out + bs.length ∧ bs.length ≤ room ∧
      (unpackLoop t src dst stop room pos out m).mem = m.writeBytes (dst + out) bs ∧
      pos ≤ (unpackLoop t src dst stop room pos out m).pos ∧
      (bs ≠ [] → (unpackLoop t src dst stop room pos out m).pos ≤ stop) ∧
      (bs = [] → (unpackLoop t src dst stop room pos out m).pos = pos) ∧
      bitsFrom m src pos ((unpackLoop t src dst stop room pos out m).pos - pos) = ws.flatten ∧
      stopReason t m src stop room (unpackLoop t src dst stop room pos out m) bs.length := by
  induction room generalizing pos out m with
  | zero =>
    refine ⟨[], [], .nil, ?_⟩
    unfold unpackLoop
    by_cases hp : stop ≤ pos
    · rw [if_pos hp]
      refine ⟨rfl, Nat.le_refl _, rfl, Nat.le_refl _, by simp, by simp, by simp [bitsFrom], .inl ⟨rfl, hp⟩⟩
    · rw [if_neg hp]
      refine ⟨rfl, Nat.le_refl _, rfl, Nat.le_refl _, by simp, by simp, by simp [bitsFrom], .inr (.inr ⟨rfl, ?_, rfl⟩)⟩
      exact Nat.lt_of_not_le hp
  | succ room ih =>
    by_cases hp : stop ≤ pos
    · have e : unpackLoop t src dst stop (room + 1) pos out m = ⟨.ok, pos, out, m⟩ := by rw [unpackLoop, if_pos hp]
      rw [e]
      exact ⟨[], [], .nil, rfl, Nat.zero_le _, rfl, Nat.le_refl _, by simp, by simp, by simp [bitsFrom], .inl ⟨rfl, hp⟩⟩
    · cases hd : decodeSymbol m src stop t pos with
      | none =>
        have e : unpackLoop t src dst stop (room + 1) pos out m = ⟨.ok, pos, out, m⟩ := by rw [unpackLoop, if_neg hp, hd]
        rw [e]
        exact ⟨[], [], .nil, rfl, Nat.zero_le _, rfl, Nat.le_refl _, by simp, by simp, by simp [bitsFrom],
          .inr (.inl ⟨rfl, Nat.lt_of_not_le hp, Nat.succ_pos _, decodeSymbol_none hd⟩)⟩
      | some bq =>
        obtain ⟨b, q⟩ := bq
        obtain ⟨h1, h2, hw⟩ := decodeSymbol_some (Nat.lt_of_not_le hp) hd
        have e : unpackLoop t src dst stop (room + 1) pos out m =
            unpackLoop t src dst stop room q (out + 1) (m.write (dst + out) b) := by rw [unpackLoop, if_neg hp, hd]
        rw [e]
        have hm' : (m.write (dst + out) b).wf = true := Memory.write_wf b hm (by omega)
        have hbits : ∀ p k, p + k ≤ stop → bitsFrom (m.write (dst + out) b) src p k = bitsFrom m src p k := by
          intro p k hpk
          refine bitsFrom_congr fun j hj => Memory.getBit_congr ?_
          rw [Memory.read_write hm, if_neg]
          have := hdis (p + j) (by omega) 0 (Nat.succ_pos _)
          rwa [Nat.add_zero] at this
        obtain ⟨ws, bs, g1, g2, g3, g4, g5, g6, g7, g8, g9⟩ := ih (pos := q) (out := out + 1) (m := m.write (dst + out) b) hm' (by omega)
          (fun p hp k hk => by
            have := hdis p hp (k + 1) (by omega)
            rwa [show out + (k + 1) = out + 1 + k by omega] at this)
        generalize unpackLoop t src dst stop room q (out + 1) (m.write (dst + out) b) = u at *
        have hstop : u.pos ≤ stop := by
          by_cases hb : bs = []
          · rw [g7 hb]; exact h2
          · exact g6 hb
        refine ⟨bitsFrom m src pos (q - pos) :: ws, b :: bs, .cons hw g1, ?_, ?_, ?_, ?_, ?_, ?_, ?_, ?_⟩
        · rw [g2, List.length_cons]; omega
        · rw [List.length_cons]; omega
        · rw [g4, Memory.writeBytes, Nat.add_assoc]
        · omega
        · exact fun _ => hstop
        · intro h; cases h
        · rw [show u.pos - pos = (q - pos) + (u.pos - q) by omega, bitsFrom_append, List.flatten_cons, ← g8,
            show pos + (q - pos) = q by omega, hbits _ _ (by omega)]
        · rcases g9 with h | ⟨c1, c2, c3, l, r, f, c4⟩ | ⟨c1, c2, c3⟩
          · exact .inl h
          · refine .inr (.inl ⟨c1, c2, by rw [List.length_cons]; omega, l, r, f, ?_⟩)
            rw [← c4, hbits _ _ (by omega)]
          · exact .inr (.inr ⟨c1, c2, by rw [List.length_cons]; omega⟩)

/-- The decoder undoes the encoder: on valid bits that are the code stream of a list of bytes it gives the bytes (R115, R150). -/
theorem unpackLoop_codeStream {t : TreeNode} (hn : t.bytes.Nodup) {src dst stop room pos out : Nat} {m : Memory} (hm : m.wf = true)
    {bs : List Byte} (hc : ∀ b ∈ bs, ((derive t).entry b).isCode = true)
    (hbits : bitsFrom m src pos (streamLen (derive t) bs) = codeStream (derive t) bs) (hstop : pos + streamLen (derive t) bs = stop)
    (hroom : bs.length ≤ room) (hspace : dst + out + bs.length ≤ 2 ^ 64)
    (hdis : ∀ p, p < stop → ∀ k, k < bs.length → src + p / 8 ≠ dst + (out + k)) :
    unpackLoop t src dst stop room pos out m = ⟨.ok, stop, out + bs.length, m.writeBytes (dst + out) bs⟩ := by
  induction bs generalizing room pos out m with
  | nil =>
    have : pos = stop := by simpa [streamLen, codeStream] using hstop
    subst this
    cases room <;> simp [unpackLoop, Memory.writeBytes]
  | cons b bs ih =>
    simp only [List.length_cons] at hroom hspace hdis
    rw [streamLen_cons] at hstop hbits
    rw [codeStream_cons, bitsFrom_append] at hbits
    have hlen := bitsFrom_length m src pos ((derive t).entry b).bits.length
    obtain ⟨hb1, hb2⟩ := List.append_inj hbits hlen
    have hw := derive_isWord hn (hc b List.mem_cons_self)
    have hpos := isWord_length hw
    obtain ⟨room, rfl⟩ : ∃ r, room = r + 1 := ⟨room - 1, by omega⟩
    rw [unpackLoop, if_neg (by omega), decodeSymbol_of_isWord hw hb1 (by omega)]
    simp only
    have hm' : (m.write (dst + out) b).wf = true := Memory.write_wf b hm (by omega)
    rw [ih hm' (fun x hx => hc x (List.mem_cons_of_mem _ hx)) ?_ (by omega) (by omega) (by omega) ?_]
    · simp only [List.length_cons, Memory.writeBytes, Unpacked.mk.injEq, true_and]
      exact ⟨by omega, by rw [Nat.add_assoc]⟩
    · rw [← hb2]
      refine bitsFrom_congr fun j hj => Memory.getBit_congr ?_
      rw [Memory.read_write hm, if_neg]
      have := hdis (pos + ((derive t).entry b).bits.length + j) (by omega) 0 (Nat.succ_pos _)
      rwa [Nat.add_zero] at this
    · intro p hp k hk
      have := hdis p hp (k + 1) (by omega)
      rwa [show out + (k + 1) = out + 1 + k by omega] at this

/-- On a degenerate tree the loop stores its byte once for each valid bit, as far as there is room (R144). -/
theorem unpackLoop_leaf (v : Byte) (f src dst stop : Nat) : ∀ (room pos out : Nat) (m : Memory), pos ≤ stop →
   unpackLoop (.leaf v f) src dst stop room pos out m =
     ⟨if stop - pos ≤ room then .ok else .bufferExhausted, pos + min (stop - pos) room, out + min (stop - pos) room,
       m.writeBytes (dst + out) (List.replicate (min (stop - pos) room) v)⟩ := by
  intro room
  induction room with
  | zero =>
    intro pos out m h
    unfold unpackLoop
    by_cases hs : stop ≤ pos
    · rw [if_pos hs, if_pos (by omega)]; simp [Memory.writeBytes]
    · rw [if_neg hs, if_neg (by omega)]; simp [Memory.writeBytes]
  | succ room ih =>
    intro pos out m h
    unfold unpackLoop
    by_cases hs : stop ≤ pos
    · rw [if_pos hs, if_pos (by omega), Nat.sub_eq_zero_of_le hs]; simp [Memory.writeBytes]
    · rw [if_neg hs]
      simp only [decodeSymbol]
      rw [ih _ _ _ (by omega)]
      have : min (stop - pos) (room + 1) = min (stop - (pos + 1)) room + 1 := by omega
      rw [this, List.replicate_succ, Memory.writeBytes]
      simp only [Unpacked.mk.injEq]
      refine ⟨?_, by omega, by omega, by rw [Nat.add_assoc]⟩
      by_cases hh : stop - (pos+1) ≤ room
      · rw [if_pos hh, if_pos (by omega)]
      · rw [if_neg hh, if_neg (by omega)]

/-- A loop that stops for want of room goes on where it stopped when it gets more (R145, R148). -/
theorem unpackLoop_split {t : TreeNode} {src dst stop : Nat} (a b pos out : Nat) (m : Memory)
   (h : (unpackLoop t src dst stop a pos out m).cause = .bufferExhausted) :
    unpackLoop t src dst stop (a + b) pos out m =
      unpackLoop t src dst stop b (unpackLoop t src dst stop a pos out m).pos (unpackLoop t src dst stop a pos out m).out (unpackLoop t src dst stop a pos out m).mem := by
  induction a generalizing pos out m with
  | zero =>
    rw [Nat.zero_add]
    have : unpackLoop t src dst stop 0 pos out m = ⟨.bufferExhausted, pos, out, m⟩ := by
      unfold unpackLoop at h ⊢
      split at h
      · cases h
      · rw [if_neg (by assumption)]
    rw [this]
  | succ a ih =>
    rw [Nat.succ_add]
    by_cases hs : stop ≤ pos
    · rw [unpackLoop, if_pos hs] at h
      cases h
    · cases hd : decodeSymbol m src stop t pos with
      | none => rw [unpackLoop, if_neg hs, hd] at h; cases h
      | some bq =>
        have e : ∀ r, unpackLoop t src dst stop (r + 1) pos out m = unpackLoop t src dst stop r bq.2 (out + 1) (m.write (dst + out) bq.1) := by
          intro r; rw [unpackLoop, if_neg hs, hd]
        rw [e] at h
        rw [Nat.succ_eq_add_one, e, e]
        exact ih _ _ _ h

/-- The bytes already produced only shift the destination (R148). -/
theorem unpackLoop_shift {t : TreeNode} {src dst stop : Nat} (room pos out k : Nat) (m : Memory) :
    unpackLoop t src dst stop room pos (out + k) m =
      { unpackLoop t src (dst + k) stop room pos out m with out := (unpackLoop t src (dst + k) stop room pos out m).out + k } := by
  induction room generalizing pos out m with
  | zero => unfold unpackLoop; split <;> rfl
  | succ room ih =>
    unfold unpackLoop
    split
    · rfl
    · cases decodeSymbol m src stop t pos with
      | none => rfl
      | some bq =>
        simp only
        rw [show out + k + 1 = out + 1 + k by omega, ih, show dst + (out + k) = dst + k + out by omega]

theorem unpackLoop_out_le {t : TreeNode} {src dst stop : Nat} (room pos out : Nat) (m : Memory) :
    (unpackLoop t src dst stop room pos out m).out ≤ out + room := by
  induction room generalizing pos out m with
  | zero => unfold unpackLoop; split <;> exact Nat.le_refl _
  | succ room ih =>
    unfold unpackLoop
    split
    · exact Nat.le_add_right _ _
    · split
      · exact Nat.le_add_right _ _
      · exact Nat.le_trans (ih _ _ _) (by omega)

/-! DECODE. -/

/-- Valid bits lie in the source region (R142). -/
theorem State.endOfBits_div {s : State} {p : Nat} (h : p < s.endOfBits) : p / 8 < s.srcLen.toNat := by
  have h8 := s.endBitOffset.isLt
  unfold State.endOfBits at h
  split at h
  · omega
  · split at h
    · have := Nat.lt_of_lt_of_le h (Nat.min_le_left _ _); omega
    · have := Nat.lt_of_lt_of_le h (Nat.min_le_left _ _); omega

theorem State.endOfBits_le (s : State) : s.endOfBits ≤ Config.MAXV := by
  unfold State.endOfBits
  split
  · exact Nat.zero_le _
  · split <;> exact Nat.min_le_right _ _

theorem State.unpack_disjoint {s : State} (hu : s.buffersUsable) {p k : Nat} (hp : p < s.endOfBits) (hk : k < s.dstLen.toNat) :
    s.srcAddr.toNat + p / 8 ≠ s.dstAddr.toNat + (0 + k) := by
  rw [Nat.zero_add]
  exact hu.2.2 _ (State.endOfBits_div hp) _ hk

theorem State.destUsable.space {s : State} (hu : s.destUsable) {n : Nat} (hn : n ≤ s.dstLen.toNat) (h0 : n ≠ 0) :
    s.dstAddr.toNat + n ≤ 2 ^ 64 := by
  have := hu.bound (i := n - 1) (by omega)
  omega

end Sys2Proof.Machine
end

