-- ==== Sys2Proof/Laws/Image.lean ====
section
/-! SUPPORT. The tree image: its length, and that parsing it gives the tree back (R164 to R170). -/

namespace Sys2Proof.Machine

theorem image_length (t : TreeNode) : (image t).length = imageLen t := by
  induction t with
  | leaf b f => simp [image, imageLen, leBytes_length]; omega
  | node l r f ihl ihr => simp [image, imageLen, ihl, ihr]; omega

/-- "For a tree with k leaves it is 10·k + (k − 1)" (R164). -/
theorem imageLen_eq (t : TreeNode) : imageLen t + 1 = 11 * t.leaves.length := by
  induction t with
  | leaf b f => rfl
  | node l r f ihl ihr => simp only [imageLen, TreeNode.leaves, List.length_append]; omega

theorem imageLen_pos (t : TreeNode) : 10 ≤ imageLen t := by
  have := imageLen_eq t
  have := t.leaves_length
  omega

/-- The leaf record behind its tag (R165, R167). -/
theorem parseLeaf_record {f : Nat} (hf : f < 2 ^ 64) (b : Byte) (x : List Byte) :
    parseLeaf (b :: (leBytes (Config.W / 8) f ++ x)) = some (.leaf b f, x) := by
  have hl : (leBytes (Config.W / 8) f).length = Config.W / 8 := leBytes_length _ _
  have hlt : ¬(leBytes (Config.W / 8) f ++ x).length < Config.W / 8 := by
    rw [List.length_append, hl]; omega
  rw [parseLeaf, if_neg hlt, List.take_left' hl, List.drop_left' hl, leValue_leBytes,
    Nat.mod_eq_of_lt (show f < 256 ^ (Config.W / 8) from hf)]

/-- PARSE gives back the tree whose image it is given, and leaves what follows the image (R170). -/
theorem parseNode_image {t : TreeNode} (hs : t.sumsOk = true) (hf : ∀ p ∈ t.leaves, p.2 < 2 ^ 64) {fuel : Nat} (x : List Byte)
    (hfuel : imageLen t ≤ fuel) : parseNode fuel (image t ++ x) = some (t, x) := by
  induction t generalizing fuel x with
  | leaf b f =>
    obtain ⟨fuel, rfl⟩ : ∃ k, fuel = k + 1 := ⟨fuel - 1, by simp [imageLen] at hfuel; omega⟩
    have h1 : f < 2 ^ 64 := hf (b, f) (by simp [TreeNode.leaves])
    simp only [image, List.cons_append, parseNode, if_true]
    exact parseLeaf_record h1 b x
  | node l r f ihl ihr =>
    obtain ⟨fuel, rfl⟩ : ∃ k, fuel = k + 1 := ⟨fuel - 1, by simp [imageLen] at hfuel; omega⟩
    simp only [TreeNode.sumsOk, Bool.and_eq_true, decide_eq_true_eq] at hs
    simp only [imageLen] at hfuel
    have hl := ihl hs.1.2 (fun p hp => hf p (by simp [TreeNode.leaves, hp])) (fuel := fuel) (image r ++ x) (by omega)
    have hr := ihr hs.2 (fun p hp => hf p (by simp [TreeNode.leaves, hp])) (fuel := fuel) x (by omega)
    simp only [image, List.cons_append, List.append_assoc, parseNode]
    rw [if_neg (show ¬nodeTag = leafTag by decide), if_pos trivial, hl]
    simp only [hr]
    rw [hs.1.1]

theorem TreeNode.valid_freq_lt {t : TreeNode} (h : t.valid = true) : ∀ p ∈ t.leaves, p.2 < 2 ^ 64 := by
  intro p hp
  have h3 := (TreeNode.valid_iff.mp h).2.2
  have := List.le_sum_of_mem (List.mem_map_of_mem (f := (·.2)) hp)
  exact Nat.lt_of_le_of_lt (Nat.le_trans this h3) (by decide)

/-- "PARSE(IMG(t) ++ x, 0) = (t, IMGLEN(t)) for any trailing bytes x" (R170). -/
theorem parse_image {t : TreeNode} (h : t.sound = true) (x : List Byte) : parse (image t ++ x) 0 = some (t, imageLen t) := by
  obtain ⟨hs, hv⟩ := TreeNode.sound_iff.mp h
  have hl : (image t ++ x).length = imageLen t + x.length := by rw [List.length_append, image_length]
  unfold parse
  rw [List.drop_zero, parseNode_image hs (TreeNode.valid_freq_lt hv) x (by omega)]
  simp only [hl, Nat.add_sub_cancel]

/-! What PARSE answers is a tree whose sums are right, and it consumes what it parsed. -/

theorem parseLeaf_shape {bs rest : List Byte} {t : TreeNode} (h : parseLeaf bs = some (t, rest)) :
    ∃ b f, t = .leaf b f ∧ f < 2 ^ 64 ∧ rest.length + 9 = bs.length := by
  cases bs with
  | nil => cases h
  | cons b bs =>
    simp only [parseLeaf] at h
    split at h
    · cases h
    · rename_i hlen
      cases h
      refine ⟨b, _, rfl, ?_, ?_⟩
      · have := leValue_lt (bs.take (Config.W / 8))
        rw [List.length_take, Nat.min_eq_left (Nat.le_of_not_lt hlen)] at this
        exact this
      · have h8 : ¬bs.length < 8 := hlen
        simp only [List.length_drop, List.length_cons]
        show bs.length - 8 + 9 = bs.length + 1
        omega

theorem parseNode_sums {fuel : Nat} {bs rest : List Byte} {t : TreeNode} (h : parseNode fuel bs = some (t, rest)) :
    t.sumsOk = true ∧ rest.length + imageLen t = bs.length := by
  induction fuel generalizing bs rest t with
  | zero => cases h
  | succ fuel ih =>
    cases bs with
    | nil => cases h
    | cons tag bs =>
      simp only [parseNode] at h
      split at h
      · obtain ⟨b, f, rfl, -, hl⟩ := parseLeaf_shape h
        refine ⟨rfl, ?_⟩
        show rest.length + 10 = bs.length + 1
        omega
      · split at h
        · cases hl : parseNode fuel bs with
          | none => rw [hl] at h; cases h
          | some p1 =>
            obtain ⟨l, bs1⟩ := p1
            rw [hl] at h
            simp only at h
            cases hr : parseNode fuel bs1 with
            | none => rw [hr] at h; cases h
            | some p2 =>
              obtain ⟨r, bs2⟩ := p2
              rw [hr] at h
              cases h
              obtain ⟨s1, e1⟩ := ih hl
              obtain ⟨s2, e2⟩ := ih hr
              exact ⟨by simp [TreeNode.sumsOk, s1, s2], by simp only [imageLen, List.length_cons]; omega⟩
        · cases h

/-- A candidate has right sums, and the index past its image is the length of its image, inside the source (R167). -/
theorem parse_zero {b : List Byte} {t : TreeNode} {used : Nat} (h : parse b 0 = some (t, used)) :
    t.sumsOk = true ∧ used = imageLen t ∧ used ≤ b.length := by
  unfold parse at h
  rw [List.drop_zero] at h
  cases hp : parseNode b.length b with
  | none => rw [hp] at h; cases h
  | some p =>
    obtain ⟨t', rest⟩ := p
    rw [hp] at h
    cases h
    obtain ⟨h1, h2⟩ := parseNode_sums hp
    exact ⟨h1, by omega, by omega⟩

/-- A candidate that passes VALID can be ROOT (R168, R169). -/
theorem parse_valid_sound {b : List Byte} {t : TreeNode} {used : Nat} (h : parse b 0 = some (t, used)) (hv : t.valid = true) :
    t.sound = true :=
  TreeNode.sound_iff.mpr ⟨(parse_zero h).1, hv⟩

/-- One more byte of fuel than the bytes at hand changes nothing (R172, log 13). -/
theorem parseNode_fuel {fuel : Nat} {bs : List Byte} (h : bs.length ≤ fuel) : parseNode (fuel + 1) bs = parseNode fuel bs := by
  induction fuel generalizing bs with
  | zero =>
    cases bs with
    | nil => rfl
    | cons b bs => simp at h
  | succ fuel ih =>
    cases bs with
    | nil => rfl
    | cons tag bs =>
      simp only [List.length_cons] at h
      rw [parseNode, parseNode, ih (by omega)]
      split
      · rfl
      · split
        · cases hl : parseNode fuel bs with
          | none => rfl
          | some p1 =>
            obtain ⟨l, bs1⟩ := p1
            have := (parseNode_sums hl).2
            simp only
            rw [ih (by omega)]
        · rfl

end Sys2Proof.Machine
end

