-- ==== Sys2Proof/Laws/Exec.lean ====
section
/-! SUPPORT. What each command can do, said once: when it answers a next state, which one, and that it keeps the invariant. -/

namespace Sys2Proof.Machine

/-! Inversion, command by command. -/

theorem execCreate_eq_next {s t : State} : execCreate s = .next t ↔
    s.srcProblem = none ∧ t = (s.setRoot (combine (count s.source))).finish .ok (dictSize (combine (count s.source))) 0 :=
  memoryPhase_eq_next

theorem execCreatePart_overflow {s : State} (h : Config.MAXV < s.srcLen.toNat + s.size) :
    execCreatePart s = .next (s.finish .freqOverflow s.size 0) := by
  unfold execCreatePart
  rw [if_pos h]

theorem execCreatePart_fits {s : State} (h : s.srcLen.toNat + s.size ≤ Config.MAXV) :
    execCreatePart s = memoryPhase s.srcProblem ((s.setRoot (combine (merge (count s.source) s.root))).finish .ok
      (dictSize (combine (merge (count s.source) s.root))) 0) := by
  unfold execCreatePart
  rw [if_neg (Nat.not_lt_of_le h)]

theorem execCreatePart_eq_next {s t : State} : execCreatePart s = .next t ↔
    (Config.MAXV < s.srcLen.toNat + s.size ∧ t = s.finish .freqOverflow s.size 0) ∨
    (s.srcLen.toNat + s.size ≤ Config.MAXV ∧ s.srcProblem = none ∧
      t = (s.setRoot (combine (merge (count s.source) s.root))).finish .ok (dictSize (combine (merge (count s.source) s.root))) 0) := by
  by_cases h : Config.MAXV < s.srcLen.toNat + s.size
  · rw [execCreatePart_overflow h]
    simp only [Host.Outcome.next.injEq]
    exact ⟨fun e => .inl ⟨h, e.symm⟩, fun e => e.elim (fun e => e.2.symm) fun e => absurd h (Nat.not_lt_of_le e.1)⟩
  · have h' := Nat.le_of_not_lt h
    rw [execCreatePart_fits h', memoryPhase_eq_next]
    exact ⟨fun e => .inr ⟨h', e⟩, fun e => e.elim (fun e => absurd e.1 h) fun e => e.2⟩

theorem execEncode_uninit {s : State} (h : s.root = none) : execEncode s = .next (s.finish .uninit 0 0) := by
  unfold execEncode
  rw [h]

theorem execEncode_empty {s : State} {t : TreeNode} (h : s.root = some t) (h0 : s.srcLen.toNat = 0 ∨ s.dstLen.toNat = 0) :
    execEncode s = .next (s.finish .empty 0 0) := by
  unfold execEncode
  rw [h]
  simp only [if_pos h0]

theorem execEncode_run {s : State} {t : TreeNode} (h : s.root = some t) (h0 : ¬(s.srcLen.toNat = 0 ∨ s.dstLen.toNat = 0)) :
    execEncode s = memoryPhase s.bothProblem (encodeWith (derive t) s) := by
  unfold execEncode
  rw [h]
  simp only [if_neg h0]

theorem execEncode_eq_next {s u : State} : execEncode s = .next u ↔
    (s.root = none ∧ u = s.finish .uninit 0 0) ∨
    (∃ t, s.root = some t ∧ (s.srcLen.toNat = 0 ∨ s.dstLen.toNat = 0) ∧ u = s.finish .empty 0 0) ∨
    (∃ t, s.root = some t ∧ ¬(s.srcLen.toNat = 0 ∨ s.dstLen.toNat = 0) ∧ s.bothProblem = none ∧ u = encodeWith (derive t) s) := by
  cases h : s.root with
  | none =>
    rw [execEncode_uninit h]
    simp [eq_comm]
  | some t =>
    by_cases h0 : s.srcLen.toNat = 0 ∨ s.dstLen.toNat = 0
    · rw [execEncode_empty h h0, Host.Outcome.next.injEq]
      refine ⟨fun e => .inr (.inl ⟨t, rfl, h0, e.symm⟩), ?_⟩
      rintro (⟨e, -⟩ | ⟨-, -, -, e⟩ | ⟨-, -, e, -⟩)
      · cases e
      · exact e.symm
      · exact absurd h0 e
    · rw [execEncode_run h h0, memoryPhase_eq_next]
      refine ⟨fun e => .inr (.inr ⟨t, rfl, h0, e⟩), ?_⟩
      rintro (⟨e, -⟩ | ⟨-, -, e, -⟩ | ⟨t', e, -, e'⟩)
      · cases e
      · exact absurd e h0
      · cases e
        exact e'

/-- ENCODE past its tests ends in the abort of the first pass, or with the packing loop's progress (R120, R123). -/
theorem encodeWith_cases (table : CodeTable) (s : State) :
    (∃ c, symbolProblem table s.clampedSource = some c ∧ encodeWith table s = s.finish c 0 0) ∨
    (symbolProblem table s.clampedSource = none ∧ ∃ p : Packed,
      encodeWith table s = (s.setMem p.mem).finish (packCause s p.index) p.index p.pos) := by
  unfold encodeWith
  cases h : symbolProblem table s.clampedSource with
  | some c => exact .inl ⟨c, rfl, rfl⟩
  | none => exact .inr ⟨rfl, _, rfl⟩

theorem symbolProblem_cause {table : CodeTable} {bs : List Byte} {c : Cause} (h : symbolProblem table bs = some c) :
    c = .unknownSymbol ∨ c = .codeWidth := by
  obtain ⟨_, _, _, _, _, h⟩ := symbolProblem_some.mp h
  exact h.imp And.right And.right

theorem packCause_cases (s : State) (i : Nat) : packCause s i = .ok ∨ packCause s i = .bufferExhausted ∨ packCause s i = .clamped := by
  unfold packCause
  split
  · exact .inl rfl
  · split
    · exact .inr (.inl rfl)
    · exact .inr (.inr rfl)

theorem execDecode_uninit {s : State} (h : s.root = none) : execDecode s = .next (s.finish .uninit 0 0) := by
  unfold execDecode
  rw [h]

theorem execDecode_run {s : State} {t : TreeNode} (h : s.root = some t) :
    execDecode s = memoryPhase s.bothProblem (decodeWith t s) := by
  unfold execDecode
  rw [h]

theorem execDecode_eq_next {s u : State} : execDecode s = .next u ↔
    (s.root = none ∧ u = s.finish .uninit 0 0) ∨
    (∃ t, s.root = some t ∧ s.bothProblem = none ∧ u = decodeWith t s) := by
  cases h : s.root with
  | none =>
    rw [execDecode_uninit h]
    simp [eq_comm]
  | some t =>
    rw [execDecode_run h, memoryPhase_eq_next]
    simp

theorem unpackLoop_cause (t : TreeNode) (src dst stop room pos out : Nat) (m : Memory) :
    (unpackLoop t src dst stop room pos out m).cause = .ok ∨ (unpackLoop t src dst stop room pos out m).cause = .bufferExhausted := by
  induction room generalizing pos out m with
  | zero =>
    unfold unpackLoop
    split
    · exact .inl rfl
    · exact .inr rfl
  | succ room ih =>
    unfold unpackLoop
    split
    · exact .inl rfl
    · split
      · exact .inl rfl
      · exact ih _ _ _

theorem execTreeExport_uninit {s : State} (h : s.root = none) : execTreeExport s = .next (s.finish .uninit 0 0) := by
  unfold execTreeExport
  rw [h]

theorem execTreeExport_small {s : State} {t : TreeNode} (h : s.root = some t) (hn : s.dstLen.toNat < imageLen t) :
    execTreeExport s = .next (s.finish .bufferExhausted 0 (imageLen t)) := by
  unfold execTreeExport
  rw [h]
  simp only [if_pos hn]

theorem execTreeExport_run {s : State} {t : TreeNode} (h : s.root = some t) (hn : imageLen t ≤ s.dstLen.toNat) :
    execTreeExport s = memoryPhase s.dstProblem
      ((s.setMem (s.mem.writeBytes s.dstAddr.toNat (image t))).finish .ok (imageLen t) (imageLen t)) := by
  unfold execTreeExport
  rw [h]
  simp only [if_neg (Nat.not_lt_of_le hn)]

theorem execTreeExport_eq_next {s u : State} : execTreeExport s = .next u ↔
    (s.root = none ∧ u = s.finish .uninit 0 0) ∨
    (∃ t, s.root = some t ∧ s.dstLen.toNat < imageLen t ∧ u = s.finish .bufferExhausted 0 (imageLen t)) ∨
    (∃ t, s.root = some t ∧ imageLen t ≤ s.dstLen.toNat ∧ s.dstProblem = none ∧
      u = (s.setMem (s.mem.writeBytes s.dstAddr.toNat (image t))).finish .ok (imageLen t) (imageLen t)) := by
  cases h : s.root with
  | none =>
    rw [execTreeExport_uninit h]
    simp [eq_comm]
  | some t =>
    by_cases hn : s.dstLen.toNat < imageLen t
    · rw [execTreeExport_small h hn]
      simp [hn, Nat.not_le_of_lt hn, eq_comm]
    · have hn' := Nat.le_of_not_lt hn
      rw [execTreeExport_run h hn', memoryPhase_eq_next]
      simp [hn']

theorem execTreeImport_eq_next {s u : State} : execTreeImport s = .next u ↔ s.srcProblem = none ∧ u = importFrom s s.source :=
  memoryPhase_eq_next

/-- TREE_IMPORT accepts a valid candidate, or leaves the dictionary uninitialized (R169). -/
theorem importFrom_cases (s : State) (b : List Byte) :
    (∃ t used, parse b 0 = some (t, used) ∧ t.valid = true ∧ importFrom s b = (s.setRoot (some t)).finish .ok used t.freq) ∨
    ((∀ t used, parse b 0 = some (t, used) → t.valid = false) ∧ importFrom s b = (s.setRoot none).finish .malformedTree 0 0) := by
  unfold importFrom
  cases hp : parse b 0 with
  | none => exact .inr ⟨by simp, rfl⟩
  | some p =>
    obtain ⟨t, used⟩ := p
    cases hv : t.valid with
    | true => exact .inl ⟨t, used, rfl, hv, by simp [hv]⟩
    | false =>
      refine .inr ⟨fun t' used' e => ?_, by simp [hv]⟩
      cases e
      exact hv

/-! The shape of every next state: the root, the memory, the cause and the results may change, nothing else (R29, R181). -/

/-- What a command writes, put into a state. -/
def State.ended (s : State) (root : Option TreeNode) (m : Memory) (c : Cause) (r0 r1 : Nat) : State :=
  ((s.setRoot root).setMem m).finish c r0 r1

theorem State.finish_eq_ended (s : State) (c : Cause) (r0 r1 : Nat) : s.finish c r0 r1 = s.ended s.root s.mem c r0 r1 := rfl

theorem State.setRoot_finish_eq_ended (s : State) (t : Option TreeNode) (c : Cause) (r0 r1 : Nat) :
    (s.setRoot t).finish c r0 r1 = s.ended t s.mem c r0 r1 := rfl

theorem State.setMem_finish_eq_ended (s : State) (m : Memory) (c : Cause) (r0 r1 : Nat) :
    (s.setMem m).finish c r0 r1 = s.ended s.root m c r0 r1 := rfl

/-- Every command that answers a next state answers one of this shape (R29, R181). -/
theorem exec_shape {i : Instr} {s u : State} (h : exec i s = .next u) : ∃ root m c r0 r1, u = s.ended root m c r0 r1 := by
  cases i with
  | nop => cases h; exact ⟨_, _, _, _, _, rfl⟩
  | size => cases h; exact ⟨_, _, _, _, _, rfl⟩
  | isInit => cases h; exact ⟨_, _, _, _, _, rfl⟩
  | clear => cases h; exact ⟨_, _, _, _, _, rfl⟩
  | create => obtain ⟨-, rfl⟩ := execCreate_eq_next.mp h; exact ⟨_, _, _, _, _, rfl⟩
  | createPart =>
    rcases execCreatePart_eq_next.mp h with ⟨-, rfl⟩ | ⟨-, -, rfl⟩ <;> exact ⟨_, _, _, _, _, rfl⟩
  | encode =>
    rcases execEncode_eq_next.mp h with ⟨-, rfl⟩ | ⟨t, -, -, rfl⟩ | ⟨t, -, -, -, rfl⟩
    · exact ⟨_, _, _, _, _, rfl⟩
    · exact ⟨_, _, _, _, _, rfl⟩
    · rcases encodeWith_cases (derive t) s with ⟨c, -, e⟩ | ⟨-, p, e⟩ <;> rw [e] <;> exact ⟨_, _, _, _, _, rfl⟩
  | decode =>
    rcases execDecode_eq_next.mp h with ⟨-, rfl⟩ | ⟨t, -, -, rfl⟩ <;> exact ⟨_, _, _, _, _, rfl⟩
  | treeExport =>
    rcases execTreeExport_eq_next.mp h with ⟨-, rfl⟩ | ⟨t, -, -, rfl⟩ | ⟨t, -, -, -, rfl⟩ <;> exact ⟨_, _, _, _, _, rfl⟩
  | treeImport =>
    obtain ⟨-, rfl⟩ := execTreeImport_eq_next.mp h
    rcases importFrom_cases s s.source with ⟨t, used, -, -, e⟩ | ⟨-, e⟩ <;> rw [e] <;> exact ⟨_, _, _, _, _, rfl⟩

/-! Memory after the three commands that write it. -/

/-- ENCODE inside its memory phase writes a stream of bits at positions below the capacity, whatever the table holds. -/
theorem encodeWith_mem {s : State} {table : CodeTable} (hm : s.mem.wf = true) (hu : s.buffersUsable) :
    (encodeWith table s).mem = s.mem ∨
    (encodeWith table s).mem =
      putStream s.dstAddr.toNat s.bitOffset.toNat (codeStream table (s.encoded table)) s.mem := by
  cases h : symbolProblem table s.clampedSource with
  | some c =>
    left
    unfold encodeWith
    rw [h]
    rfl
  | none =>
    right
    rw [encodeWith_eq hm hu (symbolProblem_none.mp h)]
    rfl

theorem encodeWith_wf {s : State} {table : CodeTable} (hm : s.mem.wf = true) (hu : s.buffersUsable) :
    (encodeWith table s).mem.wf = true := by
  rcases encodeWith_mem (table := table) hm hu with e | e
  · rw [e]; exact hm
  · rw [e]; exact putStream_wf hm (codeStream_isBits _ _) (State.encoded_inSpace table hu.2.1)

theorem encodeWith_read_outside {s : State} {table : CodeTable} (hm : s.mem.wf = true) (hu : s.buffersUsable) {a : Nat}
    (ha : ∀ j, j < s.dstLen.toNat → a ≠ s.dstAddr.toNat + j) : (encodeWith table s).mem.read a = s.mem.read a := by
  rcases encodeWith_mem (table := table) hm hu with e | e
  · rw [e]
  · rw [e]
    exact read_putStream_outside hm (codeStream_isBits _ _) (State.encoded_inSpace table hu.2.1) fun k hk =>
      ha _ (State.capacity_div (s.encoded_bound table hk))

/-- DECODE's loop on a state whose regions may be used (R140). -/
theorem decode_loop {s : State} (t : TreeNode) (hm : s.mem.wf = true) (hu : s.buffersUsable) :
    let u := unpackLoop t s.srcAddr.toNat s.dstAddr.toNat s.endOfBits s.dstLen.toNat s.bitOffset.toNat 0 s.mem
    ∃ ws bs, List.Forall₂ (isWord t) ws bs ∧ u.out = bs.length ∧ bs.length ≤ s.dstLen.toNat ∧
      u.mem = s.mem.writeBytes s.dstAddr.toNat bs ∧ s.bitOffset.toNat ≤ u.pos ∧ (bs ≠ [] → u.pos ≤ s.endOfBits) ∧
      (bs = [] → u.pos = s.bitOffset.toNat) ∧
      bitsFrom s.mem s.srcAddr.toNat s.bitOffset.toNat (u.pos - s.bitOffset.toNat) = ws.flatten ∧
      stopReason t s.mem s.srcAddr.toNat s.endOfBits s.dstLen.toNat u bs.length ∧
      s.dstAddr.toNat + bs.length ≤ 2 ^ 64 ∧ u.pos ≤ Config.MAXV := by
  have hsp : s.dstAddr.toNat + 0 + s.dstLen.toNat ≤ 2 ^ 64 := by
    have h1 := s.dstAddr.isLt
    by_cases h : s.dstLen.toNat = 0
    · omega
    · have := hu.2.1.space (Nat.le_refl _) h; omega
  obtain ⟨ws, bs, h1, h2, h3, h4, h5, h6, h7, h8, h9⟩ := unpackLoop_spec (t := t) (src := s.srcAddr.toNat) (dst := s.dstAddr.toNat)
    (stop := s.endOfBits) (room := s.dstLen.toNat) (pos := s.bitOffset.toNat) (out := 0) hm hsp
    (fun p hp k hk => State.unpack_disjoint hu hp hk)
  refine ⟨ws, bs, h1, by simpa using h2, h3, by simpa using h4, h5, h6, h7, h8, h9, by omega, ?_⟩
  by_cases hb : bs = []
  · rw [h7 hb]
    exact Nat.le_sub_one_of_lt s.bitOffset.isLt
  · exact Nat.le_trans (h6 hb) s.endOfBits_le

theorem decodeWith_wf {s : State} {t : TreeNode} (hm : s.mem.wf = true) (hu : s.buffersUsable) : (decodeWith t s).mem.wf = true := by
  obtain ⟨ws, bs, -, -, -, h4, -, -, -, -, -, h10, -⟩ := decode_loop t hm hu
  show (unpackLoop _ _ _ _ _ _ _ _).mem.wf = true
  rw [h4]
  exact Memory.writeBytes_wf bs hm h10

theorem treeExport_wf {s : State} {t : TreeNode} (hm : s.mem.wf = true) (hu : s.destUsable) (hn : imageLen t ≤ s.dstLen.toNat) :
    (s.mem.writeBytes s.dstAddr.toNat (image t)).wf = true := by
  refine Memory.writeBytes_wf _ hm ?_
  rw [image_length]
  exact hu.space hn (by have := imageLen_pos t; omega)

theorem importFrom_sound (s : State) (b : List Byte) : dictionarySound (importFrom s b).root = true := by
  rcases importFrom_cases s b with ⟨t, used, hp, hv, e⟩ | ⟨-, e⟩
  · rw [e]; exact parse_valid_sound hp hv
  · rw [e]; rfl

theorem importFrom_mem (s : State) (b : List Byte) : (importFrom s b).mem = s.mem := by
  rcases importFrom_cases s b with ⟨t, used, -, -, e⟩ | ⟨-, e⟩ <;> rw [e] <;> rfl

theorem State.source_length (s : State) : s.source.length = s.srcLen.toNat := Memory.readBytes_length _ _ _

/-- ENCODE that ends OK has encoded the whole source (R125, R127, R183). -/
theorem execEncode_ok {s u : State} (hm : s.mem.wf = true) (h : execEncode s = .next u) (hc : u.cause = .ok) :
    ∃ t, s.root = some t ∧ s.srcLen.toNat ≠ 0 ∧ s.dstLen.toNat ≠ 0 ∧ s.buffersUsable ∧ s.srcLen.toNat ≤ Config.SRC_CLAMP ∧
      (∀ b ∈ s.source, ((derive t).entry b).isCode = true) ∧
      s.bitOffset.toNat + streamLen (derive t) s.source ≤ s.capacity ∧
      u = (s.setMem (putStream s.dstAddr.toNat s.bitOffset.toNat (codeStream (derive t) s.source) s.mem)).finish .ok s.srcLen.toNat
        (s.bitOffset.toNat + streamLen (derive t) s.source) := by
  rcases execEncode_eq_next.mp h with ⟨-, rfl⟩ | ⟨t, -, -, rfl⟩ | ⟨t, h1, h2, h3, rfl⟩
  · cases hc
  · cases hc
  · obtain ⟨hs, hd⟩ := not_or.mp h2
    have hu := State.bothProblem_eq_none.mp h3
    cases hp : symbolProblem (derive t) s.clampedSource with
    | some c =>
      have : encodeWith (derive t) s = s.finish c 0 0 := by unfold encodeWith; rw [hp]
      rw [this] at hc
      rcases symbolProblem_cause hp with rfl | rfl <;> cases hc
    | none =>
      have hcode := symbolProblem_none.mp hp
      have e := encodeWith_eq hm hu hcode
      rw [e] at hc ⊢
      have hall : (s.encoded (derive t)).length = s.srcLen.toNat := by
        by_contra hne
        have hc' : packCause s (s.encoded (derive t)).length = .ok := hc
        unfold packCause at hc'
        rw [if_neg hne] at hc'
        split at hc' <;> cases hc'
      have hle : s.srcLen.toNat ≤ s.clampedLen := by
        rw [← hall, State.encoded_length]
        exact Nat.le_trans (fitCount_le _ _ _ _) (Nat.le_of_eq s.clampedSource_length)
      have hcl : s.clampedLen = s.srcLen.toNat := Nat.le_antisymm s.clampedLen_le hle
      have hsrc : s.clampedSource = s.source := by unfold State.clampedSource State.source; rw [hcl]
      have henc : s.encoded (derive t) = s.source := by
        unfold State.encoded
        rw [← State.encoded_length, hall, hsrc, List.take_of_length_le (Nat.le_of_eq s.source_length)]
      rw [henc, s.source_length]
      refine ⟨t, h1, hs, hd, hu, Nat.le_trans hle (Nat.min_le_right _ _), hsrc ▸ hcode, ?_, ?_⟩
      · rcases fitCount_bound (derive t) s.capacity s.bitOffset.toNat s.clampedSource with h0 | h0
        · rw [← State.encoded_length, hall] at h0
          exact absurd h0 hs
        · rwa [← State.encoded, henc] at h0
      · unfold packCause
        rw [if_pos rfl]

/-- ENCODE ends OK when every byte has a code, the source is within the clamp, and all of it fits (R125, R127, R183). -/
theorem execEncode_all {s : State} {t : TreeNode} (hm : s.mem.wf = true) (hr : s.root = some t) (h1 : s.srcLen.toNat ≠ 0)
    (h2 : s.dstLen.toNat ≠ 0) (hu : s.buffersUsable) (hn : s.srcLen.toNat ≤ Config.SRC_CLAMP)
    (hc : ∀ b ∈ s.source, ((derive t).entry b).isCode = true)
    (hfit : s.bitOffset.toNat + streamLen (derive t) s.source ≤ s.capacity) :
    execEncode s = .next ((s.setMem (putStream s.dstAddr.toNat s.bitOffset.toNat (codeStream (derive t) s.source) s.mem)).finish .ok
      s.srcLen.toNat (s.bitOffset.toNat + streamLen (derive t) s.source)) := by
  have hcl : s.clampedLen = s.srcLen.toNat := Nat.min_eq_left hn
  have hsrc : s.clampedSource = s.source := by unfold State.clampedSource State.source; rw [hcl]
  have henc : s.encoded (derive t) = s.source := by
    unfold State.encoded
    rw [hsrc, fitCount_all hc hfit, List.take_length]
  rw [execEncode_run hr (not_or.mpr ⟨h1, h2⟩), State.bothProblem_eq_none.mpr hu, memoryPhase, encodeWith_eq hm hu (hsrc ▸ hc), henc,
    s.source_length, packCause, if_pos rfl]

/-- A dictionary CREATE built has a leaf for every byte of the source (R94, R204). -/
theorem create_mem_bytes {buf : List Byte} {t : TreeNode} (h : combine (count buf) = some t) {b : Byte} (hb : b ∈ buf) : b ∈ t.bytes := by
  by_contra hn
  have h0 := create_freq buf b
  rw [h, freqOfDict_eq] at h0
  change histAt t.leaves b = _ at h0
  rw [histAt_of_not_mem hn] at h0
  have := List.count_pos_iff.mpr hb
  omega

/-- A byte of a leaf that is not too deep has a code (R112). -/
theorem derive_isCode {t : TreeNode} (hn : t.bytes.Nodup) {b : Byte} (hb : b ∈ t.bytes) (hw : ∀ d, (derive t).entry b ≠ .wide d) :
    ((derive t).entry b).isCode = true := by
  have := derive_absent_iff hn b
  cases he : (derive t).entry b with
  | absent => exact absurd hb (this.mp he)
  | wide d => exact absurd he (hw d)
  | code pat len => rfl

/-- The valid bits of a buffer whose last bit position is `n`, described by a byte length and an end offset (R142, R150). -/
theorem State.endOfBits_of_position {s : State} {n : Nat} (h0 : 0 < n) (hn : n ≤ Config.MAXV) (h1 : s.srcLen = BitVec.ofNat 64 ((n + 7) / 8))
    (h2 : s.endBitOffset = BitVec.ofNat 3 (n % 8)) : s.endOfBits = n := by
  have e1 : s.srcLen.toNat = (n + 7) / 8 := by
    rw [h1, BitVec.toNat_ofNat, Nat.mod_eq_of_lt]
    simp only [Config.MAXV] at hn
    omega
  have e2 : s.endBitOffset.toNat = n % 8 := by
    rw [h2, BitVec.toNat_ofNat]
    omega
  unfold State.endOfBits
  rw [e1, e2]
  simp only [Config.MAXV] at hn ⊢
  split
  · omega
  · split <;> omega

/-- Only four commands assign ROOT (R16). -/
theorem exec_keeps_root {i : Instr} {s t : State} (hi : i ∉ [Instr.create, .createPart, .treeImport, .clear])
    (h : exec i s = .next t) : t.root = s.root := by
  cases i with
  | nop => cases h; rfl
  | size => cases h; rfl
  | isInit => cases h; rfl
  | clear => simp at hi
  | create => simp at hi
  | createPart => simp at hi
  | treeImport => simp at hi
  | encode =>
    rcases execEncode_eq_next.mp h with ⟨-, rfl⟩ | ⟨t, -, -, rfl⟩ | ⟨t, -, -, hp, rfl⟩
    · rfl
    · rfl
    · rcases encodeWith_cases (derive t) s with ⟨c, -, e⟩ | ⟨-, p, e⟩ <;> rw [e] <;> rfl
  | decode =>
    rcases execDecode_eq_next.mp h with ⟨-, rfl⟩ | ⟨t, -, hp, rfl⟩ <;> rfl
  | treeExport =>
    rcases execTreeExport_eq_next.mp h with ⟨-, rfl⟩ | ⟨t, -, -, rfl⟩ | ⟨t, -, hn, hp, rfl⟩ <;> rfl

/-- Every command that answers a next state keeps a sound dictionary and a canonical memory (R13 to R16). -/
theorem exec_keeps_inv {i : Instr} {s u : State} (hi : s.Inv) (h : exec i s = .next u) : u.Inv := by
  obtain ⟨hr, hm⟩ := hi
  cases i with
  | nop => cases h; exact ⟨hr, hm⟩
  | size => cases h; exact ⟨hr, hm⟩
  | isInit => cases h; exact ⟨hr, hm⟩
  | clear => cases h; exact ⟨rfl, hm⟩
  | create =>
    obtain ⟨-, rfl⟩ := execCreate_eq_next.mp h
    exact ⟨create_sound (by rw [State.source_length]; exact Nat.le_sub_one_of_lt s.srcLen.isLt), hm⟩
  | createPart =>
    rcases execCreatePart_eq_next.mp h with ⟨-, rfl⟩ | ⟨h1, -, rfl⟩
    · exact ⟨hr, hm⟩
    · exact ⟨createPart_sound hr (by rw [State.source_length]; exact h1), hm⟩
  | encode =>
    rcases execEncode_eq_next.mp h with ⟨-, rfl⟩ | ⟨t, -, -, rfl⟩ | ⟨t, h1, -, h3, rfl⟩
    · exact ⟨hr, hm⟩
    · exact ⟨hr, hm⟩
    · refine ⟨?_, encodeWith_wf hm (State.bothProblem_eq_none.mp h3)⟩
      rcases encodeWith_cases (derive t) s with ⟨c, -, e⟩ | ⟨-, p, e⟩ <;> rw [e] <;> exact hr
  | decode =>
    rcases execDecode_eq_next.mp h with ⟨-, rfl⟩ | ⟨t, -, h3, rfl⟩
    · exact ⟨hr, hm⟩
    · exact ⟨hr, decodeWith_wf hm (State.bothProblem_eq_none.mp h3)⟩
  | treeExport =>
    rcases execTreeExport_eq_next.mp h with ⟨-, rfl⟩ | ⟨t, -, -, rfl⟩ | ⟨t, -, h2, h3, rfl⟩
    · exact ⟨hr, hm⟩
    · exact ⟨hr, hm⟩
    · exact ⟨hr, treeExport_wf hm (State.dstProblem_eq_none.mp h3) h2⟩
  | treeImport =>
    obtain ⟨-, rfl⟩ := execTreeImport_eq_next.mp h
    exact ⟨importFrom_sound s _, by rw [importFrom_mem]; exact hm⟩

/-- In a sound state a size fits a register (R181). -/
theorem State.Inv.size_lt {s : State} (h : s.Inv) : s.size < 2 ^ 64 :=
  Nat.lt_of_le_of_lt (dictionarySound_size_le h.1) (by decide)

end Sys2Proof.Machine
end

