-- ==== Sys2Proof/Laws/PerInstr.lean ====
section
/-! SUPPORT. Families of facts about every command, one lemma per constructor. -/

namespace Sys2Proof.Laws

/-- The command's word is one of the table's ten (its value below 10, so bits 63:8 are zero, R61) and the decoder reads the command
back from it (R62, R63). -/
def WordOfTable.Statement (i : Instr) : Prop :=
  i.wellFormed = true ∧ (encode i).toNat < 10 ∧ decodeWord (encode i) = .command i

theorem WordOfTable.nop : WordOfTable.Statement .nop := ⟨rfl, by decide, rfl⟩
theorem WordOfTable.create : WordOfTable.Statement .create := ⟨rfl, by decide, rfl⟩
theorem WordOfTable.createPart : WordOfTable.Statement .createPart := ⟨rfl, by decide, rfl⟩
theorem WordOfTable.size : WordOfTable.Statement .size := ⟨rfl, by decide, rfl⟩
theorem WordOfTable.isInit : WordOfTable.Statement .isInit := ⟨rfl, by decide, rfl⟩
theorem WordOfTable.encode : WordOfTable.Statement .encode := ⟨rfl, by decide, rfl⟩
theorem WordOfTable.decode : WordOfTable.Statement .decode := ⟨rfl, by decide, rfl⟩
theorem WordOfTable.treeExport : WordOfTable.Statement .treeExport := ⟨rfl, by decide, rfl⟩
theorem WordOfTable.treeImport : WordOfTable.Statement .treeImport := ⟨rfl, by decide, rfl⟩
theorem WordOfTable.clear : WordOfTable.Statement .clear := ⟨rfl, by decide, rfl⟩

end Sys2Proof.Laws
end

