-- ==== Sys2Proof/Laws/Step.lean ====
section
/-! SUPPORT. What one action of the host and one step can do, said once. -/

namespace Sys2Proof.Machine

theorem Reg.ofOffset_offset (r : Reg) : Reg.ofOffset r.offset = some r := by cases r <;> rfl

theorem Reg.ofOffset_some {o : Nat} {r : Reg} (h : Reg.ofOffset o = some r) : o = r.offset := by
  unfold Reg.ofOffset at h
  split at h <;> cases h <;> rfl

theorem Reg.ofOffset_none {o : Nat} : Reg.ofOffset o = none ↔ ∀ r : Reg, r.offset ≠ o := by
  constructor
  · intro h r e
    rw [← e, Reg.ofOffset_offset] at h
    cases h
  · intro h
    cases e : Reg.ofOffset o with
    | none => rfl
    | some r => exact absurd (Reg.ofOffset_some e).symm (h r)

theorem alignedAccess_reg (r : Reg) : alignedAccess r.offset 8 = true := by cases r <;> rfl

theorem alignedAccess_iff {o n : Nat} : alignedAccess o n = true ↔ n = 8 ∧ o % 8 = 0 := by
  simp [alignedAccess]

theorem perform_write {r : Reg} (h : r ≠ .cmd) (v : Word) (s : State) : perform (.write r v) s = .next (s.writeReg r v) := by
  cases r <;> first | exact absurd rfl h | rfl

theorem perform_cmd (v : Word) (s : State) : perform (.write .cmd v) s = runCommand v s := rfl

theorem perform_read (r : Reg) (s : State) : perform (.read r) s = .next (s.reply (s.readReg r)) := by
  cases r <;> rfl

theorem runCommand_command {v : Word} {i : Instr} (h : decodeWord v = .command i) (s : State) : runCommand v s = exec i s := by
  unfold runCommand
  rw [h]

theorem runCommand_illegal {v : Word} {w : Illegal} (h : decodeWord v = .illegal w) (s : State) :
    runCommand v s = .next (s.finish .illegalCmd 0 0) := by
  unfold runCommand
  rw [h]
  rfl

theorem step_idle {s : State} (h : s.pending = []) : step s = .next s := by
  unfold step State.nextAction
  rw [h]

theorem step_cons {s : State} {a : HostAction} {rest : List HostAction} (h : s.pending = a :: rest) :
    step s = perform a (s.setPending rest) := by
  unfold step State.nextAction
  rw [h]

/-- A step is idle or performs the next action of the host. -/
theorem step_cases (s : State) :
    (s.pending = [] ∧ step s = .next s) ∨ ∃ a rest, s.pending = a :: rest ∧ step s = perform a (s.setPending rest) := by
  cases h : s.pending with
  | nil => exact .inl ⟨rfl, step_idle h⟩
  | cons a rest => exact .inr ⟨a, rest, rfl, step_cons h⟩

/-- Register writes, an idle or a reset block, and host accesses to memory: what an action other than a CMD write can do. -/
theorem perform_cases {a : HostAction} {s u : State} (h : perform a s = .next u) :
    (∃ v i, a = .wr 0 8 v ∧ decodeWord v = .command i ∧ exec i s = .next u) ∨
    (∃ v w, a = .wr 0 8 v ∧ decodeWord v = .illegal w ∧ u = s.finish .illegalCmd 0 0) ∨
    (∃ o v, a = .wr o 8 v ∧ (u = s ∨ ∃ r, u = s.writeReg r v)) ∨
    (∃ v, u = s.reply v) ∨
    (∃ x b, a = .memWr x b ∧ u = s.setMem (s.mem.write x.toNat b)) ∨
    (a = .reset ∧ u = s.blockReset) := by
  cases a with
  | wr o n v =>
    simp only [perform] at h
    split at h
    · rename_i ha
      obtain ⟨rfl, -⟩ := alignedAccess_iff.mp ha
      unfold writeOffset at h
      split at h
      · cases h; exact .inr (.inr (.inl ⟨o, v, rfl, .inl rfl⟩))
      · rename_i he
        obtain rfl := Reg.ofOffset_some he
        unfold runCommand at h
        split at h
        · exact .inl ⟨v, _, rfl, ‹_›, h⟩
        · cases h; exact .inr (.inl ⟨v, _, rfl, ‹_›, rfl⟩)
      · cases h; exact .inr (.inr (.inl ⟨o, v, rfl, .inr ⟨_, rfl⟩⟩))
    · cases h
  | rd o n =>
    simp only [perform] at h
    split at h
    · cases h; exact .inr (.inr (.inr (.inl ⟨_, rfl⟩)))
    · cases h
  | memWr x b => cases h; exact .inr (.inr (.inr (.inr (.inl ⟨x, b, rfl, rfl⟩))))
  | memRd x => cases h; exact .inr (.inr (.inr (.inl ⟨_, rfl⟩)))
  | reset => cases h; exact .inr (.inr (.inr (.inr (.inr ⟨rfl, rfl⟩))))

theorem writeReg_inv {s : State} (h : s.Inv) (r : Reg) (v : Word) : (s.writeReg r v).Inv := by
  cases r <;> exact h

end Sys2Proof.Machine
end

