-- ==== Sys2Proof/Tests/Slice0.lean ====
section
/-! SUPPORT. The model's own tests: the WellFormed smoke, the command words written out from R61 and R63, one step of each command
on the vectors of 95_test_vectors.md (the vector's id stands in the name), and for each obligation with hypotheses a witness that
meets them all. -/

namespace Sys2Proof.Tests

open Sys2Proof Sys2Proof.Machine

/-! ## WellFormed. The command format has no field (R61), so no command is ill-formed; register accesses can be (R28, U7). -/

theorem test_narrow_access_ill_formed : (HostAction.wr 0x18 4 10).wellFormed = false ∧ (HostAction.rd 0x40 1).wellFormed = false := by
  decide

theorem test_wide_access_ill_formed : (HostAction.wr 0x18 16 10).wellFormed = false ∧ (HostAction.rd 0x40 16).wellFormed = false := by
  decide

theorem test_misaligned_access_ill_formed : (HostAction.wr 0x1C 8 10).wellFormed = false ∧ (HostAction.rd 0x41 8).wellFormed = false := by
  decide

theorem test_aligned_access_well_formed : (HostAction.wr 0x18 8 10).wellFormed = true ∧ (HostAction.rd 0x40 8).wellFormed = true := by
  decide

/-! ## Decoding. Bits 63:8 zero, bits 7:0 the opcode (R61), the opcodes of R63. -/

theorem test_decode_nop : decodeWord (0#56 ++ 0b00000000#8) = .command .nop := by decide
theorem test_decode_create : decodeWord (0#56 ++ 0b00000001#8) = .command .create := by decide
theorem test_decode_createPart : decodeWord (0#56 ++ 0b00000010#8) = .command .createPart := by decide
theorem test_decode_size : decodeWord (0#56 ++ 0b00000011#8) = .command .size := by decide
theorem test_decode_isInit : decodeWord (0#56 ++ 0b00000100#8) = .command .isInit := by decide
theorem test_decode_encode : decodeWord (0#56 ++ 0b00000101#8) = .command .encode := by decide
theorem test_decode_decode : decodeWord (0#56 ++ 0b00000110#8) = .command .decode := by decide
theorem test_decode_treeExport : decodeWord (0#56 ++ 0b00000111#8) = .command .treeExport := by decide
theorem test_decode_treeImport : decodeWord (0#56 ++ 0b00001000#8) = .command .treeImport := by decide
theorem test_decode_clear : decodeWord (0#56 ++ 0b00001001#8) = .command .clear := by decide

/-- CMD-5: bit 8 beside a good opcode; R64: the first reserved opcode. -/
theorem test_decode_reserved : decodeWord (1#56 ++ 0b00000101#8) = .illegal .reservedBits ∧
    decodeWord (0#56 ++ 0b00001010#8) = .illegal .reservedOpcode := by decide

theorem test_decodeTableWord : decodeTableWord 64 5 = some .encode ∧ decodeTableWord 64 10 = none ∧ decodeTableWord 64 0x105 = none := by
  decide

/-- The first transactions of program P1. -/
theorem test_assemble_P1 : assemble [.src 0x1000 10, .cmd .create, .dst 0x2000 3, .off 0, .cmd .encode, .offEnd 0 3, .res] =
    [.wr 0x10 8 0x1000, .wr 0x18 8 0xA, .wr 0x00 8 0x1, .wr 0x20 8 0x2000, .wr 0x28 8 0x3, .wr 0x30 8 0x0, .wr 0x00 8 0x5,
      .wr 0x30 8 0x0, .wr 0x38 8 0x3, .rd 0x08 8, .rd 0x40 8, .rd 0x48 8] := by decide

theorem test_assemble_mem : assemble [.mem 0xFFFFFFFFFFFFFFFF [0xAF, 0x02]] = [.memWr 0xFFFFFFFFFFFFFFFF 0xAF, .memWr 0 0x02] := by decide

/-! ## The small states the tests step. -/

/-- T1 of vector TB-1. -/
def t1 : TreeNode := .node (.leaf 0x41 4) (.node (.leaf 0x42 3) (.node (.leaf 0x44 1) (.leaf 0x43 2) 3) 6) 10

/-- The degenerate tree of vector TB-6. -/
def leafA : TreeNode := .leaf 0x41 4

/-- The chain of vector CT-9: leaves 30 and 31 are at depth 9. -/
def chain : TreeNode :=
  .node (.leaf 0x39 55) (.node (.leaf 0x38 34) (.node (.leaf 0x37 21) (.node (.leaf 0x36 13) (.node (.leaf 0x35 8) (.node (.leaf 0x34 5)
    (.node (.leaf 0x33 3) (.node (.leaf 0x32 2) (.node (.leaf 0x30 1) (.leaf 0x31 1) 2) 4) 7) 12) 20) 33) 54) 88) 143

/-- "AAAABBBCCD". -/
def message : List Byte := [0x41, 0x41, 0x41, 0x41, 0x42, 0x42, 0x42, 0x43, 0x43, 0x44]

/-- IMG-1, the image of T1. -/
def image1 : List Byte :=
  [0x00, 0x01, 0x41, 4, 0, 0, 0, 0, 0, 0, 0, 0x00, 0x01, 0x42, 3, 0, 0, 0, 0, 0, 0, 0] ++
  [0x00, 0x01, 0x44, 1, 0, 0, 0, 0, 0, 0, 0, 0x01, 0x43, 2, 0, 0, 0, 0, 0, 0, 0]

/-- A dictionary, source bytes at 0x1000, destination bytes at 0x2000, an offset and an end offset. -/
def bench (root : Option TreeNode) (src dst : List Byte) (off : Word) (stop : BitVec 3) : State :=
  { State.reset with
    root := root
    srcAddr := 0x1000
    srcLen := BitVec.ofNat 64 src.length
    dstAddr := 0x2000
    dstLen := BitVec.ofNat 64 dst.length
    bitOffset := off
    endBitOffset := stop
    mem := Memory.writeBytes (Memory.writeBytes [] 0x1000 src) 0x2000 dst }

/-- The next state of a command, if there is one. -/
def after (i : Instr) (s : State) : Option State :=
  match exec i s with
  | .next t => some t
  | .fault _ => none
  | .refused _ => none

/-- The reason a command is refused, if it is. -/
def refusal (i : Instr) (s : State) : Option Refusal :=
  match exec i s with
  | .next _ => none
  | .fault _ => none
  | .refused r => some r

/-- Cause, (RES0, RES1) and the destination bytes after a command. -/
def result (i : Instr) (s : State) : Option (Cause × Nat × Nat × List Byte) :=
  (after i s).map fun t => (t.cause, t.res0.toNat, t.res1.toNat, t.mem.readBytes 0x2000 s.dstLen.toNat)

/-- Cause, (RES0, RES1) and ROOT after a command. -/
def rooted (i : Instr) (s : State) : Option (Cause × Nat × Nat × Option TreeNode) :=
  (after i s).map fun t => (t.cause, t.res0.toNat, t.res1.toNat, t.root)

/-! ## One step of each command. -/

/-- MISC-1: NOP clears a previous cause. -/
theorem test_nop_MISC1 : rooted .nop { bench (some t1) [] [] 0 0 with cause := .unknownSymbol, res0 := 5, res1 := 6 } =
    some (.ok, 0, 0, some t1) := by decide

theorem test_create_TB1 : rooted .create (bench (some leafA) message [] 0 0) = some (.ok, 10, 0, some t1) := by decide

theorem test_create_TB3 : rooted .create (bench none [0x10, 0x20, 0x30, 0x40] [] 0 0) =
    some (.ok, 4, 0, some (.node (.node (.leaf 0x10 1) (.leaf 0x20 1) 2) (.node (.leaf 0x30 1) (.leaf 0x40 1) 2) 4)) := by decide

theorem test_createPart_TB8 : rooted .createPart (bench (some t1) [0x44, 0x44, 0x44, 0x44, 0x45] [] 0 0) = some (.ok, 15, 0,
    some (.node (.node (.leaf 0x42 3) (.node (.leaf 0x45 1) (.leaf 0x43 2) 3) 6) (.node (.leaf 0x41 4) (.leaf 0x44 5) 9) 15)) := by decide

theorem test_createPart_TB11 : rooted .createPart { bench (some t1) [] [] 0 0 with srcLen := 0xFFFFFFFFFFFFFFF6 } =
    some (.freqOverflow, 10, 0, some t1) := by decide

theorem test_size_MISC1 : rooted .size (bench (some t1) [] [] 0 0) = some (.ok, 10, 0, some t1) ∧
    rooted .size State.reset = some (.ok, 0, 0, none) := by decide

theorem test_isInit_MISC1 : rooted .isInit (bench (some t1) [] [] 0 0) = some (.ok, 1, 0, some t1) ∧
    rooted .isInit State.reset = some (.ok, 0, 0, none) := by decide

theorem test_encode_ENC2 : result .encode (bench (some t1) message [0xFF, 0xFF, 0xFF, 0xFF] 3 0) =
    some (.ok, 10, 22, [0x7F, 0x15, 0xE0, 0xFF]) := by decide +kernel

theorem test_encode_ENC12 : result .encode (bench (some t1) [0x41, 0x41, 0x5A] [0x55, 0x55] 0 0) =
    some (.unknownSymbol, 0, 0, [0x55, 0x55]) := by decide

theorem test_decode_DEC6 : (result .decode (bench (some t1) [0xAF, 0x02, 0x04] (List.replicate 10 0xEE) 0 2)) =
    some (.ok, 16, 9, [0x41, 0x41, 0x41, 0x41, 0x42, 0x42, 0x42, 0x43, 0x43, 0xEE]) := by decide +kernel

theorem test_decode_DEC14 : result .decode (bench (some leafA) [0xA5] [0, 0, 0] 0 0) =
    some (.bufferExhausted, 3, 3, [0x41, 0x41, 0x41]) := by decide

theorem test_treeExport_EXP1 : result .treeExport (bench (some t1) [] (List.replicate 45 0xEE) 0 0) =
    some (.ok, 43, 43, image1 ++ [0xEE, 0xEE]) := by decide +kernel

theorem test_treeExport_EXP3 : result .treeExport (bench (some t1) [] (List.replicate 42 0xEE) 0 0) =
    some (.bufferExhausted, 0, 43, List.replicate 42 0xEE) := by decide +kernel

theorem test_treeImport_IMP2 : rooted .treeImport (bench none (image1 ++ [0x99, 0x99]) [] 0 0) = some (.ok, 43, 10, some t1) := by
  decide +kernel

/-- IMP-7: byte 41 twice. -/
theorem test_treeImport_IMP7 : rooted .treeImport
    (bench (some t1) [0x00, 0x01, 0x41, 1, 0, 0, 0, 0, 0, 0, 0, 0x01, 0x41, 2, 0, 0, 0, 0, 0, 0, 0] [] 0 0) =
    some (.malformedTree, 0, 0, none) := by decide +kernel

theorem test_clear_TB12 : rooted .clear (bench (some t1) message [] 0 0) = some (.ok, 0, 0, none) := by decide

/-- FC-2: equal frequencies in ascending byte value. -/
theorem test_count_FC2 : count [0x02, 0x01, 0x02, 0x01, 0x03] = [.leaf 0x03 1, .leaf 0x01 2, .leaf 0x02 2] := by decide

/-- CT-9: a leaf at depth 8 has a code, a leaf at depth 9 has none. -/
theorem test_derive_CT9 : (derive chain).entry 0x39 = .code 1 1 ∧ (derive chain).entry 0x32 = .code 128 8 ∧
    (derive chain).entry 0x30 = .wide 9 ∧ (derive chain).entry 0x41 = .absent := by decide

/-- The three grounds of R49. -/
theorem test_refusals_R49 :
    refusal .create { bench none [1, 2] [] 0 0 with srcAddr := 0xFFFFFFFFFFFFFFFF } = some .regionWraps ∧
    refusal .create { bench none [1, 2] [] 0 0 with platform := ⟨[⟨0x1001, 1⟩]⟩ } = some .regionNotAccessible ∧
    refusal .encode { bench (some t1) message [0] 0 0 with dstAddr := 0x1009 } = some .regionsOverlap := by decide

/-- DEC-17: writing 11 to END_BIT_OFFSET stores 3, which then reads back. -/
theorem test_write_DEC17 : ∃ s, core.run 2 { State.reset with pending := assemble [.wr .endBitOffset 11, .rd .endBitOffset] } = .next s ∧
    s.endBitOffset = 3 ∧ s.replies = [3] := ⟨_, rfl, by decide⟩

/-- R180: the number STATUS returns for each cause, read by the host (R19). -/
theorem test_read_STATUS_R180 :
    [Cause.ok, .uninit, .unknownSymbol, .bufferExhausted, .malformedTree, .empty, .codeWidth, .freqOverflow, .clamped, .illegalCmd].map
      (fun c => ({ State.reset with cause := c } : State).readOffset 0x08) = [0, 1, 2, 3, 4, 5, 6, 7, 8, 9] := by decide

/-- TB-8, the list after MERGE's four pairs: E1, C2, B3, A4, D5. -/
theorem test_merge_TB8 : merge [.leaf 0x45 1, .leaf 0x44 4] (some t1) =
    [.leaf 0x45 1, .leaf 0x43 2, .leaf 0x42 3, .leaf 0x41 4, .leaf 0x44 5] := by decide

/-- TB-9, the order of equal frequencies: the recovered 41 before the recovered 43, both after the fresh 44. -/
theorem test_merge_TB9 : merge [.leaf 0x44 1] (some (.node (.leaf 0x41 1) (.leaf 0x43 1) 2)) =
    [.leaf 0x44 1, .leaf 0x41 1, .leaf 0x43 1] := by decide

/-! ## Witnesses: states and operands that meet all hypotheses of an obligation together. -/

/-- A state whose host has these actions left. -/
def waiting (actions : List HostAction) : State := { bench (some t1) message [] 0 0 with pending := actions }

/-- The three clauses at the ends of their ranges: 0x100 and 2^64 - 1; 0x0A and 0xFF; 0x00 and 0x09. -/
theorem witness_EveryWordSelectsOneBehaviour :
    (0x100#64).toNat / 256 ≠ 0 ∧ (0xFFFFFFFFFFFFFFFF#64).toNat / 256 ≠ 0 ∧
    ((0x0A#64).toNat / 256 = 0 ∧ 10 ≤ (0x0A#64).toNat % 256) ∧ ((0xFF#64).toNat / 256 = 0 ∧ 10 ≤ (0xFF#64).toNat % 256) ∧
    ((0x00#64).toNat / 256 = 0 ∧
      [Instr.nop, .create, .createPart, .size, .isInit, .encode, .decode, .treeExport, .treeImport, .clear][(0x00#64).toNat % 256]? = some .nop) ∧
    ((0x09#64).toNat / 256 = 0 ∧
      [Instr.nop, .create, .createPart, .size, .isInit, .encode, .decode, .treeExport, .treeImport, .clear][(0x09#64).toNat % 256]? =
        some .clear) := by decide

theorem witness_DecodeAndEncodeAgree : Instr.wellFormed .encode = true ∧ decodeWord 5 = .command .encode := by decide

theorem witness_CmdWriteRunsTheDecodedCommand :
    (waiting [.wr 0x00 8 1]).pending = .wr 0x00 8 1 :: [] ∧ decodeWord 1 = .command .create ∧ decodeTableWord 64 9 = some .clear := by decide

theorem witness_ReservedWordEndsIllegal :
    ∀ w ∈ [0x0A#64, 0xFF#64, 0x100#64, 0x8000000000000001#64],
      (waiting [.wr 0x00 8 w, .reset]).pending = .wr 0x00 8 w :: [.reset] ∧ (10 ≤ w.toNat % 256 ∨ w.toNat / 256 ≠ 0) := by
  intro w hw
  refine ⟨rfl, ?_⟩
  simp only [List.mem_cons, List.not_mem_nil, or_false] at hw
  rcases hw with rfl | rfl | rfl | rfl <;> simp

theorem witness_IdleStepKeepsEverything : (waiting []).pending = [] := by decide

/-- Each clause at the ends of its range: reads and writes at the first and last offsets, beside the table, and of a wrong shape. -/
theorem witness_HostRegisterAccess :
    ((waiting [.rd 0x00 8]).pending = .rd 0x00 8 :: [] ∧ (waiting [.rd 0x48 8]).pending = .rd 0x48 8 :: [] ∧
      ((0x48 : Nat), (0 : Word)) ∈ [((0x00 : Nat), (0 : Word)), (0x48, (waiting [.rd 0x48 8]).res1)]) ∧
    (∀ c ∈ [(Cause.ok, (0 : Word)), (.illegalCmd, 9)], ({ waiting [.rd 0x08 8] with cause := c.1 } : State).pending = .rd 0x08 8 :: [] ∧
      ({ waiting [.rd 0x08 8] with cause := c.1 } : State).cause = c.1) ∧
    ((waiting [.wr 0x08 8 7]).pending = .wr 0x08 8 7 :: [] ∧ (waiting [.wr 0x48 8 7]).pending = .wr 0x48 8 7 :: []) ∧
    ((0x50 % 8 = 0 ∧ 0x48 < 0x50) ∧ (waiting [.wr 0x50 8 7]).pending = .wr 0x50 8 7 :: [] ∧ (waiting [.rd 0x50 8]).pending = .rd 0x50 8 :: []) ∧
    (¬(4 = 8 ∧ 0x48 % 8 = 0) ∧ ¬(8 = 8 ∧ 0x49 % 8 = 0) ∧ (waiting [.wr 0x48 4 7]).pending = .wr 0x48 4 7 :: [] ∧
      (waiting [.rd 0x49 8]).pending = .rd 0x49 8 :: []) := by decide

theorem witness_HostMemoryAccess : (waiting [.memWr 0xFFFFFFFFFFFFFFFF 7]).Inv ∧
    (waiting [.memWr 0xFFFFFFFFFFFFFFFF 7]).pending = .memWr 0xFFFFFFFFFFFFFFFF 7 :: [] ∧
    (waiting [.memRd 0]).Inv ∧ (waiting [.memRd 0]).pending = .memRd 0 :: [] := by decide

theorem witness_ResetGivesEveryResetValue : (waiting [.reset, .wr 0x00 8 3]).pending = .reset :: [.wr 0x00 8 3] := by decide

theorem witness_SizeGivesTheLeafTotal : (bench (some t1) [] [] 0 0).Inv ∧ (bench none [] [] 0 0).Inv ∧
    (bench (some (.leaf 0x41 (2 ^ 64 - 1))) [] [] 0 0).Inv := by decide

theorem witness_IsInitTellsARootFromNone : (bench none [] [] 0 0).root = none ∧ (bench (some t1) [] [] 0 0).root = some t1 ∧
    (bench none [] [] 0 0).Inv ∧ (bench (some t1) [] [] 0 0).Inv := by decide

theorem witness_InsertPlacesAfterEqualFrequencies : sortedByFreq [.leaf 0x44 1, .leaf 0x43 2, .leaf 0x42 2] := by
  unfold sortedByFreq
  decide

theorem witness_FrequencyListStaysSorted : sortedByFreq ([] : List TreeNode) ∧
    sortedByFreq [.leaf 0x44 1, .leaf 0x43 2, .leaf 0x42 3] := by
  unfold sortedByFreq
  decide

theorem witness_CombineKeepsEveryLeaf : ([.leaf 0x44 1] : List TreeNode) ≠ [] ∧ (∀ x ∈ [TreeNode.leaf 0x44 1], x.isLeaf = true) ∧
    ([.leaf 0x44 1, .leaf 0x43 2] : List TreeNode) ≠ [] ∧ (∀ x ∈ [TreeNode.leaf 0x44 1, .leaf 0x43 2], x.isLeaf = true) := by decide

/-- A source at the top of the address space, and an empty one. -/
theorem witness_CreateBuildsFromTheSourceAlone : ({ bench (some t1) [1, 2] [] 0 0 with srcAddr := 0xFFFFFFFFFFFFFFFE } : State).sourceUsable ∧
    (bench (some t1) [] [] 0 0).sourceUsable ∧ (bench (some t1) [] [] 0 0).srcLen = 0 := by decide

theorem witness_CreateCountsEveryByte : (bench none message [] 0 0).sourceUsable := by decide

/-- An ordinary sum, and one that is exactly MAXV. -/
theorem witness_CreatePartAddsToTheDictionary :
    ((bench (some t1) message [] 0 0).Inv ∧ (bench (some t1) message [] 0 0).sourceUsable ∧
      (bench (some t1) message [] 0 0).srcLen.toNat + (bench (some t1) message [] 0 0).size ≤ 2 ^ 64 - 1) ∧
    ((bench (some (.leaf 0x41 (2 ^ 64 - 3))) [1, 2] [] 0 0).Inv ∧ (bench (some (.leaf 0x41 (2 ^ 64 - 3))) [1, 2] [] 0 0).sourceUsable ∧
      (bench (some (.leaf 0x41 (2 ^ 64 - 3))) [1, 2] [] 0 0).srcLen.toNat + (bench (some (.leaf 0x41 (2 ^ 64 - 3))) [1, 2] [] 0 0).size ≤
        2 ^ 64 - 1) := by decide

/-- TB-11: one more than MAXV. -/
theorem witness_CreatePartOverflowLeavesTheRoot :
    2 ^ 64 - 1 < ({ bench (some t1) [] [] 0 0 with srcLen := 0xFFFFFFFFFFFFFFF6 } : State).srcLen.toNat +
      ({ bench (some t1) [] [] 0 0 with srcLen := 0xFFFFFFFFFFFFFFF6 } : State).size ∧
    ({ bench (some t1) [] [] 0 0 with srcLen := 0xFFFFFFFFFFFFFFF6 } : State).Inv := by decide

/-- TB-9: "AC" then "D", and "ACD". -/
theorem witness_CreatePartTwiceEqualsCreateOfBoth : ∃ s1 t1 s2 t2 s3 t3 : State, s1.root = none ∧ exec .createPart s1 = .next t1 ∧
    t1.cause = .ok ∧ s2.root = t1.root ∧ exec .createPart s2 = .next t2 ∧ t2.cause = .ok ∧
    s3.source = s1.source ++ s2.source ∧ exec .create s3 = .next t3 :=
  ⟨bench none [0x41, 0x43] [] 0 0, _, bench (some (.node (.leaf 0x41 1) (.leaf 0x43 1) 2)) [0x44] [] 0 0, _,
    bench none [0x41, 0x43, 0x44] [] 0 0, _, rfl, rfl, rfl, rfl, rfl, rfl, rfl, rfl⟩

theorem witness_OneByteValueGivesALeafRoot : (bench none [0x41, 0x41] [] 0 0).sourceUsable ∧ (bench none [0x41, 0x41] [] 0 0).srcLen ≠ 0 ∧
    ∀ b ∈ (bench none [0x41, 0x41] [] 0 0).source, b = 0x41 := by decide

theorem witness_SoundTreeBounds : t1.sound = true ∧ (TreeNode.leaf 0x41 (2 ^ 64 - 1)).sound = true := by decide

/-- CT-9 has an absent byte, the deepest code and the shallowest wide entry. -/
theorem witness_TableEntriesArePaths : ∃ l r f, TreeNode.node l r f = chain ∧ (TreeNode.node l r f).sound = true ∧
    (derive chain).entry 0x41 = .absent ∧ (derive chain).entry 0x32 = .code 128 8 ∧ (derive chain).entry 0x30 = .wide 9 :=
  ⟨_, _, _, rfl, by decide, by decide, by decide, by decide⟩

theorem witness_DegenerateTreeHasAOneBitCode : (0x42 : Byte) ≠ 0x41 := by decide

theorem witness_CodesArePrefixFree : t1.sound = true ∧ ((derive t1).entry 0x42).isCode = true ∧ ((derive t1).entry 0x43).isCode = true ∧
    (0x42 : Byte) ≠ 0x43 := by decide

theorem witness_EncodeZeroProgress : (bench none [0x41] [0] 0 0).root = none ∧
    ((bench (some t1) [] [0] 0 0).root ≠ none ∧ (bench (some t1) [] [0] 0 0).srcLen = 0) ∧
    ((bench (some t1) [0x41] [] 0 0).root ≠ none ∧ (bench (some t1) [0x41] [] 0 0).dstLen = 0) := by decide

/-- ENC-12 for the absent byte, CT-9 for the wide one. -/
theorem witness_EncodeAbortsBeforeWriting :
    (let s := bench (some t1) [0x41, 0x41, 0x5A] [0x55, 0x55] 0 0
     s.root = some t1 ∧ s.srcLen ≠ 0 ∧ s.dstLen ≠ 0 ∧ s.buffersUsable ∧ 2 < min s.srcLen.toNat (2 ^ 61 - 1) ∧ s.source[2]? = some 0x5A ∧
     (∀ (j : Nat) (c : Byte), j < 2 → s.source[j]? = some c → ((derive t1).entry c).isCode = true) ∧ (derive t1).entry 0x5A = .absent) ∧
    (let s := bench (some chain) [0x30, 0x39] [0x55] 0 0
     s.root = some chain ∧ s.srcLen ≠ 0 ∧ s.dstLen ≠ 0 ∧ s.buffersUsable ∧ 0 < min s.srcLen.toNat (2 ^ 61 - 1) ∧ s.source[0]? = some 0x30 ∧
     (∀ (j : Nat) (c : Byte), j < 0 → s.source[j]? = some c → ((derive chain).entry c).isCode = true) ∧
     (derive chain).entry 0x30 = .wide 9) := by
  refine ⟨⟨rfl, by decide, by decide, by decide, by decide, by decide, ?_, by decide⟩, ⟨rfl, by decide, by decide, by decide, by decide, by decide, ?_, by decide⟩⟩
  · intro j c hj hc
    match j, hj with
    | 0, _ => cases hc; decide
    | 1, _ => cases hc; decide
  · intro j c hj
    exact absurd hj (Nat.not_lt_zero j)

theorem of_whole_source {bs : List Byte} {n : Nat} {p : Byte → Prop} (h : ∀ b ∈ bs, p b) : ∀ b ∈ bs.take n, p b :=
  fun b hb => h b (List.mem_of_mem_take hb)

/-- ENC-3. -/
theorem witness_EncodeProgressIsTheLongestPrefixThatFits : ∃ (s : State) (t : TreeNode), s.Inv ∧ s.root = some t ∧ s.srcLen ≠ 0 ∧
    s.dstLen ≠ 0 ∧ s.buffersUsable ∧ ∀ b ∈ s.source.take (2 ^ 61 - 1), ((derive t).entry b).isCode = true :=
  ⟨bench (some t1) message [0] 0 0, t1, by decide, rfl, by decide, by decide, by decide,
    of_whole_source (by decide)⟩

/-- ENC-2. -/
theorem witness_EncodeWritesExactlyTheCodeStream : ∃ (s : State) (t : TreeNode), s.Inv ∧ s.root = some t ∧ s.srcLen ≠ 0 ∧
    s.dstLen ≠ 0 ∧ s.buffersUsable ∧ ∀ b ∈ s.source.take (2 ^ 61 - 1), ((derive t).entry b).isCode = true :=
  ⟨bench (some t1) message [0xFF, 0xFF, 0xFF, 0xFF] 3 0, t1, by decide, rfl, by decide, by decide, by decide,
    of_whole_source (by decide)⟩

/-- 2^61 source bytes that nothing has written, a dictionary whose one byte is what they read as, and room for one bit of each. -/
def clampBench : State :=
  { State.reset with root := some (.leaf 0 1), srcLen := 0x2000000000000000, dstAddr := 0x4000000000000000, dstLen := 0x400000000000000 }

theorem unwritten_read (a : Nat) : Memory.read [] a = 0 := rfl

theorem clampBench_source : ∀ b ∈ clampBench.source, b = 0 := by
  intro b hb
  unfold State.source at hb
  rw [Memory.readBytes_eq_map] at hb
  obtain ⟨i, -, rfl⟩ := List.mem_map.mp hb
  rfl

theorem codeStream_zeros : ∀ bs : List Byte, (∀ b ∈ bs, b = 0) → (codeStream (derive (.leaf 0 1)) bs).length = bs.length
  | [], _ => rfl
  | b :: bs, h => by
    have hb := h b List.mem_cons_self
    have := codeStream_zeros bs fun x hx => h x (List.mem_cons_of_mem _ hx)
    subst hb
    show (_ ++ codeStream _ bs).length = _
    rw [List.length_append, this, List.length_cons, Nat.add_comm]
    rfl

theorem witness_ClampedEncodeStopsAtTheClamp : ∃ (s : State) (t : TreeNode), s.Inv ∧ s.root = some t ∧ 2 ^ 61 - 1 < s.srcLen.toNat ∧
    s.dstLen ≠ 0 ∧ s.buffersUsable ∧ (∀ b ∈ s.source.take (2 ^ 61 - 1), ((derive t).entry b).isCode = true) ∧
    s.bitOffset.toNat + (codeStream (derive t) (s.source.take (2 ^ 61 - 1))).length ≤ min (8 * s.dstLen.toNat) (2 ^ 64 - 1) := by
  have hz : ∀ b ∈ clampBench.source.take (2 ^ 61 - 1), b = 0 := fun b hb => clampBench_source b (List.mem_of_mem_take hb)
  refine ⟨clampBench, .leaf 0 1, by decide, rfl, by decide, by decide, ⟨⟨.inr (by decide), fun _ _ => rfl⟩, ⟨.inr (by decide), fun _ _ => rfl⟩, ?_⟩, ?_, ?_⟩
  · intro i hi j hj
    change i < 0x2000000000000000 at hi
    change 0 + i ≠ 0x4000000000000000 + j
    omega
  · intro b hb
    rw [hz b hb]
    rfl
  · rw [codeStream_zeros _ hz]
    exact Nat.le_trans (Nat.add_le_add_left (List.length_take_le _ _) _) (by decide)

/-- ENC-10: "AAAAB" then "BBCCD" into one destination. -/
theorem witness_SplitEncodeEqualsWholeEncode : ∃ (s : State) (n1 n2 : Word), s.Inv ∧ n1.toNat + n2.toNat = s.srcLen.toNat ∧
    s.srcLen.toNat ≤ 2 ^ 61 - 1 ∧ s.srcAddr.toNat + s.srcLen.toNat ≤ 2 ^ 64 ∧
    ∃ u1, exec .encode { s with srcLen := n1 } = .next u1 ∧ u1.cause = .ok ∧
    ∃ u2, exec .encode { u1 with srcAddr := s.srcAddr + n1, srcLen := n2, bitOffset := u1.res1 } = .next u2 ∧ u2.cause = .ok :=
  ⟨bench (some t1) message [0, 0, 0] 0 0, 5, 5, by decide, by decide, by decide, by decide, _, rfl, rfl, _, rfl, rfl⟩

theorem witness_CreatedDictionaryKnowsItsBytes : ∃ s t : State, s.sourceUsable ∧ exec .create s = .next t ∧
    ∃ u, exec .encode { t with dstAddr := 0x2000, dstLen := 3, bitOffset := 0 } = .next u :=
  ⟨bench none message [] 0 0, _, by decide, rfl, _, rfl⟩

theorem witness_DecodeWithoutDictionary : (bench none [0xAF] [0] 0 3).root = none := rfl

/-- DEC-1, DEC-6 and DEC-3: the three ways to stop; and DEC-10, an empty source. -/
theorem witness_DecodeStoresTheBytesOfWholeCodeWords :
    ∀ s ∈ [bench (some t1) [0xAF, 0x02, 0x04] (List.replicate 16 0) 0 3, bench (some t1) [0xAF, 0x02, 0x04] (List.replicate 16 0) 0 2,
      bench (some t1) [0xAF, 0x02, 0x04] (List.replicate 4 0) 0 0, bench (some t1) [] (List.replicate 5 0) 0 0],
      s.Inv ∧ s.root = some t1 ∧ s.buffersUsable := by decide +kernel

/-- DEC-14. -/
theorem witness_DegenerateDecodeCountsBits : ∃ (s : State) (v : Byte) (f : Nat), s.Inv ∧ s.root = some (.leaf v f) ∧ s.buffersUsable ∧
    s.bitOffset.toNat ≤ s.endOfBits :=
  ⟨bench (some leafA) [0xA5] [0, 0, 0] 0 0, 0x41, 4, by decide, rfl, by decide, by decide⟩

/-- DEC-3 then DEC-4. -/
theorem witness_ResumedDecodeEqualsWholeDecode : ∃ (s : State) (n1 n2 : Word), s.Inv ∧ s.buffersUsable ∧
    n1.toNat + n2.toNat = s.dstLen.toNat ∧ ∃ u1, exec .decode { s with dstLen := n1 } = .next u1 ∧ u1.cause = .bufferExhausted ∧
    ∃ u2, exec .decode { u1 with dstAddr := s.dstAddr + n1, dstLen := n2, bitOffset := u1.res0 } = .next u2 :=
  ⟨bench (some t1) [0xAF, 0x02, 0x04] (List.replicate 10 0) 0 3, 4, 6, by decide +kernel, by decide +kernel, by decide, _, rfl, rfl, _, rfl⟩

/-- Program P1. -/
theorem witness_RoundTripRestoresTheBuffer : ∃ (s a : State) (t : TreeNode) (dst len off : Word), s.Inv ∧ s.sourceUsable ∧ s.srcLen ≠ 0 ∧
    exec .create s = .next a ∧ a.root = some t ∧
    ({ a with dstAddr := dst, dstLen := len, bitOffset := off } : State).buffersUsable ∧
    (∀ b ∈ s.source, ∀ d, (derive t).entry b ≠ .wide d) ∧ s.srcLen.toNat ≤ 2 ^ 61 - 1 ∧
    off.toNat + (codeStream (derive t) s.source).length ≤ min (8 * len.toNat) (2 ^ 64 - 1) ∧
    ∃ e, exec .encode { a with dstAddr := dst, dstLen := len, bitOffset := off } = .next e ∧
      ({ e with srcAddr := dst, srcLen := BitVec.ofNat 64 ((e.res1.toNat + 7) / 8), bitOffset := off, endBitOffset := BitVec.ofNat 3 (e.res1.toNat % 8), dstAddr := 0x3000, dstLen := 16 } : State).buffersUsable ∧
      s.srcLen.toNat ≤ (16 : Word).toNat := by
  refine ⟨bench none message [] 0 0, _, t1, 0x2000, 3, 0, by decide, by decide, by decide, rfl, rfl, by decide, ?_, by decide, by decide,
    _, rfl, by decide +kernel, by decide⟩
  intro b hb d
  have : ∀ b ∈ (bench none message [] 0 0).source, ((derive t1).entry b).isCode = true := by decide
  have h := this b hb
  intro e
  rw [e] at h
  cases h

theorem witness_ImageLengthFromLeafCount : t1.sound = true := by decide

/-- EXP-5, EXP-3, EXP-2. -/
theorem witness_ExportWritesTheImageOrNothing : (bench none [] [] 0 0).root = none ∧
    ((bench (some t1) [] (List.replicate 42 0) 0 0).root = some t1 ∧
      (bench (some t1) [] (List.replicate 42 0) 0 0).dstLen.toNat < (image t1).length) ∧
    ((bench (some t1) [] (List.replicate 43 0) 0 0).Inv ∧ (bench (some t1) [] (List.replicate 43 0) 0 0).root = some t1 ∧
      (image t1).length ≤ (bench (some t1) [] (List.replicate 43 0) 0 0).dstLen.toNat ∧
      (bench (some t1) [] (List.replicate 43 0) 0 0).destUsable) := by decide +kernel

/-- IMP-1, and IMP-8 for a candidate that is not valid. -/
theorem witness_ImportAcceptsOrClears :
    ((bench none image1 [] 0 0).sourceUsable ∧ parse (bench none image1 [] 0 0).source 0 = some (t1, 43) ∧ t1.valid = true) ∧
    ((bench (some t1) [0x01, 0x41, 0, 0, 0, 0, 0, 0, 0, 0] [] 0 0).sourceUsable ∧
      ∀ t used, parse (bench (some t1) [0x01, 0x41, 0, 0, 0, 0, 0, 0, 0, 0] [] 0 0).source 0 = some (t, used) → t.valid = false) := by
  refine ⟨by decide +kernel, by decide, fun t used h => ?_⟩
  have e : parse (bench (some t1) [0x01, 0x41, 0, 0, 0, 0, 0, 0, 0, 0] [] 0 0).source 0 = some (.leaf 0x41 0, 10) := by decide
  rw [e] at h
  cases h
  decide

/-- IMP-4, IMP-5, IMP-6, IMP-7. -/
theorem witness_MalformedImagesAreRejected :
    ((bench (some t1) [] [] 0 0).sourceUsable ∧ (bench (some t1) [] [] 0 0).source = []) ∧
    (∃ (tag : Byte) (rest : List Byte), tag ≠ 0x00 ∧ tag ≠ 0x01 ∧ (bench (some t1) [0x02] [] 0 0).sourceUsable ∧
      (bench (some t1) [0x02] [] 0 0).source = tag :: rest) ∧
    (∃ l : TreeNode, l.sound = true ∧ (bench none (0x00 :: image leafA) [] 0 0).sourceUsable ∧
      (bench none (0x00 :: image leafA) [] 0 0).source = 0x00 :: image l) ∧
    (∃ (l r : TreeNode) (x : List Byte) (v : Byte), l.sound = true ∧ r.sound = true ∧ v ∈ l.bytes ∧ v ∈ r.bytes ∧
      (bench none (0x00 :: (image leafA ++ image leafA)) [] 0 0).sourceUsable ∧
      (bench none (0x00 :: (image leafA ++ image leafA)) [] 0 0).source = 0x00 :: (image l ++ image r ++ x)) := by
  refine ⟨by decide, ⟨0x02, [], by decide⟩, ⟨leafA, by decide⟩, ⟨leafA, leafA, [], 0x41, by decide +kernel⟩⟩

/-- EXP-1 then IMP-1. -/
theorem witness_ExportThenImportRestoresTheRoot : ∃ (s u s' : State) (t : TreeNode), s.Inv ∧ s.root = some t ∧ exec .treeExport s = .next u ∧
    u.cause = .ok ∧ s'.mem = u.mem ∧ s'.srcAddr = s.dstAddr ∧ u.res0.toNat ≤ s'.srcLen.toNat ∧ s'.sourceUsable := by
  refine ⟨bench (some t1) [] (List.replicate 64 0) 0 0, _, { bench none [] [] 0 0 with
    mem := (bench (some t1) [] (List.replicate 64 0) 0 0).mem.writeBytes 0x2000 (image t1), srcAddr := 0x2000, srcLen := 64 }, t1,
    by decide +kernel, rfl, rfl, rfl, rfl, rfl, by decide +kernel, by decide +kernel⟩

/-- The last 8 bytes of the address space, and the largest value of 8 bytes. -/
theorem witness_MemoryIsLittleEndian : Memory.wf [] = true ∧ (2 ^ 64 - 8) + 8 ≤ 2 ^ 64 ∧ 256 ^ 8 - 1 < 256 ^ 8 := by decide

/-- The last bit of the last byte, and the first bit of the first. -/
theorem witness_SetBitChangesOneBit : Memory.wf [(0, 0x80)] = true ∧ 1 < 2 ∧ (2 ^ 64 - 1) + 7 / 8 < 2 ^ 64 ∧ 0 + 0 / 8 < 2 ^ 64 ∧
    (8 : Nat) ≠ 7 ∧ (1 : Nat) ≠ (2 ^ 64 - 1) + 7 / 8 := by decide

/-- Both sides of each clause: a region one address past the top and one that ends at it, an overlap and none. -/
theorem witness_RefusedExactlyInABadMemoryPhase :
    ¬({ bench (some t1) [1, 2] [] 0 0 with srcAddr := 0xFFFFFFFFFFFFFFFF } : State).sourceUsable ∧
    ({ bench (some t1) [1, 2] [] 0 0 with srcAddr := 0xFFFFFFFFFFFFFFFE } : State).sourceUsable ∧
    ¬({ bench (some t1) message [0] 0 0 with dstAddr := 0x1009 } : State).buffersUsable ∧
    ({ bench (some t1) message [0] 0 0 with dstAddr := 0x100A } : State).buffersUsable ∧
    ¬({ bench (some leafA) [] (List.replicate 10 0) 0 0 with dstAddr := 0xFFFFFFFFFFFFFFF7 } : State).destUsable ∧
    imageLen leafA ≤ (bench (some leafA) [] (List.replicate 10 0) 0 0).dstLen.toNat := by decide

theorem witness_MemoryChangesOnlyInTheDestination :
    (∃ s t : State, s.Inv ∧ exec .encode s = .next t ∧ ∀ j, j < s.dstLen.toNat → 0x2003 ≠ s.dstAddr.toNat + j) ∧
    (∃ s t : State, s.Inv ∧ exec .create s = .next t) :=
  ⟨⟨bench (some t1) message [0, 0, 0] 0 0, _, by decide, rfl, by decide⟩, ⟨bench (some t1) message [0, 0, 0] 0 0, _, by decide, rfl⟩⟩

theorem witness_NoCommandWritesAnOperandRegister : ∃ s t : State, exec .decode s = .next t :=
  ⟨bench (some t1) [0xAF] [0, 0, 0] 2 0, _, rfl⟩

theorem witness_OnlyFourCommandsAssignTheRoot :
    (∃ (i : Instr) (s t : State), i ∉ [Instr.create, .createPart, .treeImport, .clear] ∧ exec i s = .next t) ∧
    (∃ (s t : State) (a : HostAction) (rest : List HostAction), s.pending = a :: rest ∧ step s = .next t ∧ t.root ≠ s.root) :=
  ⟨⟨.encode, bench (some t1) message [0, 0, 0] 0 0, _, by decide, rfl⟩, ⟨waiting [.reset], _, .reset, [], rfl, rfl, by decide⟩⟩

/-- A reserved word the host writes next, and the step that runs it. -/
theorem witness_reserved_word : ∃ (s t : State) (w : Word) (rest : List HostAction) (why : Illegal), s.pending = .wr 0x00 8 w :: rest ∧
    decodeWord w = .illegal why ∧ step s = .next t :=
  ⟨waiting [.wr 0x00 8 0x105], _, 0x105, [], .reservedBits, rfl, rfl, rfl⟩

/-- Every clause has a command that ends; `witness_reserved_word` is the last clause's. -/
theorem witness_CausesOfEachCommand :
    ∀ i ∈ [Instr.nop, .size, .isInit, .clear, .create, .createPart, .encode, .decode, .treeExport, .treeImport],
      (after i (bench (some t1) message [0, 0, 0] 0 0)).isSome = true := by decide +kernel

/-- A failing command of each kind: ENC-12, and IMP-4; `witness_reserved_word` is the last clause's. -/
theorem witness_FailureIsAtomic :
    (∃ s t : State, exec .encode s = .next t ∧ t.cause ∉ [Cause.ok, .bufferExhausted, .clamped] ∧ t.cause ≠ .malformedTree ∧ t.cause ≠ .ok) ∧
    (∃ s t : State, exec .treeImport s = .next t ∧ t.cause = .malformedTree) :=
  ⟨⟨bench (some t1) [0x41, 0x5A] [0x55] 0 0, _, rfl, by decide, by decide, by decide⟩, ⟨bench (some t1) [] [] 0 0, _, rfl, rfl⟩⟩

/-- Two states that differ in everything TREE_EXPORT does not list. -/
theorem witness_UnlistedOperandsAreNotRead :
    let s := bench (some t1) message [0, 0, 0] 0 0
    let s' : State := { s with srcAddr := 7, srcLen := 9, bitOffset := 5, endBitOffset := 6, res0 := 1, res1 := 2, cause := .empty }
    s'.root = s.root ∧ s'.mem = s.mem ∧ s'.platform = s.platform ∧
    (Instr.treeExport ∈ [Instr.create, .createPart, .treeImport, .encode, .decode] → s'.srcAddr = s.srcAddr ∧ s'.srcLen = s.srcLen) ∧
    (Instr.treeExport ∈ [Instr.treeExport, .encode, .decode] → s'.dstAddr = s.dstAddr ∧ s'.dstLen = s.dstLen) ∧
    (Instr.treeExport ∈ [Instr.encode, .decode] → s'.bitOffset = s.bitOffset) ∧
    (Instr.treeExport = .decode → s'.endBitOffset = s.endBitOffset) := by decide

/-- An empty source (DEC-10), a destination of length 0 (DEC-9 from bit 0), no dictionary, and ENC-3. -/
theorem witness_ZeroPairNeedsTheCause :
    ((bench (some t1) [] [0] 0 0).root = some t1 ∧ (bench (some t1) [] [0] 0 0).buffersUsable ∧ (bench (some t1) [] [0] 0 0).bitOffset = 0 ∧
      (bench (some t1) [] [0] 0 0).srcLen = 0) ∧
    ((bench (some t1) [0xAF] [] 0 0).root = some t1 ∧ (bench (some t1) [0xAF] [] 0 0).buffersUsable ∧
      (bench (some t1) [0xAF] [] 0 0).bitOffset = 0 ∧ (bench (some t1) [0xAF] [] 0 0).srcLen ≠ 0 ∧ (bench (some t1) [0xAF] [] 0 0).dstLen = 0) ∧
    (bench none [0xAF] [0] 0 0).root = none ∧
    (∃ s u : State, s.Inv ∧ s.bitOffset = 0 ∧ exec .encode s = .next u ∧ u.cause = .bufferExhausted) :=
  ⟨by decide, by decide, rfl, bench (some t1) message [0] 0 0, _, by decide, rfl, rfl, rfl⟩

/-- TB-8's third pair (the byte has an entry behind two others) and its second (it has none); the byte's entry at the front too. -/
theorem witness_MergeReinsertsEachRecoveredPair :
    (∀ x, TreeNode.leaf 0x44 x ∉ [TreeNode.leaf 0x45 1, .leaf 0x42 3]) ∧ (∀ x, TreeNode.leaf 0x44 x ∉ ([] : List TreeNode)) ∧
    (∀ x, TreeNode.leaf 0x42 x ∉ [TreeNode.leaf 0x45 1, .leaf 0x44 4, .leaf 0x41 4]) := by
  refine ⟨fun x => ?_, fun x => ?_, fun x => ?_⟩ <;> simp

theorem witness_EveryStepKeepsTheInvariant : ∃ s t : State, s.Inv ∧ step s = .next t ∧ t ≠ s :=
  ⟨waiting [.wr 0x00 8 1], _, by decide, rfl, by decide⟩

end Sys2Proof.Tests
end

section
/-! PROOFS. The statements of 10_state.md: the invariant every step keeps, the host's register accesses, the bounds of a sound tree,
the frame of every command, who assigns ROOT, and the CMD write. -/

namespace Sys2Proof.Machine

/-! Every step keeps the invariant (R13 to R16). -/

/-- Every action of the host or the platform keeps a sound dictionary and a canonical memory. -/
theorem perform_keeps_inv {a : HostAction} {s u : State} (hi : s.Inv) (h : perform a s = .next u) : u.Inv := by
  obtain ⟨hr, hm⟩ := id hi
  rcases perform_cases h with ⟨v, i, -, -, he⟩ | ⟨v, w, -, -, rfl⟩ | ⟨o, v, -, rfl | ⟨r, rfl⟩⟩ | ⟨v, rfl⟩ | ⟨x, b, -, rfl⟩ | ⟨-, rfl⟩
  · exact exec_keeps_inv hi he
  · exact hi
  · exact hi
  · exact writeReg_inv hi r v
  · exact hi
  · exact ⟨hr, Memory.write_wf b hm x.isLt⟩
  · exact ⟨rfl, hm⟩

/-- Settles O57: the step is idle, or performs one action, which keeps the invariant. -/
theorem everyStepKeepsTheInvariant : Obligations.EveryStepKeepsTheInvariant := by
  intro s t hi h
  rcases step_cases s with ⟨-, e⟩ | ⟨a, rest, -, e⟩
  · cases e.symm.trans h
    exact hi
  · have hp : (s.setPending rest).Inv := hi
    exact perform_keeps_inv hp (e.symm.trans h)

/-! The host's register accesses (R17 to R28, R180). -/

/-- A 64-bit read of a register that is next in the host's list (R28). -/
theorem step_read {s : State} {r : Reg} {rest : List HostAction} (h : s.pending = .rd r.offset 8 :: rest) :
    step s = .next ((s.setPending rest).reply (s.readReg r)) := by
  have hr : (s.setPending rest).readReg r = s.readReg r := by cases r <;> rfl
  rw [step_cons h, ← hr]
  exact perform_read r _

/-- A 64-bit write of a register other than CMD that is next in the host's list (R28). -/
theorem step_write {s : State} {r : Reg} (hc : r ≠ .cmd) {v : Word} {rest : List HostAction}
    (h : s.pending = .wr r.offset 8 v :: rest) : step s = .next ((s.writeReg r v).setPending rest) := by
  have hr : (s.setPending rest).writeReg r v = (s.writeReg r v).setPending rest := by cases r <;> rfl
  rw [step_cons h, ← hr]
  exact perform_write hc v _

/-- The table of R17 as read by the host, CMD and STATUS apart: each offset is a register's, each value what a read returns. -/
theorem readTable_is_readReg (s : State) : ∀ p ∈ [(0x00, (0 : Word)), (0x10, s.srcAddr), (0x18, s.srcLen), (0x20, s.dstAddr),
    (0x28, s.dstLen), (0x30, s.bitOffset), (0x38, BitVec.ofNat 64 s.endBitOffset.toNat), (0x40, s.res0), (0x48, s.res1)],
    ∃ r : Reg, p = (r.offset, s.readReg r) := by
  have hend : BitVec.ofNat 64 s.endBitOffset.toNat = s.readReg .endBitOffset := BitVec.ofNat_toNat 64 s.endBitOffset
  simp only [List.forall_mem_cons, hend]
  exact ⟨⟨.cmd, rfl⟩, ⟨.srcAddr, rfl⟩, ⟨.srcLen, rfl⟩, ⟨.dstAddr, rfl⟩, ⟨.dstLen, rfl⟩, ⟨.bitOffset, rfl⟩, ⟨.endBitOffset, rfl⟩,
    ⟨.res0, rfl⟩, ⟨.res1, rfl⟩, by simp⟩

/-- The table of R180: the value that stands beside a cause is its code. -/
theorem causeTable_is_code : ∀ p ∈ [(Cause.ok, (0 : Word)), (.uninit, 1), (.unknownSymbol, 2), (.bufferExhausted, 3),
    (.malformedTree, 4), (.empty, 5), (.codeWidth, 6), (.freqOverflow, 7), (.clamped, 8), (.illegalCmd, 9)],
    p.2 = BitVec.ofNat 64 p.1.code := by
  decide

/-- The table of R17 as written by the host: each offset is that of a register other than CMD, each state what the write leaves. -/
theorem writeTable_is_writeReg (s : State) (v : Word) : ∀ p ∈ [(0x08, s), (0x10, { s with srcAddr := v }),
    (0x18, { s with srcLen := v }), (0x20, { s with dstAddr := v }), (0x28, { s with dstLen := v }), (0x30, { s with bitOffset := v }),
    (0x38, { s with endBitOffset := BitVec.ofNat 3 (v.toNat % 8) }), (0x40, s), (0x48, s)],
    ∃ r : Reg, r ≠ .cmd ∧ p = (r.offset, s.writeReg r v) := by
  have hend : BitVec.ofNat 3 (v.toNat % 8) = v.setWidth 3 := by
    apply BitVec.eq_of_toNat_eq
    simp
  simp only [List.forall_mem_cons, hend]
  exact ⟨⟨.status, nofun, rfl⟩, ⟨.srcAddr, nofun, rfl⟩, ⟨.srcLen, nofun, rfl⟩, ⟨.dstAddr, nofun, rfl⟩, ⟨.dstLen, nofun, rfl⟩,
    ⟨.bitOffset, nofun, rfl⟩, ⟨.endBitOffset, nofun, rfl⟩, ⟨.res0, nofun, rfl⟩, ⟨.res1, nofun, rfl⟩, by simp⟩

/-- No register stands above 0x48 (R17). -/
theorem Reg.ofOffset_above {o : Nat} (h : 0x48 < o) : Reg.ofOffset o = none := by
  refine Reg.ofOffset_none.mpr fun r => ?_
  cases r <;> simp only [Reg.offset] <;> omega

/-- A write at an aligned offset that has no register is ignored (R28). -/
theorem step_write_outside {s : State} {o : Nat} {v : Word} {rest : List HostAction} (h8 : o % 8 = 0) (ho : Reg.ofOffset o = none)
    (h : s.pending = .wr o 8 v :: rest) : step s = .next (s.setPending rest) := by
  rw [step_cons h, perform, if_pos (alignedAccess_iff.mpr ⟨rfl, h8⟩), writeOffset, ho]

/-- A read at an aligned offset that has no register answers 0 (R28). -/
theorem step_read_outside {s : State} {o : Nat} {rest : List HostAction} (h8 : o % 8 = 0) (ho : Reg.ofOffset o = none)
    (h : s.pending = .rd o 8 :: rest) : step s = .next ((s.setPending rest).reply 0) := by
  rw [step_cons h, perform, if_pos (alignedAccess_iff.mpr ⟨rfl, h8⟩), State.readOffset, ho]

/-- A register access that is not an aligned 64-bit one is refused (R28). -/
theorem step_misshapen {s : State} {o n : Nat} {v : Word} {rest : List HostAction} (hn : ¬(n = 8 ∧ o % 8 = 0))
    (h : s.pending = .wr o n v :: rest ∨ s.pending = .rd o n :: rest) : step s = .refused .registerAccess := by
  have ha : ¬alignedAccess o n = true := fun e => hn (alignedAccess_iff.mp e)
  rcases h with h | h <;> rw [step_cons h, perform, if_neg ha]

/-- Settles O7: each row of the tables is one register's, and the other offsets and shapes have their own rules. -/
theorem hostRegisterAccess : Obligations.HostRegisterAccess := by
  refine ⟨fun s rest o v h hv => ?_, fun s rest v h hv => ?_, fun s rest o v t h ht => ?_, fun s rest o v h8 ho => ?_,
    fun s rest o n v hn h => step_misshapen hn h⟩
  · obtain ⟨r, e⟩ := readTable_is_readReg s _ hv
    cases e
    exact step_read h
  · obtain rfl : v = s.readReg .status := causeTable_is_code _ hv
    exact step_read (r := .status) h
  · obtain ⟨r, hc, e⟩ := writeTable_is_writeReg s v _ ht
    cases e
    exact step_write hc h
  · have hnone := Reg.ofOffset_above ho
    exact ⟨step_write_outside h8 hnone, step_read_outside h8 hnone⟩

/-! Bounds of a sound tree (R15). -/

theorem TreeNode.sound_freq_le {t : TreeNode} (h : t.sound = true) : t.freq ≤ Config.MAXV :=
  dictionarySound_size_le (t := some t) h

/-- Distinct byte values bound the leaves of a sound tree (R14, R15). -/
theorem TreeNode.sound_leaves_le {t : TreeNode} (h : t.sound = true) : t.leaves.length ≤ 256 := by
  simpa [TreeNode.bytes] using nodup_bytes_length (TreeNode.sound_bytes h)

/-- Settles O25: at most 256 leaves, one internal node fewer than leaves, and no path longer than there are internal nodes. -/
theorem soundTreeBounds : Obligations.SoundTreeBounds := by
  intro t h
  have hleaves := TreeNode.sound_leaves_le h
  have hcount := t.leaves_length
  have hheight := t.height_le
  exact ⟨by omega, hleaves, by omega, by omega, by omega, TreeNode.sound_freq_le h⟩

/-! The frame of a command and the assignments of ROOT (R16, R29). -/

/-- Settles O50: a command writes ROOT, memory and the result triple only, which is the shape `exec_shape` gives. -/
theorem noCommandWritesAnOperandRegister : Obligations.NoCommandWritesAnOperandRegister := by
  intro i s t h
  obtain ⟨root, m, c, r0, r1, rfl⟩ := exec_shape h
  exact ⟨rfl, rfl, rfl, rfl, rfl, rfl, rfl, rfl, rfl⟩

/-- The opcode map inverts the match column of R63. -/
theorem commandOf_eq_command {n : Nat} {i : Instr} (h : commandOf n = .command i) : n = (encode i).toNat := by
  unfold commandOf at h
  split at h <;> cases h <;> rfl

/-- A command is selected by its own word only, bits 63:8 included (R62, R63). -/
theorem eq_encode_of_decodeWord {v : Word} {i : Instr} (h : decodeWord v = .command i) : v = encode i := by
  unfold decodeWord at h
  split at h
  · rename_i hz
    have hop := commandOf_eq_command h
    apply BitVec.eq_of_toNat_eq
    simp only [zeroField, opcodeField] at hz hop
    omega
  · cases h

@[simp] theorem State.writeReg_root (s : State) (r : Reg) (v : Word) : (s.writeReg r v).root = s.root := by
  cases r <;> rfl

/-- A command that changes ROOT has one of four words (R16, R63). -/
theorem encode_of_root_change {i : Instr} {s u : State} (h : exec i s = .next u) (hr : u.root ≠ s.root) :
    encode i = 1 ∨ encode i = 2 ∨ encode i = 8 ∨ encode i = 9 := by
  have hi : i ∈ [Instr.create, .createPart, .treeImport, .clear] := by
    by_contra hn
    exact hr (exec_keeps_root hn h)
  have hw : ∀ j ∈ [Instr.create, .createPart, .treeImport, .clear],
      encode j = 1 ∨ encode j = 2 ∨ encode j = 8 ∨ encode j = 9 := by decide
  exact hw i hi

/-- Settles O51: by the cases of `perform_cases`, only a command or a reset can leave another ROOT. -/
theorem onlyFourCommandsAssignTheRoot : Obligations.OnlyFourCommandsAssignTheRoot := by
  refine ⟨fun i s t hi h => exec_keeps_root hi h, fun s t a rest hp h hr => ?_⟩
  rw [step_cons hp] at h
  rcases perform_cases h with ⟨v, i, rfl, hd, he⟩ | ⟨v, w, -, -, rfl⟩ | ⟨o, v, -, rfl | ⟨r, rfl⟩⟩ | ⟨v, rfl⟩ | ⟨x, b, -, rfl⟩ | ⟨rfl, -⟩
  · obtain rfl := eq_encode_of_decodeWord hd
    rcases encode_of_root_change he hr with e | e | e | e <;> simp [e]
  · exact absurd rfl hr
  · exact absurd rfl hr
  · exact absurd (State.writeReg_root _ r v) hr
  · exact absurd rfl hr
  · exact absurd rfl hr
  · exact .inl rfl

/-! The CMD write (R18, R60, R62). -/

/-- A CMD write next in the host's list runs the command its word selects. -/
theorem step_cmd {s : State} {w : Word} {i : Instr} {rest : List HostAction} (h : s.pending = .wr 0x00 8 w :: rest)
    (hd : decodeWord w = .command i) : step s = exec i (s.setPending rest) := by
  rw [step_cons h, ← runCommand_command hd]
  rfl

theorem decodeTableWord_eq_some {nbits w : Nat} {i : Instr} (h : decodeTableWord nbits w = some i) :
    decodeWord (BitVec.ofNat 64 (w % 2 ^ nbits)) = .command i := by
  unfold decodeTableWord at h
  split at h
  · cases h
    assumption
  · cases h

/-- Settles O4: taking the placed word back out of the list gives the state it was placed in. -/
theorem cmdWriteRunsTheDecodedCommand : Obligations.CmdWriteRunsTheDecodedCommand := by
  refine ⟨fun s w i rest h hd => step_cmd h hd, fun s w i h => ?_⟩
  exact step_cmd (s := s.withFetchWord 64 w) (rest := s.pending) rfl (decodeTableWord_eq_some h)

end Sys2Proof.Machine
end

section
/-! PROOFS. The statements of 20_memory.md: the host's own accesses to buffer memory, little-endian numbers, single bits, when a
command is refused, and where a command writes. -/

namespace Sys2Proof.Machine

/-! The host's accesses to buffer memory (R40, R52). -/

/-- A host store that is next in the host's list. -/
theorem step_memWr {s : State} {a : Word} {b : Byte} {rest : List HostAction} (h : s.pending = .memWr a b :: rest) :
    step s = .next ((s.setPending rest).setMem (s.mem.write a.toNat b)) :=
  step_cons h

/-- A host read of buffer memory that is next in the host's list. -/
theorem step_memRd {s : State} {a : Word} {rest : List HostAction} (h : s.pending = .memRd a :: rest) :
    step s = .next ((s.setPending rest).reply ((s.mem.read a.toNat).setWidth 64)) :=
  step_cons h

/-- Settles O8: the two actions' steps, and what a byte reads after a write to a canonical memory. -/
theorem hostMemoryAccess : Obligations.HostMemoryAccess := by
  rintro s rest a ⟨-, hm⟩
  refine ⟨fun b h => ⟨_, step_memWr h, rfl, ?_, fun x hx => ?_⟩, fun h => ?_⟩
  · rw [State.setMem_mem, Memory.read_write hm, if_pos rfl]
  · rw [State.setMem_mem, Memory.read_write hm, if_neg hx]
  · rw [step_memRd h, BitVec.ofNat_toNat]
    rfl

/-! Little-endian numbers (R41, R42). -/

/-- `MemRead(a, n)` as the sum R41 writes. -/
theorem Memory.memRead_eq_sum (m : Memory) (a n : Nat) :
    m.memRead a n = ((List.range n).map fun i => (m.read (a + i)).toNat * 256 ^ i).sum := by
  induction n generalizing a with
  | zero => rfl
  | succ n ih =>
    have hterm : ∀ i, (m.read (a + (i + 1))).toNat * 256 ^ (i + 1) = 256 * ((m.read (a + 1 + i)).toNat * 256 ^ i) := by
      intro i
      rw [Nat.add_right_comm a 1 i, Nat.add_assoc a i 1]
      ring
    rw [Memory.memRead_succ, ih, List.range_succ_eq_map, List.map_cons, List.sum_cons, List.map_map]
    simp [Function.comp_def, hterm, List.sum_map_mul_left]

section
variable {m : Memory} {a n : Nat} (v : Nat) (hm : m.wf = true) (ha : a + n ≤ 2 ^ 64)
include hm ha

/-- Byte i of the `n` bytes MemWrite stores (R42). -/
theorem Memory.read_memWrite {i : Nat} (hi : i < n) : ((m.memWrite a n v).read (a + i)).toNat = v / 256 ^ i % 256 := by
  rw [Memory.memWrite, Memory.read_writeBytes hm (by rwa [leBytes_length]), if_pos (Nat.le_add_right a i), Nat.add_sub_cancel_left,
    leBytes_getElem?, if_pos hi]
  simp

/-- MemRead after MemWrite of the same bytes: the value, as far as `n` bytes hold it (R41, R42). -/
theorem Memory.memRead_memWrite : (m.memWrite a n v).memRead a n = v % 256 ^ n := by
  have hread := Memory.readBytes_writeBytes (bs := leBytes n v) hm (by rwa [leBytes_length])
  rw [leBytes_length] at hread
  rw [Memory.memRead, Memory.memWrite, hread, leValue_leBytes]

/-- MemWrite changes no byte outside the `n` it stores (R42). -/
theorem Memory.read_memWrite_outside {x : Nat} (hx : x < a ∨ a + n ≤ x) : (m.memWrite a n v).read x = m.read x :=
  Memory.read_writeBytes_outside hm (by rwa [leBytes_length]) (by rwa [leBytes_length])

theorem Memory.memWrite_wf : (m.memWrite a n v).wf = true :=
  Memory.writeBytes_wf _ hm (by rwa [leBytes_length])

end

/-- Settles O46: MemRead by induction on the number of bytes, MemWrite by what its bytes read as. -/
theorem memoryIsLittleEndian : Obligations.MemoryIsLittleEndian := by
  refine ⟨Memory.memRead_eq_sum, fun m a n v hm ha hv => ⟨fun i hi => Memory.read_memWrite v hm ha hi, ?_,
    fun x hx => Memory.read_memWrite_outside v hm ha hx, Memory.memWrite_wf v hm ha⟩⟩
  rw [Memory.memRead_memWrite v hm ha, Nat.mod_eq_of_lt hv]

/-! Single bits (R43 to R45). -/

/-- Settles O47: a bit reads as set at its own position and as before at every other. -/
theorem setBitChangesOneBit : Obligations.SetBitChangesOneBit := by
  intro m base p b hm hb ha
  refine ⟨?_, fun q hq => ?_, fun x hx => Memory.read_setBit_other hm hb hx, Memory.setBit_wf hm ha hb⟩
  · rw [Memory.getBit_setBit hm base p b p hb, if_pos rfl]
  · rw [Memory.getBit_setBit hm base p b q hb, if_neg hq]

/-! When a command is refused (R49, R190). -/

theorem next_not_refused (s : State) : ¬∃ r, (.next s : Host.Outcome State Fault Refusal) = .refused r := by
  rintro ⟨r, h⟩
  cases h

/-- A memory phase refuses exactly when its regions may not be used. -/
theorem memoryPhase_refused {p : Option Refusal} {P : Prop} (hp : p = none ↔ P) {g : State} :
    (∃ r, memoryPhase p g = .refused r) ↔ ¬P := by
  simp only [memoryPhase_eq_refused, ← hp, ← Option.ne_none_iff_exists', ne_eq]

theorem execCreate_refused {s : State} : (∃ r, execCreate s = .refused r) ↔ ¬s.sourceUsable :=
  memoryPhase_refused State.srcProblem_eq_none

theorem execTreeImport_refused {s : State} : (∃ r, execTreeImport s = .refused r) ↔ ¬s.sourceUsable :=
  memoryPhase_refused State.srcProblem_eq_none

theorem execCreatePart_refused {s : State} :
    (∃ r, execCreatePart s = .refused r) ↔ s.srcLen.toNat + s.size ≤ Config.MAXV ∧ ¬s.sourceUsable := by
  by_cases h : s.srcLen.toNat + s.size ≤ Config.MAXV
  · rw [execCreatePart_fits h, memoryPhase_refused State.srcProblem_eq_none]
    exact (and_iff_right h).symm
  · rw [execCreatePart_overflow (Nat.lt_of_not_le h)]
    exact iff_of_false (next_not_refused _) fun e => h e.1

theorem execTreeExport_refused {s : State} :
    (∃ r, execTreeExport s = .refused r) ↔ ∃ t, s.root = some t ∧ imageLen t ≤ s.dstLen.toNat ∧ ¬s.destUsable := by
  cases h : s.root with
  | none =>
    rw [execTreeExport_uninit h]
    exact iff_of_false (next_not_refused _) (by simp)
  | some t =>
    simp only [Option.some.injEq, exists_eq_left']
    by_cases hn : imageLen t ≤ s.dstLen.toNat
    · rw [execTreeExport_run h hn, memoryPhase_refused State.dstProblem_eq_none]
      exact (and_iff_right hn).symm
    · rw [execTreeExport_small h (Nat.lt_of_not_le hn)]
      exact iff_of_false (next_not_refused _) fun e => hn e.1

theorem execEncode_refused {s : State} : (∃ r, execEncode s = .refused r) ↔
    s.root ≠ none ∧ ¬(s.srcLen.toNat = 0 ∨ s.dstLen.toNat = 0) ∧ ¬s.buffersUsable := by
  cases h : s.root with
  | none =>
    rw [execEncode_uninit h]
    exact iff_of_false (next_not_refused _) fun e => e.1 rfl
  | some t =>
    rw [and_iff_right (Option.some_ne_none t)]
    by_cases h0 : s.srcLen.toNat = 0 ∨ s.dstLen.toNat = 0
    · rw [execEncode_empty h h0]
      exact iff_of_false (next_not_refused _) fun e => e.1 h0
    · rw [execEncode_run h h0, memoryPhase_refused State.bothProblem_eq_none]
      exact (and_iff_right h0).symm

theorem execDecode_refused {s : State} : (∃ r, execDecode s = .refused r) ↔ s.root ≠ none ∧ ¬s.buffersUsable := by
  cases h : s.root with
  | none =>
    rw [execDecode_uninit h]
    exact iff_of_false (next_not_refused _) fun e => e.1 rfl
  | some t =>
    rw [execDecode_run h, memoryPhase_refused State.bothProblem_eq_none]
    exact (and_iff_right (Option.some_ne_none t)).symm

/-- Settles O48: one refusal rule per command with a memory phase; the other four commands answer a next state at once. -/
theorem refusedExactlyInABadMemoryPhase : Obligations.RefusedExactlyInABadMemoryPhase := by
  intro s
  refine ⟨execCreate_refused, execCreatePart_refused, execTreeImport_refused, execTreeExport_refused, ?_, execDecode_refused, ?_⟩
  · rw [← and_assoc (a := s.srcLen ≠ 0), ← not_or, ← BitVec.toNat_inj, ← BitVec.toNat_inj]
    exact execEncode_refused
  · simp only [List.forall_mem_cons, List.not_mem_nil, false_imp_iff, implies_true, and_true]
    exact ⟨next_not_refused _, next_not_refused _, next_not_refused _, next_not_refused _⟩

/-! Where a command writes (R48). -/

/-- Seven commands write no memory. -/
theorem exec_keeps_mem {i : Instr} {s t : State} (hi : i ∉ [Instr.encode, .decode, .treeExport]) (h : exec i s = .next t) :
    t.mem = s.mem := by
  cases i with
  | nop => cases h; rfl
  | size => cases h; rfl
  | isInit => cases h; rfl
  | clear => cases h; rfl
  | create => obtain ⟨-, rfl⟩ := execCreate_eq_next.mp h; rfl
  | createPart => rcases execCreatePart_eq_next.mp h with ⟨-, rfl⟩ | ⟨-, -, rfl⟩ <;> rfl
  | treeImport =>
    obtain ⟨-, rfl⟩ := execTreeImport_eq_next.mp h
    exact importFrom_mem s _
  | encode => simp at hi
  | decode => simp at hi
  | treeExport => simp at hi

/-- Bytes stored from DST_ADDR on, at most DST_LEN of them and inside the address space, touch only the destination region. -/
theorem State.read_writeBytes_dst {s : State} {bs : List Byte} (hm : s.mem.wf = true) (hsp : s.dstAddr.toNat + bs.length ≤ 2 ^ 64)
    (hlen : bs.length ≤ s.dstLen.toNat) {a : Nat} (ha : ∀ j, j < s.dstLen.toNat → a ≠ s.dstAddr.toNat + j) :
    (s.mem.writeBytes s.dstAddr.toNat bs).read a = s.mem.read a := by
  refine Memory.read_writeBytes_outside hm hsp ?_
  have := ha (a - s.dstAddr.toNat)
  omega

theorem decodeWith_read_outside {s : State} {t : TreeNode} (hm : s.mem.wf = true) (hu : s.buffersUsable) {a : Nat}
    (ha : ∀ j, j < s.dstLen.toNat → a ≠ s.dstAddr.toNat + j) : (decodeWith t s).mem.read a = s.mem.read a := by
  obtain ⟨ws, bs, -, -, hlen, hmem, -, -, -, -, -, hsp, -⟩ := decode_loop t hm hu
  have hbytes : (decodeWith t s).mem = s.mem.writeBytes s.dstAddr.toNat bs := hmem
  rw [hbytes, State.read_writeBytes_dst hm hsp hlen ha]

theorem treeExport_read_outside {s : State} {t : TreeNode} (hm : s.mem.wf = true) (hu : s.destUsable) (hn : imageLen t ≤ s.dstLen.toNat)
    {a : Nat} (ha : ∀ j, j < s.dstLen.toNat → a ≠ s.dstAddr.toNat + j) :
    (s.mem.writeBytes s.dstAddr.toNat (image t)).read a = s.mem.read a := by
  have hpos := imageLen_pos t
  have hsp := hu.space hn (by omega)
  exact State.read_writeBytes_dst hm (by rwa [image_length]) (by rwa [image_length]) ha

/-- No command changes a byte outside the destination region. -/
theorem exec_read_outside {i : Instr} {s u : State} (hm : s.mem.wf = true) (h : exec i s = .next u) {a : Nat}
    (ha : ∀ j, j < s.dstLen.toNat → a ≠ s.dstAddr.toNat + j) : u.mem.read a = s.mem.read a := by
  by_cases hi : i ∈ [Instr.encode, .decode, .treeExport]
  · simp only [List.mem_cons, List.not_mem_nil, or_false] at hi
    rcases hi with rfl | rfl | rfl
    · rcases execEncode_eq_next.mp h with ⟨-, rfl⟩ | ⟨t, -, -, rfl⟩ | ⟨t, -, -, hp, rfl⟩
      · rfl
      · rfl
      · exact encodeWith_read_outside hm (State.bothProblem_eq_none.mp hp) ha
    · rcases execDecode_eq_next.mp h with ⟨-, rfl⟩ | ⟨t, -, hp, rfl⟩
      · rfl
      · exact decodeWith_read_outside hm (State.bothProblem_eq_none.mp hp) ha
    · rcases execTreeExport_eq_next.mp h with ⟨-, rfl⟩ | ⟨t, -, -, rfl⟩ | ⟨t, -, hn, hp, rfl⟩
      · rfl
      · rfl
      · exact treeExport_read_outside hm (State.dstProblem_eq_none.mp hp) hn ha
  · rw [exec_keeps_mem hi h]

/-- Settles O49: seven commands leave memory equal, and the other three write in the destination region only. -/
theorem memoryChangesOnlyInTheDestination : Obligations.MemoryChangesOnlyInTheDestination := by
  rintro i s t ⟨-, hm⟩ h
  exact ⟨fun he hd hx => exec_keeps_mem (by simp [he, hd, hx]) h, fun a ha => exec_read_outside hm h ha⟩

end Sys2Proof.Machine
end

section
/-! PROOFS. The statements of 30_encoding.md: the decoder is total and inverts the encoder, reserved words end ILLEGAL_CMD, and a
command reads only the operand registers listed for it. -/

namespace Sys2Proof.Machine

/-! The decoder and the encoder (R61 to R63). -/

/-- The decoder reads every command back from its own word (R62, R63). -/
@[simp] theorem decodeWord_encode (i : Instr) : decodeWord (encode i) = .command i := by
  cases i <;> rfl

/-- Settles O3: the word of a command decodes to it, and only that word does. -/
theorem decodeAndEncodeAgree : Obligations.DecodeAndEncodeAgree :=
  fun i _ => ⟨decodeWord_encode i, fun _ h => eq_encode_of_decodeWord h⟩

/-- Bits 63:8 are looked at first (R62, R65). -/
theorem decodeWord_reservedBits {v : Word} (h : v.toNat / 256 ≠ 0) : decodeWord v = .illegal .reservedBits :=
  if_neg h

/-- With bits 63:8 zero the opcode alone decides (R62). -/
theorem decodeWord_opcode {v : Word} (h : v.toNat / 256 = 0) : decodeWord v = commandOf (v.toNat % 256) :=
  if_pos h

/-- The opcodes from 0x0A on are reserved (R64). -/
theorem commandOf_reserved {n : Nat} (h : 10 ≤ n) : commandOf n = .illegal .reservedOpcode := by
  obtain ⟨k, rfl⟩ := Nat.exists_eq_add_of_le' h
  rfl

/-- The opcode map is the table of R63, the commands listed by opcode. -/
theorem commandOf_listed {n : Nat} {i : Instr} (h : [Instr.nop, .create, .createPart, .size, .isInit, .encode, .decode,
    .treeExport, .treeImport, .clear][n]? = some i) : commandOf n = .command i := by
  have htable : ∀ k < 10, [Instr.nop, .create, .createPart, .size, .isInit, .encode, .decode, .treeExport, .treeImport,
      .clear][k]?.map Decoded.command = some (commandOf k) := by decide
  obtain ⟨hn, -⟩ := List.getElem?_eq_some_iff.mp h
  have hrow := htable n hn
  rw [h] at hrow
  exact (Option.some.inj hrow).symm

theorem decodeWord_reservedOpcode {v : Word} (hz : v.toNat / 256 = 0) (h : 10 ≤ v.toNat % 256) :
    decodeWord v = .illegal .reservedOpcode :=
  (decodeWord_opcode hz).trans (commandOf_reserved h)

/-- Settles O2: the two looks of R62, and the opcode map row by row. -/
theorem everyWordSelectsOneBehaviour : Obligations.EveryWordSelectsOneBehaviour :=
  fun _ => ⟨decodeWord_reservedBits, decodeWord_reservedOpcode, fun hz _ h => (decodeWord_opcode hz).trans (commandOf_listed h)⟩

/-- Settles O1: the ten words are the encoder's, the four beside them fail one of the two looks of R62. -/
theorem tableWordsDecodeToTheirCommands : Obligations.TableWordsDecodeToTheirCommands :=
  ⟨decodeWord_encode .nop, decodeWord_encode .create, decodeWord_encode .createPart, decodeWord_encode .size,
    decodeWord_encode .isInit, decodeWord_encode .encode, decodeWord_encode .decode, decodeWord_encode .treeExport,
    decodeWord_encode .treeImport, decodeWord_encode .clear, decodeWord_reservedOpcode (by decide) (by decide),
    decodeWord_reservedOpcode (by decide) (by decide), decodeWord_reservedBits (by decide), decodeWord_reservedBits (by decide)⟩

/-! Reserved words (R64, R65, R189). -/

/-- A word with a reserved opcode or a reserved bit selects no command. -/
theorem decodeWord_reserved {v : Word} (h : 10 ≤ v.toNat % 256 ∨ v.toNat / 256 ≠ 0) : ∃ why, decodeWord v = .illegal why := by
  by_cases hz : v.toNat / 256 = 0
  · exact ⟨_, decodeWord_reservedOpcode hz (h.resolve_right (not_not_intro hz))⟩
  · exact ⟨_, decodeWord_reservedBits hz⟩

/-- A CMD write of a word that selects no command, next in the host's list. -/
theorem step_illegal {s : State} {w : Word} {why : Illegal} {rest : List HostAction} (h : s.pending = .wr 0x00 8 w :: rest)
    (hd : decodeWord w = .illegal why) : step s = .next ((s.setPending rest).finish .illegalCmd 0 0) := by
  rw [step_cons h, ← runCommand_illegal hd]
  rfl

/-- Settles O5: whichever look of R62 the word fails, the command ends by the same `finish`. -/
theorem reservedWordEndsIllegal : Obligations.ReservedWordEndsIllegal := by
  intro s w rest h hw
  obtain ⟨why, hd⟩ := decodeWord_reserved hw
  exact step_illegal h hd

/-! Two runs of one command (R67). -/

/-- Two states agree on everything a command writes. -/
def SameOutputs (t t' : State) : Prop :=
  t'.root = t.root ∧ t'.mem = t.mem ∧ t'.cause = t.cause ∧ t'.res0 = t.res0 ∧ t'.res1 = t.res1

/-- Two answers are the same refusal, or next states with the same outputs. -/
def SameAnswer (o o' : Host.Outcome State Fault Refusal) : Prop :=
  (∃ r, o = .refused r ∧ o' = .refused r) ∨ ∃ t t', o = .next t ∧ o' = .next t' ∧ SameOutputs t t'

theorem sameAnswer_next {t t' : State} (h : SameOutputs t t') : SameAnswer (.next t) (.next t') :=
  .inr ⟨t, t', rfl, rfl, h⟩

/-- A memory phase with the same region problem, if any, refuses alike or goes on alike. -/
theorem sameAnswer_memoryPhase {p p' : Option Refusal} {t t' : State} (hp : p' = p) (h : SameOutputs t t') :
    SameAnswer (memoryPhase p t) (memoryPhase p' t') := by
  subst hp
  cases p' with
  | none => exact sameAnswer_next h
  | some r => exact .inl ⟨r, rfl, rfl⟩

section
variable {s s' : State} (hroot : s'.root = s.root) (hmem : s'.mem = s.mem) (hplat : s'.platform = s.platform)
  (hsrc : s'.srcAddr = s.srcAddr ∧ s'.srcLen = s.srcLen) (hdst : s'.dstAddr = s.dstAddr ∧ s'.dstLen = s.dstLen)
  (hbit : s'.bitOffset = s.bitOffset) (hend : s'.endBitOffset = s.endBitOffset)

/-! What the commands make of their operands depends on the operands listed. -/

include hroot in
theorem State.size_congr : s'.size = s.size := by
  simp only [State.size, hroot]

include hplat hsrc in
theorem State.srcProblem_congr : s'.srcProblem = s.srcProblem := by
  simp only [State.srcProblem, State.srcRegion, hplat, hsrc]

include hplat hdst in
theorem State.dstProblem_congr : s'.dstProblem = s.dstProblem := by
  simp only [State.dstProblem, State.dstRegion, hplat, hdst]

include hplat hsrc hdst in
theorem State.bothProblem_congr : s'.bothProblem = s.bothProblem := by
  simp only [State.bothProblem, State.srcProblem_congr hplat hsrc, State.dstProblem_congr hplat hdst, State.srcRegion,
    State.dstRegion, hsrc, hdst]

include hmem hsrc in
theorem State.source_congr : s'.source = s.source := by
  simp only [State.source, hmem, hsrc]

include hsrc in
theorem State.clampedLen_congr : s'.clampedLen = s.clampedLen := by
  simp only [State.clampedLen, hsrc]

include hmem hsrc in
theorem State.clampedSource_congr : s'.clampedSource = s.clampedSource := by
  simp only [State.clampedSource, State.clampedLen_congr hsrc, hmem, hsrc]

include hdst in
theorem State.capacity_congr : s'.capacity = s.capacity := by
  simp only [State.capacity, hdst]

include hsrc hend in
theorem State.endOfBits_congr : s'.endOfBits = s.endOfBits := by
  simp only [State.endOfBits, hsrc, hend]

include hsrc in
theorem packCause_congr (n : Nat) : packCause s' n = packCause s n := by
  simp only [packCause, State.clampedLen_congr hsrc, hsrc]

/-! The ends of a command. -/

include hroot hmem in
theorem sameOutputs_finish (c : Cause) (r0 r1 : Nat) : SameOutputs (s.finish c r0 r1) (s'.finish c r0 r1) :=
  ⟨hroot, hmem, rfl, rfl, rfl⟩

include hmem in
theorem sameOutputs_setRoot_finish (t : Option TreeNode) (c : Cause) (r0 r1 : Nat) :
    SameOutputs ((s.setRoot t).finish c r0 r1) ((s'.setRoot t).finish c r0 r1) :=
  ⟨rfl, hmem, rfl, rfl, rfl⟩

include hroot in
theorem sameOutputs_setMem_finish (m : Memory) (c : Cause) (r0 r1 : Nat) :
    SameOutputs ((s.setMem m).finish c r0 r1) ((s'.setMem m).finish c r0 r1) :=
  ⟨hroot, rfl, rfl, rfl, rfl⟩

/-! Command by command. -/

include hmem hplat hsrc in
theorem execCreate_sameAnswer : SameAnswer (execCreate s) (execCreate s') := by
  unfold execCreate
  rw [State.source_congr hmem hsrc]
  exact sameAnswer_memoryPhase (State.srcProblem_congr hplat hsrc) (sameOutputs_setRoot_finish hmem ..)

include hroot hmem hplat hsrc in
theorem execCreatePart_sameAnswer : SameAnswer (execCreatePart s) (execCreatePart s') := by
  unfold execCreatePart
  rw [State.size_congr hroot, State.source_congr hmem hsrc, hsrc.2, hroot]
  split
  · exact sameAnswer_next (sameOutputs_finish hroot hmem ..)
  · exact sameAnswer_memoryPhase (State.srcProblem_congr hplat hsrc) (sameOutputs_setRoot_finish hmem ..)

include hmem in
theorem importFrom_sameOutputs (bs : List Byte) : SameOutputs (importFrom s bs) (importFrom s' bs) := by
  unfold importFrom
  split
  · exact sameOutputs_setRoot_finish hmem ..
  · split <;> exact sameOutputs_setRoot_finish hmem ..

include hmem hplat hsrc in
theorem execTreeImport_sameAnswer : SameAnswer (execTreeImport s) (execTreeImport s') := by
  unfold execTreeImport
  rw [State.source_congr hmem hsrc]
  exact sameAnswer_memoryPhase (State.srcProblem_congr hplat hsrc) (importFrom_sameOutputs hmem _)

include hroot hmem hplat hdst in
theorem execTreeExport_sameAnswer : SameAnswer (execTreeExport s) (execTreeExport s') := by
  unfold execTreeExport
  rw [hmem, hdst.1, hdst.2, hroot]
  split
  · exact sameAnswer_next (sameOutputs_finish hroot hmem ..)
  · split
    · exact sameAnswer_next (sameOutputs_finish hroot hmem ..)
    · exact sameAnswer_memoryPhase (State.dstProblem_congr hplat hdst) (sameOutputs_setMem_finish hroot ..)

include hroot hmem hsrc hdst hbit in
/-- ENCODE inside its memory phase: the first pass reads the same source, and the packing loop starts from the same place. -/
theorem encodeWith_sameOutputs (table : CodeTable) : SameOutputs (encodeWith table s) (encodeWith table s') := by
  unfold encodeWith
  simp only [State.clampedSource_congr hmem hsrc, State.clampedLen_congr hsrc, State.capacity_congr hdst, packCause_congr hsrc,
    hsrc, hdst, hbit, hmem]
  split
  · exact sameOutputs_finish hroot hmem ..
  · exact sameOutputs_setMem_finish hroot ..

include hroot hmem hplat hsrc hdst hbit in
theorem execEncode_sameAnswer : SameAnswer (execEncode s) (execEncode s') := by
  unfold execEncode
  rw [hroot, hsrc.2, hdst.2]
  split
  · exact sameAnswer_next (sameOutputs_finish hroot hmem ..)
  · split
    · exact sameAnswer_next (sameOutputs_finish hroot hmem ..)
    · exact sameAnswer_memoryPhase (State.bothProblem_congr hplat hsrc hdst)
        (encodeWith_sameOutputs hroot hmem hsrc hdst hbit _)

include hroot hmem hsrc hdst hbit hend in
/-- DECODE inside its memory phase: the outer loop starts from the same place and stops at the same end of the valid bits. -/
theorem decodeWith_sameOutputs (t : TreeNode) : SameOutputs (decodeWith t s) (decodeWith t s') := by
  unfold decodeWith
  simp only [State.endOfBits_congr hsrc hend, hsrc, hdst, hbit, hmem]
  exact sameOutputs_setMem_finish hroot ..

include hroot hmem hplat hsrc hdst hbit hend in
theorem execDecode_sameAnswer : SameAnswer (execDecode s) (execDecode s') := by
  unfold execDecode
  rw [hroot]
  split
  · exact sameAnswer_next (sameOutputs_finish hroot hmem ..)
  · exact sameAnswer_memoryPhase (State.bothProblem_congr hplat hsrc hdst)
      (decodeWith_sameOutputs hroot hmem hsrc hdst hbit hend _)

end

/-- Settles O55: command by command, every value that is computed comes from the state's listed parts. -/
theorem unlistedOperandsAreNotRead : Obligations.UnlistedOperandsAreNotRead := by
  intro i s s' hroot hmem hplat hsrc hdst hbit hend
  change SameAnswer (exec i s) (exec i s')
  cases i with
  | nop => exact sameAnswer_next (sameOutputs_finish hroot hmem ..)
  | create => exact execCreate_sameAnswer hmem hplat (hsrc (by decide))
  | createPart => exact execCreatePart_sameAnswer hroot hmem hplat (hsrc (by decide))
  | size =>
    unfold exec execSize
    rw [State.size_congr hroot]
    exact sameAnswer_next (sameOutputs_finish hroot hmem ..)
  | isInit =>
    unfold exec execIsInit
    rw [hroot]
    exact sameAnswer_next (sameOutputs_finish hroot hmem ..)
  | encode => exact execEncode_sameAnswer hroot hmem hplat (hsrc (by decide)) (hdst (by decide)) (hbit (by decide))
  | decode =>
    exact execDecode_sameAnswer hroot hmem hplat (hsrc (by decide)) (hdst (by decide)) (hbit (by decide)) (hend rfl)
  | treeExport => exact execTreeExport_sameAnswer hroot hmem hplat (hdst (by decide))
  | treeImport => exact execTreeImport_sameAnswer hmem hplat (hsrc (by decide))
  | clear => exact sameAnswer_next (sameOutputs_setRoot_finish hmem ..)

end Sys2Proof.Machine
end

section
/-! PROOFS. The statements of 40_frequency_counter.md: INSERT in a sorted list, the list COUNT makes, and the frequencies in the
dictionary that CREATE builds from it. -/

namespace Sys2Proof.Machine

/-! INSERT in a sorted list (R81). -/

/-- A sorted list whose first element exceeds a frequency exceeds it everywhere. -/
theorem lt_freq_of_lt_head {list : List TreeNode} {n : Nat} (hs : sortedByFreq list)
    (hh : ∀ y, list.head? = some y → n < y.freq) : ∀ y ∈ list, n < y.freq := by
  cases list with
  | nil => simp
  | cons y ys =>
    have hy : n < y.freq := hh y rfl
    exact List.forall_mem_cons.mpr ⟨hy, fun z hz => Nat.lt_of_lt_of_le hy (List.rel_of_pairwise_cons hs hz)⟩

/-- Settles O16: the back of INSERT's split begins with a strictly greater frequency and is sorted, so all of it is greater. -/
theorem insertPlacesAfterEqualFrequencies : Obligations.InsertPlacesAfterEqualFrequencies := by
  intro list x hs
  obtain ⟨front, back, hlist, hins, hfront, hhead⟩ := insertByFreq_split list x
  have hback : sortedByFreq back := List.Pairwise.sublist (hlist ▸ List.sublist_append_right front back) hs
  exact ⟨front, back, hlist, hins, hfront, lt_freq_of_lt_head hback hhead, insertByFreq_sorted x hs⟩

/-! COUNT (R82, R83). -/

/-- Settles O15: the list is the histogram's pairs in INSERT's order, a permutation of the histogram. -/
theorem countIsTheSortedLeafList : Obligations.CountIsTheSortedLeafList := fun buf =>
  ⟨(hist buf).foldl insertPair [], count_eq buf, count_pairs_sorted buf,
    fun _ _ => (count_pairs_perm buf).mem_iff.trans mem_hist⟩

/-! The dictionary of CREATE (R82, R94). -/

/-- The source is at most MAXV bytes long, since SRC_LEN is a 64-bit register (R3, R21). -/
theorem State.source_length_le (s : State) : s.source.length ≤ Config.MAXV := by
  rw [s.source_length]
  exact Nat.le_sub_one_of_lt s.srcLen.isLt

/-- Settles O20: CREATE's root combines the counted source, which is short enough for a sound dictionary. -/
theorem createCountsEveryByte : Obligations.CreateCountsEveryByte := fun s hu =>
  ⟨_, execCreate_eq_next.mpr ⟨State.srcProblem_eq_none.mpr hu, rfl⟩, create_sound s.source_length_le, create_freq s.source⟩

end Sys2Proof.Machine
end

section
/-! PROOFS. The statements of 41_tree_builder.md: the sorted list, MERGE pair by pair, COMBINE on leaves, and the next states of
CREATE, CREATE_PART and CLEAR. -/

namespace Sys2Proof.Machine

/-! The list (R93). -/

/-- Settles O17: each operation of the builder puts its entry in by INSERT, which keeps a sorted list sorted. -/
theorem frequencyListStaysSorted : Obligations.FrequencyListStaysSorted :=
  ⟨count_sorted, fun _ p hs => mergePair_sorted p hs, fun _ t hs => merge_sorted t hs, fun a b rest hs =>
    ⟨combine_step a b rest, insertByFreq_sorted _ hs.of_cons.of_cons⟩⟩

/-! MERGE, pair by pair (R90, R91). -/

/-- A pair whose byte has an entry takes the first one out and puts the sum in (R91). -/
theorem mergePair_first {front : List TreeNode} {b : Byte} (h : ∀ x, TreeNode.leaf b x ∉ front) (back : List TreeNode) (g f : Nat) :
    mergePair (front ++ .leaf b g :: back) (b, f) = insertByFreq (front ++ back) (.leaf b (g + f)) := by
  simp only [mergePair, takeLeaf_first h]

/-- A pair whose byte has no entry is put in as a leaf (R91). -/
theorem mergePair_absent {list : List TreeNode} {b : Byte} (h : ∀ x, TreeNode.leaf b x ∉ list) (f : Nat) :
    mergePair list (b, f) = insertByFreq list (.leaf b f) := by
  simp only [mergePair, takeLeaf_absent h]

/-- LEAVES gives the left subtree's pairs before the right one's (R90), so MERGE takes them in that order. -/
theorem merge_node (list : List TreeNode) (l r : TreeNode) (f : Nat) :
    merge list (some (.node l r f)) = merge (merge list (some l)) (some r) :=
  List.foldl_append

/-- Settles O59: MERGE folds its step over LEAVES, and the step takes out the first entry of the byte. -/
theorem mergeReinsertsEachRecoveredPair : Obligations.MergeReinsertsEachRecoveredPair :=
  ⟨fun _ back _ g f h => mergePair_first h back g f, fun _ _ f h => mergePair_absent h f, merge_none, fun _ _ _ => rfl,
    merge_node, rfl, fun _ _ => rfl, fun _ _ _ => rfl⟩

/-! COMBINE of a list of leaves (R92). -/

/-- A list of leaves has one (byte, frequency) pair per entry. -/
theorem listLeaves_length {list : List TreeNode} (hl : ∀ x ∈ list, x.isLeaf = true) : (listLeaves list).length = list.length := by
  induction list with
  | nil => rfl
  | cons x xs ih =>
    obtain ⟨hx, hxs⟩ := List.forall_mem_cons.mp hl
    cases x with
    | leaf b f => simp [TreeNode.leaves, ih hxs]
    | node l r f => simp [TreeNode.isLeaf] at hx

theorem TreeNode.sumsOk_of_isLeaf {t : TreeNode} (h : t.isLeaf = true) : t.sumsOk = true := by
  cases t with
  | leaf b f => rfl
  | node l r f => simp [TreeNode.isLeaf] at h

/-- Settles O18: the tree has the list's leaves, and every tree has one internal node fewer than leaves. -/
theorem combineKeepsEveryLeaf : Obligations.CombineKeepsEveryLeaf := by
  refine ⟨combine_nil, combine_one, fun list hne hl => ?_⟩
  obtain ⟨t, ht, hperm, hsums⟩ := combine_spec hne fun x hx => TreeNode.sumsOk_of_isLeaf (hl x hx)
  refine ⟨t, ht, hperm, ?_, hsums⟩
  rw [← t.leaves_length, hperm.length_eq, listLeaves_length hl]

/-! CREATE (R94, R97). -/

/-- The next state of CREATE: the root is built from the source alone, and its size is SRC_LEN (R94). -/
theorem exec_create_usable {s : State} (hu : s.sourceUsable) :
    exec .create s = .next { s with root := combine (count s.source), cause := .ok, res0 := s.srcLen, res1 := 0 } := by
  refine execCreate_eq_next.mpr ⟨State.srcProblem_eq_none.mpr hu, ?_⟩
  rw [create_size, s.source_length, State.finish, BitVec.ofNat_toNat, BitVec.setWidth_eq]
  rfl

theorem State.source_eq_nil {s : State} (h : s.srcLen = 0) : s.source = [] :=
  List.eq_nil_of_length_eq_zero (by rw [s.source_length, h]; rfl)

/-- Settles O19: the next state of CREATE, and COMBINE of the list of an empty source. -/
theorem createBuildsFromTheSourceAlone : Obligations.CreateBuildsFromTheSourceAlone := fun s hu =>
  ⟨exec_create_usable hu, fun h => by rw [State.source_eq_nil h, count_nil, combine_nil]⟩

/-- A buffer of one byte value has one entry in its histogram (R80). -/
theorem hist_replicate (v : Byte) (n : Nat) : hist (List.replicate (n + 1) v) = [(v, n + 1)] := by
  induction n with
  | zero => rfl
  | succ n ih =>
    have hv : ¬v < v := byte_lt_irrefl
    rw [List.replicate_succ, hist, ih]
    simp [bump, hv]

/-- COUNT and COMBINE of a buffer of one byte value give one leaf (R97). -/
theorem combine_count_replicate (v : Byte) {n : Nat} (hn : n ≠ 0) :
    combine (count (List.replicate n v)) = some (.leaf v n) := by
  obtain ⟨m, rfl⟩ := Nat.exists_eq_succ_of_ne_zero hn
  rw [count, hist_replicate]
  rfl

/-- Settles O24: the source is SRC_LEN times the one byte value, whose list has a single leaf. -/
theorem oneByteValueGivesALeafRoot : Obligations.OneByteValueGivesALeafRoot := by
  intro s v hu hne hall
  have hsrc : s.source = List.replicate s.srcLen.toNat v := List.eq_replicate_iff.mpr ⟨s.source_length, hall⟩
  have hlen : s.srcLen.toNat ≠ 0 := fun h => hne (BitVec.eq_of_toNat_eq h)
  rw [exec_create_usable hu, hsrc, combine_count_replicate v hlen]

/-! CREATE_PART (R95, R96, R101). -/

/-- Settles O21: the sums of MERGE give the size, the soundness and the frequencies of the new root. -/
theorem createPartAddsToTheDictionary : Obligations.CreatePartAddsToTheDictionary := by
  intro s hi hu hfit
  have hsize : dictSize (combine (merge (count s.source) s.root)) = s.srcLen.toNat + s.size := by
    rw [createPart_size hi.1, s.source_length]; rfl
  have hnext := execCreatePart_eq_next.mpr (.inr ⟨hfit, State.srcProblem_eq_none.mpr hu, rfl⟩)
  rw [hsize] at hnext
  refine ⟨_, hnext, rfl, hsize, ?_, ?_, createPart_freq hi.1⟩
  · exact (BitVec.toNat_ofNat ..).trans ((Nat.mod_eq_of_lt (by omega)).trans hsize.symm)
  · exact createPart_sound hi.1 (by rw [s.source_length]; exact hfit)

/-- Settles O22: the overflow test comes first, and a sound dictionary's size fits RES0. -/
theorem createPartOverflowLeavesTheRoot : Obligations.CreatePartOverflowLeavesTheRoot := fun _ hover =>
  ⟨execCreatePart_overflow hover, fun hi => (BitVec.toNat_ofNat ..).trans (Nat.mod_eq_of_lt hi.size_lt)⟩

/-- CREATE_PART that ends OK did not overflow and has rebuilt the root from the merged list (R95, R96). -/
theorem execCreatePart_ok {s t : State} (h : exec .createPart s = .next t) (hok : t.cause = .ok) :
    s.srcLen.toNat + s.size ≤ Config.MAXV ∧ t.root = combine (merge (count s.source) s.root) := by
  rcases execCreatePart_eq_next.mp h with ⟨-, rfl⟩ | ⟨hfit, -, rfl⟩
  · cases hok
  · exact ⟨hfit, rfl⟩

/-- After CREATE_PART that ends OK on a sound dictionary the dictionary is sound, and a byte's frequency is its count in the
source added to its old frequency (R95). -/
theorem execCreatePart_ok_dict {s t : State} (h : exec .createPart s = .next t) (hok : t.cause = .ok)
    (hs : dictionarySound s.root = true) :
    dictionarySound t.root = true ∧ ∀ v, freqOfDict t.root v = s.source.count v + freqOfDict s.root v := by
  obtain ⟨hfit, hroot⟩ := execCreatePart_ok h hok
  rw [hroot]
  exact ⟨createPart_sound hs (by rw [s.source_length]; exact hfit), createPart_freq hs⟩

/-- Settles O23: both sides are the sum of the byte's counts in the two sources. -/
theorem createPartTwiceEqualsCreateOfBoth : Obligations.CreatePartTwiceEqualsCreateOfBoth := by
  intro s1 t1 s2 t2 s3 t3 hempty h1 hok1 hroot h2 hok2 hsource h3 v
  obtain ⟨hsound1, hfreq1⟩ := execCreatePart_ok_dict h1 hok1 (by rw [hempty]; rfl)
  obtain ⟨-, hfreq2⟩ := execCreatePart_ok_dict h2 hok2 (hroot ▸ hsound1)
  obtain ⟨-, rfl⟩ := execCreate_eq_next.mp h3
  calc freqOfDict t2.root v
      = s2.source.count v + (s1.source.count v + freqOfDict none v) := by rw [hfreq2, hroot, hfreq1, hempty]
    _ = (s1.source ++ s2.source).count v := by rw [List.count_append, freqOfDict]; omega
    _ = freqOfDict (combine (count s3.source)) v := by rw [create_freq, hsource]

/-! CLEAR (R99). -/

/-- Settles O14: CLEAR's arm sets ROOT to none and finishes OK, over every state. -/
theorem clearEmptiesTheDictionary : Obligations.ClearEmptiesTheDictionary := fun _ => rfl

end Sys2Proof.Machine
end

section
/-! PROOFS. The statements of 42_code_table.md: the entries of the table that DERIVE makes from an internal root and from a
degenerate tree, and the prefix property. -/

namespace Sys2Proof.Machine

/-! The entries of the table (R110 to R113). -/

/-- Settles O26: the table of an internal root holds the path of each leaf, as a code up to 8 edges and as its depth beyond. -/
theorem tableEntriesArePaths : Obligations.TableEntriesArePaths := by
  intro l r f v hs
  have hn : (TreeNode.node l r f).bytes.Nodup := TreeNode.sound_bytes hs
  refine ⟨derive_absent_iff hn v, fun _ _ hcode => derive_code hn hcode, fun d hwide => ?_⟩
  obtain ⟨hd, es, g, hbits, hlen, hpath⟩ := derive_wide hn hwide
  exact ⟨hd, es, g, hlen, hbits, hpath⟩

/-- Settles O27: the table of a degenerate tree is the one assignment to the leaf's byte. -/
theorem degenerateTreeHasAOneBitCode : Obligations.DegenerateTreeHasAOneBitCode := fun v f =>
  ⟨(derive_leaf v v f).trans (if_pos rfl), fun u hne => (derive_leaf v u f).trans (if_neg hne.symm)⟩

/-! The prefix property (R115). -/

/-- A code word of a tree that continues another stands for the same byte: the shorter one has already reached its leaf, and a
degenerate tree has one byte only. -/
theorem isWord_append_byte {t : TreeNode} {es rest : List Nat} {u v : Byte} (hu : isWord t es u)
    (hv : isWord t (es ++ rest) v) : v = u := by
  cases t with
  | leaf w f => exact hv.2.trans hu.2.symm
  | node l r f =>
    obtain ⟨g, hg⟩ := hu
    obtain ⟨k, hk⟩ := hv
    have hrest : rest = [] := TreeNode.follow_leaf_append hg hk
    rw [hrest, List.append_nil, hg] at hk
    cases hk
    rfl

/-- Settles O28: codes are code words of the tree, and a code word that continues another's belongs to the same byte. -/
theorem codesArePrefixFree : Obligations.CodesArePrefixFree := by
  rintro t u v hs hu hv hne ⟨rest, hcont⟩
  have hn : t.bytes.Nodup := TreeNode.sound_bytes hs
  have hword : isWord t (((derive t).entry u).bits ++ rest) v := hcont ▸ derive_isWord hn hv
  exact hne (isWord_append_byte (derive_isWord hn hu) hword).symm

end Sys2Proof.Machine
end

section
/-! PROOFS. The statements of 43_encoder.md: the ends of ENCODE before it writes, its next state when every byte has a code, and
two threaded calls against one. -/

namespace Sys2Proof.Machine

/-! Zero progress (R121). -/

/-- Settles O29: UNINIT is tested before the lengths, and the lengths before the memory phase. -/
theorem encodeZeroProgress : Obligations.EncodeZeroProgress := by
  refine ⟨fun s hnone => execEncode_uninit hnone, fun s hsome hzero => ?_⟩
  obtain ⟨t, ht⟩ := Option.ne_none_iff_exists'.mp hsome
  exact execEncode_empty ht (hzero.imp (congrArg BitVec.toNat) (congrArg BitVec.toNat))

/-! The abort of the first pass (R123). -/

/-- ENCODE past its zero-progress tests and its memory phase. -/
theorem execEncode_usable {s : State} {t : TreeNode} (hr : s.root = some t) (hsrc : s.srcLen ≠ 0) (hdst : s.dstLen ≠ 0)
    (hu : s.buffersUsable) : execEncode s = .next (encodeWith (derive t) s) := by
  have hlen : ¬(s.srcLen.toNat = 0 ∨ s.dstLen.toNat = 0) :=
    not_or.mpr ⟨fun h => hsrc (BitVec.eq_of_toNat_eq h), fun h => hdst (BitVec.eq_of_toNat_eq h)⟩
  rw [execEncode_run hr hlen, memoryPhase_none (State.bothProblem_eq_none.mpr hu)]

theorem encodeWith_abort {s : State} {table : CodeTable} {c : Cause} (h : symbolProblem table s.clampedSource = some c) :
    encodeWith table s = s.finish c 0 0 := by
  unfold encodeWith
  rw [h]

/-- The first pass answers for the byte at an index when every byte before it has a code (R123). -/
theorem symbolProblem_at {table : CodeTable} {bs : List Byte} {i : Nat} {b : Byte} {c : Cause} (hb : bs[i]? = some b)
    (hfront : ∀ (j : Nat) (x : Byte), j < i → bs[j]? = some x → (table.entry x).isCode = true)
    (hc : (table.entry b = .absent ∧ c = .unknownSymbol) ∨ ((∃ d, table.entry b = .wide d) ∧ c = .codeWidth)) :
    symbolProblem table bs = some c := by
  obtain ⟨hi, hbi⟩ := List.getElem?_eq_some_iff.mp hb
  refine symbolProblem_some.mpr ⟨bs.take i, b, bs.drop (i + 1), ?_, fun x hx => ?_, hc⟩
  · rw [← hbi, List.cons_getElem_drop_succ, List.take_append_drop]
  · obtain ⟨j, hj⟩ := List.mem_iff_getElem?.mp hx
    rw [List.getElem?_take] at hj
    split at hj
    · exact hfront j x ‹_› hj
    · cases hj

/-- The clamped source has the bytes of the source below the clamp (R122). -/
theorem State.clampedSource_getElem? {s : State} {i : Nat} (hi : i < s.clampedLen) : s.clampedSource[i]? = s.source[i]? := by
  rw [s.clampedSource_eq_take, List.getElem?_take, if_pos hi]

/-- Settles O30: the byte at index i is the first problem of the clamped source, and its entry names the cause. -/
theorem encodeAbortsBeforeWriting : Obligations.EncodeAbortsBeforeWriting := by
  intro s t i b hr hsrc hdst hu hi hb hfront
  have hclamp : i < s.clampedLen := hi
  have hat : s.clampedSource[i]? = some b := (State.clampedSource_getElem? hclamp).trans hb
  have hbefore : ∀ (j : Nat) (x : Byte), j < i → s.clampedSource[j]? = some x → ((derive t).entry x).isCode = true :=
    fun j x hj hx => hfront j x hj ((State.clampedSource_getElem? (Nat.lt_trans hj hclamp)).symm.trans hx)
  have hrun := execEncode_usable hr hsrc hdst hu
  exact ⟨fun habsent => hrun.trans (congrArg _ (encodeWith_abort (symbolProblem_at hat hbefore (.inl ⟨habsent, rfl⟩)))),
    fun d hwide => hrun.trans (congrArg _ (encodeWith_abort (symbolProblem_at hat hbefore (.inr ⟨⟨d, hwide⟩, rfl⟩))))⟩

/-! Every clamped byte has a code (R122 to R127). -/

/-- The next state of ENCODE when every clamped byte has a code (`exec_encode_coded`). -/
def State.packed (s : State) (table : CodeTable) : State :=
  (s.setMem (putStream s.dstAddr.toNat s.bitOffset.toNat (codeStream table (s.encoded table)) s.mem)).finish
    (packCause s (s.encoded table).length) (s.encoded table).length (s.bitOffset.toNat + streamLen table (s.encoded table))

theorem State.clampedSource_eq_take_clamp (s : State) : s.clampedSource = s.source.take (2 ^ 61 - 1) := by
  rw [s.clampedSource_eq_take, State.clampedLen, ← s.source_length, Nat.min_comm, ← List.take_take, List.take_length]

theorem exec_encode_coded {s : State} {t : TreeNode} (hi : s.Inv) (hr : s.root = some t) (hsrc : s.srcLen ≠ 0)
    (hdst : s.dstLen ≠ 0) (hu : s.buffersUsable) (hc : ∀ b ∈ s.source.take (2 ^ 61 - 1), ((derive t).entry b).isCode = true) :
    exec .encode s = .next (s.packed (derive t)) := by
  rw [← s.clampedSource_eq_take_clamp] at hc
  exact (execEncode_usable hr hsrc hdst hu).trans (congrArg _ (encodeWith_eq hi.2 hu hc))

section
variable (s : State) (table : CodeTable)

theorem State.encoded_length_le_clampedLen : (s.encoded table).length ≤ s.clampedLen := by
  rw [s.encoded_length, ← s.clampedSource_length]
  exact fitCount_le _ _ _ _

/-- RES0 is the number of bytes encoded (R127). -/
@[simp] theorem State.packed_res0_toNat : (s.packed table).res0.toNat = (s.encoded table).length :=
  (BitVec.toNat_ofNat ..).trans (Nat.mod_eq_of_lt (Nat.lt_of_le_of_lt (s.encoded_length_le table) s.srcLen.isLt))

/-- RES1 is the position after the last bit written (R127). -/
@[simp] theorem State.packed_res1_toNat :
    (s.packed table).res1.toNat = s.bitOffset.toNat + (codeStream table (s.encoded table)).length :=
  (BitVec.toNat_ofNat ..).trans (Nat.mod_eq_of_lt (Nat.lt_of_le_of_lt (s.encoded_pos_le table) (by decide)))

@[simp] theorem State.packed_cause : (s.packed table).cause = packCause s (s.encoded table).length := rfl

@[simp] theorem State.packed_mem : (s.packed table).mem =
    putStream s.dstAddr.toNat s.bitOffset.toNat (codeStream table (s.encoded table)) s.mem := rfl

/-- The bytes encoded are the first ones of the source (R125). -/
theorem State.take_encoded_length : s.source.take (s.encoded table).length = s.encoded table := by
  have htake : s.encoded table = s.clampedSource.take (s.encoded table).length := by rw [s.encoded_length, State.encoded]
  rw [s.clampedSource_eq_take, List.take_take, Nat.min_eq_left (s.encoded_length_le_clampedLen table)] at htake
  exact htake.symm

/-- What has been written stays below the capacity (R124). -/
theorem State.encoded_fits (h : (s.encoded table).length ≠ 0) :
    s.bitOffset.toNat + (codeStream table (s.encoded table)).length ≤ s.capacity :=
  (fitCount_bound table s.capacity s.bitOffset.toNat s.clampedSource).resolve_left (by rwa [← s.encoded_length])

variable {s table}

/-- The code word of the byte after the last one encoded does not fit (R125). -/
theorem State.encoded_stop (hc : ∀ b ∈ s.clampedSource, (table.entry b).isCode = true) {b : Byte}
    (hlt : (s.encoded table).length < s.clampedLen) (hb : s.source[(s.encoded table).length]? = some b) :
    s.capacity < s.bitOffset.toNat + (codeStream table (s.encoded table)).length + (table.entry b).bits.length := by
  rw [← State.clampedSource_getElem? hlt, s.encoded_length] at hb
  exact fitCount_stop hc hb

/-- All of the clamped source is encoded when its code stream fits (R125). -/
theorem State.encoded_eq_clampedSource (hc : ∀ b ∈ s.clampedSource, (table.entry b).isCode = true)
    (hfit : s.bitOffset.toNat + (codeStream table s.clampedSource).length ≤ s.capacity) : s.encoded table = s.clampedSource := by
  rw [State.encoded, fitCount_all hc hfit, List.take_length]

end

/-! The cause after the packing loop (R127). -/

theorem packCause_eq_ok {s : State} {i : Nat} : packCause s i = .ok ↔ i = s.srcLen.toNat := by
  unfold packCause
  split
  · simp [*]
  · split <;> simp [*]

theorem packCause_eq_bufferExhausted {s : State} {i : Nat} : packCause s i = .bufferExhausted ↔ i < s.clampedLen := by
  unfold packCause
  have hle := s.clampedLen_le
  split
  · simp only [reduceCtorEq, false_iff]; omega
  · split <;> simp [*]

theorem packCause_eq_clamped {s : State} {i : Nat} (hi : i ≤ s.clampedLen) :
    packCause s i = .clamped ↔ i ≠ s.srcLen.toNat ∧ i = 2 ^ 61 - 1 := by
  have hclamp : s.clampedLen = min s.srcLen.toNat (2 ^ 61 - 1) := rfl
  unfold packCause
  split
  · simp [*]
  · split
    · simp only [reduceCtorEq, false_iff]; omega
    · simp only [true_iff]; omega

/-- Settles O31: the packing loop encodes the first bytes, as many as fit, and their number decides the cause. -/
theorem encodeProgressIsTheLongestPrefixThatFits : Obligations.EncodeProgressIsTheLongestPrefixThatFits := by
  intro s t hi hr hsrc hdst hu hc
  have hle := s.encoded_length_le_clampedLen (derive t)
  refine ⟨_, exec_encode_coded hi hr hsrc hdst hu hc, rfl, ?_, ?_, ?_, ?_, ?_, ?_, ?_⟩
  · rw [State.packed_res0_toNat]
    exact hle
  · rw [State.packed_res0_toNat, State.packed_res1_toNat, State.take_encoded_length]
  · rw [← BitVec.toNat_inj, State.packed_res0_toNat, State.packed_res1_toNat]
    exact or_iff_not_imp_left.mpr (s.encoded_fits (derive t))
  · intro b hlt hb
    rw [State.packed_res0_toNat] at hlt hb
    rw [State.packed_res1_toNat]
    exact State.encoded_stop (s.clampedSource_eq_take_clamp ▸ hc) hlt hb
  · rw [State.packed_cause, ← BitVec.toNat_inj, State.packed_res0_toNat]
    exact packCause_eq_ok
  · rw [State.packed_cause, State.packed_res0_toNat]
    exact packCause_eq_bufferExhausted
  · rw [State.packed_cause, ne_eq, ← BitVec.toNat_inj, State.packed_res0_toNat]
    exact packCause_eq_clamped hle

/-- Settles O32: the clamped source fits, so all of it is encoded, and it is shorter than the source. -/
theorem clampedEncodeStopsAtTheClamp : Obligations.ClampedEncodeStopsAtTheClamp := by
  intro s t hi hr hlong hdst hu hc hfit
  have hsrc : s.srcLen ≠ 0 := fun h => by simp [h] at hlong
  have hclamp : s.clampedLen = 2 ^ 61 - 1 := Nat.min_eq_right (Nat.le_of_lt hlong)
  have htake := s.clampedSource_eq_take_clamp
  have henc : s.encoded (derive t) = s.clampedSource := State.encoded_eq_clampedSource (htake ▸ hc) (htake ▸ hfit)
  have hlen : (s.encoded (derive t)).length = 2 ^ 61 - 1 := by rw [henc, s.clampedSource_length, hclamp]
  refine ⟨_, exec_encode_coded hi hr hsrc hdst hu hc, ?_, ?_, ?_⟩
  · rw [State.packed_cause, packCause_eq_clamped (s.encoded_length_le_clampedLen _), hlen]
    exact ⟨Nat.ne_of_lt hlong, rfl⟩
  · rw [State.packed_res0_toNat, hlen]
  · rw [State.packed_res1_toNat, henc, htake]

/-- Settles O33: memory after ENCODE is the old one with the code stream put in from BIT_OFFSET on. -/
theorem encodeWritesExactlyTheCodeStream : Obligations.EncodeWritesExactlyTheCodeStream := by
  intro s t hi hr hsrc hdst hu hc
  have hm : s.mem.wf = true := hi.2
  have hbits := codeStream_isBits (derive t) (s.encoded (derive t))
  have hdest : s.destUsable := hu.2.1
  have hspace := State.encoded_inSpace (derive t) hdest
  refine ⟨_, exec_encode_coded hi hr hsrc hdst hu hc, ?_, fun p hp => ?_, fun a ha => ?_⟩
  · rw [State.packed_res0_toNat, State.packed_res1_toNat, State.take_encoded_length, State.packed_mem,
      Nat.add_sub_cancel_left]
    exact bitsFrom_putStream hm hbits hspace
  · rw [State.packed_res1_toNat] at hp
    rw [State.packed_mem]
    exact getBit_putStream_outside hm hbits hspace hp
  · rw [State.packed_mem]
    refine read_putStream_outside hm hbits hspace fun k hk => ha _ (Nat.le_add_right _ k) ?_
    rw [State.packed_res1_toNat]
    exact Nat.add_lt_add_left hk _

/-! Threaded calls (R130). -/

/-- What holds of every address of two regions end to end holds of every address of the one region they make. -/
theorem forall_address_append {P : Nat → Prop} {a n k : Nat} (h1 : ∀ i, i < n → P (a + i)) (h2 : ∀ i, i < k → P (a + n + i)) :
    ∀ i, i < n + k → P (a + i) := by
  intro i hi
  by_cases hn : i < n
  · exact h1 i hn
  · have hle := Nat.le_of_not_lt hn
    have := h2 (i - n) (Nat.sub_lt_left_of_lt_add hle hi)
    rwa [Nat.add_assoc, Nat.add_sub_cancel' hle] at this

theorem usable_append {c : Config} {a n k : Nat} (h1 : usable c ⟨a, n⟩) (h2 : usable c ⟨a + n, k⟩)
    (hspace : a + (n + k) ≤ 2 ^ 64) : usable c ⟨a, n + k⟩ :=
  ⟨.inr hspace, forall_address_append (P := fun x => accessible c x = true) h1.2 h2.2⟩

theorem disjoint_append {q : Region} {a n k : Nat} (h1 : disjoint ⟨a, n⟩ q) (h2 : disjoint ⟨a + n, k⟩ q) :
    disjoint ⟨a, n + k⟩ q :=
  forall_address_append (P := fun x => ∀ j, j < q.len → x ≠ q.base + j) h1 h2

/-- Memory outside the destination region reads after ENCODE as before (R126). -/
theorem execEncode_readBytes {s u : State} (hm : s.mem.wf = true) (h : exec .encode s = .next u) {a n : Nat}
    (hdis : disjoint ⟨a, n⟩ s.dstRegion) : u.mem.readBytes a n = s.mem.readBytes a n :=
  Memory.readBytes_congr fun i hi => exec_read_outside hm h (hdis i hi)

/-- What an ENCODE that ends OK found in its state, and its next state, field by field (`encodedAll_iff`). -/
structure EncodedAll (t : TreeNode) (s u : State) : Prop where
  root : s.root = some t
  srcLen_ne : s.srcLen.toNat ≠ 0
  dstLen_ne : s.dstLen.toNat ≠ 0
  buffers : s.buffersUsable
  codes : ∀ b ∈ s.source, ((derive t).entry b).isCode = true
  fits : s.bitOffset.toNat + streamLen (derive t) s.source ≤ s.capacity
  frame : u = { s with mem := u.mem, cause := .ok, res0 := s.srcLen, res1 := u.res1 }
  mem : u.mem = putStream s.dstAddr.toNat s.bitOffset.toNat (codeStream (derive t) s.source) s.mem
  res1 : u.res1.toNat = s.bitOffset.toNat + streamLen (derive t) s.source

theorem encodedAll_iff {s u : State} (hm : s.mem.wf = true) (hn : s.srcLen.toNat ≤ 2 ^ 61 - 1) :
    (exec .encode s = .next u ∧ u.cause = .ok) ↔ ∃ t, EncodedAll t s u := by
  constructor
  · rintro ⟨h, hok⟩
    obtain ⟨t, hroot, hsrc, hdst, hu, -, hc, hfit, rfl⟩ := execEncode_ok hm h hok
    refine ⟨t, hroot, hsrc, hdst, hu, hc, hfit, ?_, rfl, ?_⟩
    · simp [State.finish, State.setMem]
    · exact (BitVec.toNat_ofNat ..).trans (Nat.mod_eq_of_lt (Nat.lt_of_le_of_lt (hfit.trans s.capacity_le) (by decide)))
  · rintro ⟨t, h⟩
    have hframe := h.frame
    refine ⟨(execEncode_all hm h.root h.srcLen_ne h.dstLen_ne h.buffers hn h.codes h.fits).trans ?_, by rw [hframe]⟩
    rw [← h.mem, ← h.res1, hframe]
    simp [State.finish, State.setMem]

/-- Two ENCODEs that end OK, the second threaded after the first, are one over the whole source: the code stream of the whole is
that of the first part and then that of the second (R130). -/
theorem EncodedAll.append {t t' : TreeNode} {s u1 u2 : State} {n1 n2 : Word} (hsum : n1.toNat + n2.toNat = s.srcLen.toNat)
    (hspace : s.srcAddr.toNat + s.srcLen.toNat ≤ 2 ^ 64) (h1 : EncodedAll t { s with srcLen := n1 } u1)
    (h2 : EncodedAll t' { u1 with srcAddr := s.srcAddr + n1, srcLen := n2, bitOffset := u1.res1 } u2)
    (hread : ∀ a n, disjoint ⟨a, n⟩ s.dstRegion → u1.mem.readBytes a n = s.mem.readBytes a n) :
    EncodedAll t s { s with mem := u2.mem, cause := .ok, res0 := s.srcLen, res1 := u2.res1 } := by
  rw [h1.frame] at h2
  obtain rfl : t = t' := Option.some.inj (h1.root.symm.trans h2.root)
  have hn2 : n2.toNat ≠ 0 := h2.srcLen_ne
  have haddr : (s.srcAddr + n1).toNat = s.srcAddr.toNat + n1.toNat := by
    rw [BitVec.toNat_add, Nat.mod_eq_of_lt (by omega)]
  obtain ⟨hsrc1, hdst, hdis1⟩ : usable s.platform ⟨s.srcAddr.toNat, n1.toNat⟩ ∧ s.destUsable ∧
    disjoint ⟨s.srcAddr.toNat, n1.toNat⟩ s.dstRegion := h1.buffers
  obtain ⟨hsrc2, -, hdis2⟩ : usable s.platform ⟨(s.srcAddr + n1).toNat, n2.toNat⟩ ∧ s.destUsable ∧
    disjoint ⟨(s.srcAddr + n1).toNat, n2.toNat⟩ s.dstRegion := h2.buffers
  have hread2 : u1.mem.readBytes (s.srcAddr + n1).toNat n2.toNat = s.mem.readBytes (s.srcAddr.toNat + n1.toNat) n2.toNat := by
    rw [hread _ _ hdis2, haddr]
  have hsource : s.source = s.mem.readBytes s.srcAddr.toNat n1.toNat ++ u1.mem.readBytes (s.srcAddr + n1).toNat n2.toNat := by
    rw [State.source, ← hsum, Memory.readBytes_append, hread2]
  rw [haddr] at hsrc2 hdis2
  have hpos := h1.res1
  have hmem1 := h1.mem
  dsimp only [State.source] at hpos hmem1
  have hregion : s.srcRegion = ⟨s.srcAddr.toNat, n1.toNat + n2.toNat⟩ := by rw [State.srcRegion, hsum]
  exact {
    root := h1.root
    srcLen_ne := by omega
    dstLen_ne := h1.dstLen_ne
    buffers := by
      rw [State.buffersUsable, State.sourceUsable, hregion]
      exact ⟨usable_append hsrc1 hsrc2 (by omega), hdst, disjoint_append hdis1 hdis2⟩
    codes := by
      rw [hsource]
      exact List.forall_mem_append.mpr ⟨h1.codes, h2.codes⟩
    fits := by
      rw [hsource, streamLen_append, ← Nat.add_assoc, ← hpos]
      exact h2.fits
    frame := rfl
    mem := by
      rw [hsource, codeStream_append, putStream_append, ← hmem1, ← streamLen, ← hpos]
      exact h2.mem
    res1 := by
      rw [hsource, streamLen_append, ← Nat.add_assoc, ← hpos]
      exact h2.res1 }

/-- Settles O34: both calls encode all of their part, so the one call encodes all of the whole. -/
theorem splitEncodeEqualsWholeEncode : Obligations.SplitEncodeEqualsWholeEncode := by
  intro s n1 n2 hi hsum hclamp hspace u1 h1 hok1 u2 h2 hok2
  have hi1 : u1.Inv := exec_keeps_inv (s := { s with srcLen := n1 }) hi h1
  obtain ⟨t, e1⟩ := (encodedAll_iff (s := { s with srcLen := n1 }) hi.2 (by dsimp only; omega)).mp ⟨h1, hok1⟩
  obtain ⟨t', e2⟩ := (encodedAll_iff (s := { u1 with srcAddr := _, srcLen := n2, bitOffset := _ }) hi1.2
    (by dsimp only; omega)).mp ⟨h2, hok2⟩
  have hread : ∀ a n, disjoint ⟨a, n⟩ s.dstRegion → u1.mem.readBytes a n = s.mem.readBytes a n :=
    fun a n hdis => execEncode_readBytes (s := { s with srcLen := n1 }) hi.2 h1 hdis
  have e := EncodedAll.append hsum hspace e1 e2 hread
  obtain ⟨h, hok⟩ := (encodedAll_iff hi.2 hclamp).mpr ⟨t, e⟩
  refine ⟨_, h, hok, rfl, rfl, ?_⟩
  rw [e1.frame, e2.frame]
  exact hsum.symm

end Sys2Proof.Machine
end

section
/-! PROOFS. The statements of 44_decoder.md: what DECODE makes of its loop, a degenerate dictionary, a DECODE resumed after
BUFFER_EXHAUSTED, and the round trip of CREATE, ENCODE and DECODE; the causes that come with the pair (0, 0) (R191). -/

namespace Sys2Proof.Machine

/-! No dictionary (R141). -/

/-- Settles O36: UNINIT is tested before the memory phase. -/
theorem decodeWithoutDictionary : Obligations.DecodeWithoutDictionary := fun _ hnone => execDecode_uninit hnone

/-! The next state of DECODE (R140, R147). -/

/-- Where the loop of one DECODE stops (R140). -/
def State.unpacked (s : State) (t : TreeNode) : Unpacked :=
  unpackLoop t s.srcAddr.toNat s.dstAddr.toNat s.endOfBits s.dstLen.toNat s.bitOffset.toNat 0 s.mem

theorem decodeWith_eq_unpacked (t : TreeNode) (s : State) :
    decodeWith t s = (s.setMem (s.unpacked t).mem).finish (s.unpacked t).cause (s.unpacked t).pos (s.unpacked t).out := rfl

theorem exec_decode_usable {s : State} {t : TreeNode} (hr : s.root = some t) (hu : s.buffersUsable) :
    exec .decode s = .next (decodeWith t s) :=
  (execDecode_run hr).trans (memoryPhase_none (State.bothProblem_eq_none.mpr hu) _)

@[simp] theorem decodeWith_mem (t : TreeNode) (s : State) : (decodeWith t s).mem = (s.unpacked t).mem := rfl

@[simp] theorem decodeWith_cause (t : TreeNode) (s : State) : (decodeWith t s).cause = (s.unpacked t).cause := rfl

@[simp] theorem decodeWith_res0 (t : TreeNode) (s : State) : (decodeWith t s).res0 = BitVec.ofNat 64 (s.unpacked t).pos := rfl

/-- RES1 is the number of bytes produced, which fits a register as DST_LEN does (R147). -/
@[simp] theorem decodeWith_res1_toNat (t : TreeNode) (s : State) : (decodeWith t s).res1.toNat = (s.unpacked t).out := by
  have hle : (s.unpacked t).out ≤ 0 + s.dstLen.toNat := unpackLoop_out_le _ _ _ _
  rw [Nat.zero_add] at hle
  exact (BitVec.toNat_ofNat ..).trans (Nat.mod_eq_of_lt (Nat.lt_of_le_of_lt hle s.dstLen.isLt))

/-- RES0 is the position of the next code word (R147). -/
theorem decodeWith_res0_toNat {s : State} (t : TreeNode) (hm : s.mem.wf = true) (hu : s.buffersUsable) :
    (decodeWith t s).res0.toNat = (s.unpacked t).pos := by
  obtain ⟨-, -, -, -, -, -, -, -, -, -, -, -, hpos⟩ := decode_loop t hm hu
  exact (BitVec.toNat_ofNat ..).trans (Nat.mod_eq_of_lt (Nat.lt_of_le_of_lt hpos (by decide)))

/-- The end of the valid bits, said of the registers themselves (R142). -/
theorem State.endOfBits_eq (s : State) : s.endOfBits = if s.srcLen = 0 then 0
    else if s.endBitOffset = 0 then min (8 * s.srcLen.toNat) (2 ^ 64 - 1)
    else min (8 * (s.srcLen.toNat - 1) + s.endBitOffset.toNat) (2 ^ 64 - 1) := by
  simp only [← BitVec.toNat_inj]
  rfl

/-- Settles O37: the loop's whole code words, bytes and memory, read off the next state. -/
theorem decodeStoresTheBytesOfWholeCodeWords : Obligations.DecodeStoresTheBytesOfWholeCodeWords := by
  intro s t stop hi hr hu hstop
  obtain rfl : stop = s.endOfBits := hstop.trans s.endOfBits_eq.symm
  have hm : s.mem.wf = true := hi.2
  have hpos := decodeWith_res0_toNat t hm hu
  obtain ⟨words, bs, hwords, hout, hroom, hmem, hle, hend, hnone, hbits, hwhy, hspace, -⟩ := decode_loop t hm hu
  rw [← State.unpacked] at hout hmem hle hend hnone hbits hwhy
  have hres1 : (decodeWith t s).res1.toNat = bs.length := (decodeWith_res1_toNat t s).trans hout
  have hempty : (decodeWith t s).res1 = 0 ↔ bs = [] := by
    rw [← BitVec.toNat_inj, hres1]
    exact List.length_eq_zero_iff
  refine ⟨decodeWith t s, words, exec_decode_usable hr hu, rfl, ?_⟩
  simp only [ne_eq, hempty, hres1, hpos, decodeWith_mem, decodeWith_cause, hmem]
  refine ⟨hroom, hle, ?_, hbits, fun a ha => Memory.read_writeBytes_outside hm hspace ha, hend, fun h => ?_, ?_⟩
  · rw [Memory.readBytes_writeBytes hm hspace]
    exact hwords
  · exact BitVec.eq_of_toNat_eq (hpos.trans (hnone h))
  · rw [← BitVec.toNat_inj, hres1]
    exact hwhy

/-! A degenerate dictionary (R144). -/

/-- The bytes stored are read back, by their number (R42). -/
theorem Memory.readBytes_writeBytes_of_length {m : Memory} {a n : Nat} {bs : List Byte} (hm : m.wf = true) (hlen : bs.length = n)
    (hspace : a + n ≤ 2 ^ 64) : (m.writeBytes a bs).readBytes a n = bs := by
  subst hlen
  exact Memory.readBytes_writeBytes hm hspace

theorem State.buffersUsable.dst_space {s : State} (hu : s.buffersUsable) : s.dstAddr.toNat + s.dstLen.toNat ≤ 2 ^ 64 := by
  have hdest : s.destUsable := hu.2.1
  by_cases h0 : s.dstLen.toNat = 0
  · rw [h0]
    exact Nat.le_of_lt s.dstAddr.isLt
  · exact hdest.space (Nat.le_refl _) h0

/-- Settles O38: the loop on a leaf takes one valid bit for each byte it stores, until bits or room run out. -/
theorem degenerateDecodeCountsBits : Obligations.DegenerateDecodeCountsBits := by
  intro s v f hi hr hu hoff
  have hm : s.mem.wf = true := hi.2
  have hspace := hu.dst_space
  have hres1 := decodeWith_res1_toNat (.leaf v f) s
  have hres0 := decodeWith_res0_toNat (.leaf v f) hm hu
  have hloop : s.unpacked (.leaf v f) = _ := unpackLoop_leaf v f _ _ _ s.dstLen.toNat _ 0 s.mem hoff
  rw [hloop] at hres0 hres1
  simp only [Nat.zero_add] at hres1
  refine ⟨_, exec_decode_usable hr hu, hres1, ?_, ?_, ?_⟩
  · rw [hres0, hres1]
  · rw [hres1, decodeWith_mem, hloop]
    exact Memory.readBytes_writeBytes_of_length hm List.length_replicate (by omega)
  · rw [hres0, decodeWith_cause, hloop]
    dsimp only
    split
    · simp only [true_iff]; omega
    · simp only [reduceCtorEq, false_iff]; omega

/-! Resumption (R148). -/

/-- A loop with no room stores nothing, so its destination does not matter. -/
theorem unpackLoop_congr_dst {t : TreeNode} {src dst dst' stop room : Nat} (h : room ≠ 0 → dst = dst') (pos out : Nat)
    (m : Memory) :
    unpackLoop t src dst stop room pos out m = unpackLoop t src dst' stop room pos out m := by
  cases room with
  | zero => simp only [unpackLoop]
  | succ room => rw [h (Nat.succ_ne_zero room)]

/-- BUFFER_EXHAUSTED is the stop on a full destination (R145). -/
theorem State.unpacked_out_of_exhausted {s : State} {t : TreeNode} (hm : s.mem.wf = true) (hu : s.buffersUsable)
    (h : (s.unpacked t).cause = .bufferExhausted) : (s.unpacked t).out = s.dstLen.toNat := by
  obtain ⟨-, bs, -, hout, -, -, -, -, -, -, hwhy, -, -⟩ := decode_loop t hm hu
  rw [← State.unpacked] at hout hwhy
  rcases hwhy with ⟨hok, -⟩ | ⟨hok, -⟩ | ⟨-, -, hfull⟩
  · rw [h] at hok; cases hok
  · rw [h] at hok; cases hok
  · rw [hout, hfull]

/-- The state of a DECODE into the first `n1` bytes of the destination (R148). -/
def State.firstPart (s : State) (n1 : Word) : State :=
  { s with dstLen := n1 }

/-- The state of the DECODE resumed after it into the remaining `n2` bytes (R148). -/
def State.resumed (s : State) (t : TreeNode) (n1 n2 : Word) : State :=
  { decodeWith t (s.firstPart n1) with
    dstAddr := s.dstAddr + n1, dstLen := n2, bitOffset := (decodeWith t (s.firstPart n1)).res0 }

/-- The loop over the whole destination is the resumed loop, with the bytes of the first one added (R145, R148). -/
theorem State.unpacked_resumed {s : State} {t : TreeNode} {n1 n2 : Word} (hm : s.mem.wf = true) (hu : s.buffersUsable)
    (hsum : n1.toNat + n2.toNat = s.dstLen.toNat) (hu1 : (s.firstPart n1).buffersUsable)
    (hfull : ((s.firstPart n1).unpacked t).cause = .bufferExhausted) :
    s.unpacked t =
      { (s.resumed t n1 n2).unpacked t with out := ((s.resumed t n1 n2).unpacked t).out + n1.toNat } := by
  have hout : ((s.firstPart n1).unpacked t).out = 0 + n1.toNat :=
    (State.unpacked_out_of_exhausted (s := s.firstPart n1) hm hu1 hfull).trans (Nat.zero_add _).symm
  have hpos := decodeWith_res0_toNat (s := s.firstPart n1) t hm hu1
  have hspace := hu.dst_space
  have hdst : n2.toNat ≠ 0 → s.dstAddr.toNat + n1.toNat = (s.dstAddr + n1).toNat := by
    intro hn2
    rw [BitVec.toNat_add, Nat.mod_eq_of_lt (by omega)]
  calc s.unpacked t
      = unpackLoop t s.srcAddr.toNat s.dstAddr.toNat s.endOfBits n2.toNat ((s.firstPart n1).unpacked t).pos
          ((s.firstPart n1).unpacked t).out ((s.firstPart n1).unpacked t).mem := by
        rw [State.unpacked, ← hsum]
        exact unpackLoop_split n1.toNat n2.toNat _ _ _ hfull
    _ = _ := by
        rw [hout, unpackLoop_shift, unpackLoop_congr_dst hdst, ← hpos]
        rfl

/-- Settles O39: the loop over the whole destination is the resumed one, so both next states agree. -/
theorem resumedDecodeEqualsWholeDecode : Obligations.ResumedDecodeEqualsWholeDecode := by
  intro s n1 n2 hi hu hsum u1 h1 hfull u2 h2
  rcases execDecode_eq_next.mp h1 with ⟨-, rfl⟩ | ⟨t, hr, hp1, rfl⟩
  · cases hfull
  rcases execDecode_eq_next.mp h2 with ⟨hnone, -⟩ | ⟨t', hr', -, rfl⟩
  · exact absurd (hr.symm.trans hnone) (Option.some_ne_none t)
  obtain rfl : t = t' := Option.some.inj (hr.symm.trans hr')
  have hu1 : (s.firstPart n1).buffersUsable := State.bothProblem_eq_none.mp hp1
  have hloop := State.unpacked_resumed hi.2 hu hsum hu1 hfull
  have hout : ((s.firstPart n1).unpacked t).out = n1.toNat := State.unpacked_out_of_exhausted hi.2 hu1 hfull
  have hmem : (decodeWith t s).mem = (decodeWith t (s.resumed t n1 n2)).mem := by
    rw [decodeWith_mem, decodeWith_mem, hloop]
  have hres0 : (decodeWith t s).res0 = (decodeWith t (s.resumed t n1 n2)).res0 := by
    rw [decodeWith_res0, decodeWith_res0, hloop]
  have hcause : (decodeWith t s).cause = (decodeWith t (s.resumed t n1 n2)).cause := by
    rw [decodeWith_cause, decodeWith_cause, hloop]
  have hres1 : (decodeWith t s).res1.toNat =
      (decodeWith t (s.firstPart n1)).res1.toNat + (decodeWith t (s.resumed t n1 n2)).res1.toNat := by
    rw [decodeWith_res1_toNat, decodeWith_res1_toNat, decodeWith_res1_toNat, hloop, hout, Nat.add_comm]
  exact ⟨_, exec_decode_usable hr hu, hmem, hres0, hcause, hres1⟩

/-! The code stream of a list of bytes (R114, R143). -/

/-- Every code word has at least one bit. -/
theorem length_le_streamLen {t : TreeNode} (hn : t.bytes.Nodup) {bs : List Byte}
    (hc : ∀ b ∈ bs, ((derive t).entry b).isCode = true) : bs.length ≤ streamLen (derive t) bs := by
  induction bs with
  | nil => exact Nat.zero_le _
  | cons b bs ih =>
    have hword := isWord_length (derive_isWord hn (hc b List.mem_cons_self))
    have hrest := ih fun x hx => hc x (List.mem_cons_of_mem _ hx)
    rw [streamLen_cons, List.length_cons]
    omega

/-- Every code word has at most eight bits (R114). -/
theorem derive_bits_length_le {t : TreeNode} (hn : t.bytes.Nodup) (v : Byte) : ((derive t).entry v).bits.length ≤ 8 := by
  cases h : (derive t).entry v with
  | absent => exact Nat.zero_le 8
  | wide d => exact Nat.zero_le 8
  | code pat len =>
    rw [CodeEntry.bits, patternBits_length]
    exact (derive_code_length hn h).2.1

/-! The round trip (R150). -/

/-- The dictionary CREATE answers has a code for every byte of the source when none is wide (R94, R110). -/
theorem create_isCode {s a : State} {t : TreeNode} (h : exec .create s = .next a) (hr : a.root = some t) (hn : t.bytes.Nodup)
    (hw : ∀ b ∈ s.source, ∀ d, (derive t).entry b ≠ .wide d) : ∀ b ∈ s.source, ((derive t).entry b).isCode = true := by
  obtain ⟨-, rfl⟩ := execCreate_eq_next.mp h
  exact fun b hb => derive_isCode hn (create_mem_bytes hr hb) (hw b hb)

theorem create_srcLen {s a : State} (h : exec .create s = .next a) : a.srcLen = s.srcLen := by
  obtain ⟨-, rfl⟩ := execCreate_eq_next.mp h
  rfl

theorem create_source {s a : State} (h : exec .create s = .next a) : a.source = s.source := by
  obtain ⟨-, rfl⟩ := execCreate_eq_next.mp h
  rfl

theorem State.Inv.bytes_nodup {s : State} {t : TreeNode} (hi : s.Inv) (hr : s.root = some t) : t.bytes.Nodup := by
  have hsound := hi.1
  rw [hr] at hsound
  exact TreeNode.sound_bytes hsound

/-- ENCODE encodes all of a source whose whole code stream fits, as `EncodedAll` says it (R125). -/
theorem exists_encodedAll {s : State} {t : TreeNode} (hr : s.root = some t) (hn : t.bytes.Nodup) (hsrc : s.srcLen ≠ 0)
    (hu : s.buffersUsable) (hc : ∀ b ∈ s.source, ((derive t).entry b).isCode = true)
    (hfit : s.bitOffset.toNat + streamLen (derive t) s.source ≤ s.capacity) : ∃ e, EncodedAll t s e := by
  have hne : s.srcLen.toNat ≠ 0 := BitVec.toNat_ne_iff_ne.mpr hsrc
  have hlen := length_le_streamLen hn hc
  rw [s.source_length] at hlen
  have hcap : s.capacity ≤ 8 * s.dstLen.toNat := Nat.min_le_left _ _
  refine ⟨{ s with
    mem := putStream s.dstAddr.toNat s.bitOffset.toNat (codeStream (derive t) s.source) s.mem, cause := .ok, res0 := s.srcLen
    res1 := BitVec.ofNat 64 (s.bitOffset.toNat + streamLen (derive t) s.source) }, ?_⟩
  exact {
    root := hr
    srcLen_ne := hne
    dstLen_ne := by omega
    buffers := hu
    codes := hc
    fits := hfit
    frame := rfl
    mem := rfl
    res1 := (BitVec.toNat_ofNat ..).trans (Nat.mod_eq_of_lt (Nat.lt_of_le_of_lt (hfit.trans s.capacity_le) (by decide))) }

/-- The state of the DECODE that reads back what an ENCODE from `s` that ended in `e` has written (R150). -/
def State.readBack (s e : State) (out room : Word) : State :=
  { e with
    srcAddr := s.dstAddr, srcLen := BitVec.ofNat 64 ((e.res1.toNat + 7) / 8), bitOffset := s.bitOffset
    endBitOffset := BitVec.ofNat 3 (e.res1.toNat % 8), dstAddr := out, dstLen := room }

namespace EncodedAll

variable {t : TreeNode} {s e : State}

theorem stream_inSpace (h : EncodedAll t s e) :
    inSpace s.dstAddr.toNat s.bitOffset.toNat (codeStream (derive t) s.source).length := by
  intro k hk
  have hdest : s.destUsable := h.buffers.2.1
  exact hdest.bound (State.capacity_div (Nat.lt_of_lt_of_le (Nat.add_lt_add_left hk _) h.fits))

theorem exec_encode (h : EncodedAll t s e) (hm : s.mem.wf = true) (hclamp : s.srcLen.toNat ≤ 2 ^ 61 - 1) :
    exec .encode s = .next e ∧ e.cause = .ok :=
  (encodedAll_iff hm hclamp).mpr ⟨t, h⟩

theorem mem_wf (h : EncodedAll t s e) (hm : s.mem.wf = true) : e.mem.wf = true := by
  rw [h.mem]
  exact putStream_wf hm (codeStream_isBits _ _) h.stream_inSpace

/-- The valid bits of the DECODE end where the ENCODE ended (R142, R150). -/
theorem readBack_endOfBits (h : EncodedAll t s e) (hn : t.bytes.Nodup) (out room : Word) :
    (s.readBack e out room).endOfBits = e.res1.toNat := by
  have hlen := length_le_streamLen hn h.codes
  have hne := h.srcLen_ne
  have hres1 := h.res1
  rw [s.source_length] at hlen
  refine State.endOfBits_of_position (by omega) ?_ rfl rfl
  rw [hres1]
  exact h.fits.trans s.capacity_le

/-- The decoder's loop gives the encoded bytes back (R115, R150). -/
theorem readBack_unpacked (h : EncodedAll t s e) (hn : t.bytes.Nodup) (hm : s.mem.wf = true) {out room : Word}
    (hu : (s.readBack e out room).buffersUsable) (hroom : s.srcLen.toNat ≤ room.toNat) :
    (s.readBack e out room).unpacked t = ⟨.ok, e.res1.toNat, s.srcLen.toNat, e.mem.writeBytes out.toNat s.source⟩ := by
  have hlen := s.source_length
  have hend := h.readBack_endOfBits hn out room
  have hspace : out.toNat + room.toNat ≤ 2 ^ 64 := hu.dst_space
  have hbits : bitsFrom e.mem s.dstAddr.toNat s.bitOffset.toNat (streamLen (derive t) s.source) =
      codeStream (derive t) s.source := by
    rw [h.mem]
    exact bitsFrom_putStream hm (codeStream_isBits _ _) h.stream_inSpace
  have hloop := unpackLoop_codeStream (room := room.toNat) (dst := out.toNat) (out := 0) hn (h.mem_wf hm) h.codes hbits
    h.res1.symm (by omega) (by omega) fun p hp k hk => State.unpack_disjoint hu (hend.symm ▸ hp)
      (Nat.lt_of_lt_of_le (hlen ▸ hk) hroom)
  rw [Nat.zero_add, Nat.add_zero, hlen, ← hend] at hloop
  rw [← hend]
  exact hloop

/-- DECODE restores what ENCODE has encoded (R150). -/
theorem exec_readBack (h : EncodedAll t s e) (hn : t.bytes.Nodup) (hm : s.mem.wf = true) {out room : Word}
    (hu : (s.readBack e out room).buffersUsable) (hroom : s.srcLen.toNat ≤ room.toNat) :
    ∃ d, exec .decode (s.readBack e out room) = .next d ∧ d.cause = .ok ∧ d.res0 = e.res1 ∧ d.res1 = s.srcLen ∧
      d.mem.readBytes out.toNat s.srcLen.toNat = s.source := by
  have hroot : (s.readBack e out room).root = some t := (congrArg State.root h.frame).trans h.root
  have hspace : out.toNat + room.toNat ≤ 2 ^ 64 := hu.dst_space
  refine ⟨_, exec_decode_usable hroot hu, ?_⟩
  rw [decodeWith_eq_unpacked, h.readBack_unpacked hn hm hu hroom]
  exact ⟨rfl, BitVec.ofNat_toNat .., BitVec.ofNat_toNat ..,
    Memory.readBytes_writeBytes_of_length (h.mem_wf hm) s.source_length (by omega)⟩

end EncodedAll

/-- Settles O40: ENCODE writes the whole code stream of the source, and DECODE's valid bits are exactly that stream. -/
theorem roundTripRestoresTheBuffer : Obligations.RoundTripRestoresTheBuffer := by
  intro s a t dst len off hi _ hne hcreate hr hu hw hclamp hfit
  have hia : a.Inv := exec_keeps_inv hi hcreate
  have hn := hia.bytes_nodup hr
  have hc := create_isCode hcreate hr hn hw
  rw [← create_srcLen hcreate] at hne hclamp ⊢
  rw [← create_source hcreate] at hc hfit ⊢
  obtain ⟨e, he⟩ := exists_encodedAll (s := { a with dstAddr := dst, dstLen := len, bitOffset := off }) hr hn hne hu hc hfit
  obtain ⟨hexec, hok⟩ := he.exec_encode hia.2 hclamp
  exact ⟨e, hexec, hok, congrArg State.res0 he.frame, he.res1, fun out room hud hroom => he.exec_readBack hn hia.2 hud hroom⟩

/-! The pair (0, 0) (R191). -/

theorem State.unpacked_of_endOfBits_le {s : State} (t : TreeNode) (h : s.endOfBits ≤ s.bitOffset.toNat) :
    s.unpacked t = ⟨.ok, s.bitOffset.toNat, 0, s.mem⟩ := by
  unfold State.unpacked
  cases s.dstLen.toNat <;> rw [unpackLoop, if_pos h]

theorem State.unpacked_of_dstLen_zero {s : State} (t : TreeNode) (h0 : s.dstLen = 0) (h : s.bitOffset.toNat < s.endOfBits) :
    s.unpacked t = ⟨.bufferExhausted, s.bitOffset.toNat, 0, s.mem⟩ := by
  rw [State.unpacked, h0]
  exact if_neg (Nat.not_le_of_lt h)

theorem State.endOfBits_pos {s : State} (h : s.srcLen ≠ 0) : 0 < s.endOfBits := by
  have hlen : s.srcLen.toNat ≠ 0 := BitVec.toNat_ne_iff_ne.mpr h
  rw [s.endOfBits_eq, if_neg h]
  by_cases h0 : s.endBitOffset = 0
  · rw [if_pos h0]
    omega
  · have hend : s.endBitOffset.toNat ≠ 0 := BitVec.toNat_ne_iff_ne.mpr h0
    rw [if_neg h0]
    omega

/-- DECODE from bit 0 whose loop ends at once (R147). -/
theorem exec_decode_zero {s : State} {t : TreeNode} {c : Cause} (hr : s.root = some t) (hu : s.buffersUsable)
    (hoff : s.bitOffset = 0) (hloop : s.unpacked t = ⟨c, s.bitOffset.toNat, 0, s.mem⟩) :
    exec .decode s = .next { s with cause := c, res0 := 0, res1 := 0 } := by
  rw [hoff] at hloop
  rw [exec_decode_usable hr hu, decodeWith_eq_unpacked, hloop]
  rfl

/-- An ENCODE that ends BUFFER_EXHAUSTED has passed its tests, and has codes for the clamped source (R121, R123, R127). -/
theorem execEncode_bufferExhausted {s u : State} (hi : s.Inv) (h : exec .encode s = .next u)
    (hfull : u.cause = .bufferExhausted) :
    ∃ t, s.root = some t ∧ s.dstLen ≠ 0 ∧ (∀ b ∈ s.clampedSource, ((derive t).entry b).isCode = true) ∧
      u = s.packed (derive t) := by
  rcases execEncode_eq_next.mp h with ⟨-, rfl⟩ | ⟨t, -, -, rfl⟩ | ⟨t, hr, hlen, hp, rfl⟩
  · cases hfull
  · cases hfull
  · obtain ⟨-, hdst⟩ := not_or.mp hlen
    refine ⟨t, hr, fun h0 => hdst (congrArg BitVec.toNat h0), ?_⟩
    cases hsym : symbolProblem (derive t) s.clampedSource with
    | some c =>
      rw [encodeWith_abort hsym] at hfull
      obtain rfl : c = .bufferExhausted := hfull
      rcases symbolProblem_cause hsym with hc | hc <;> cases hc
    | none =>
      have hc := symbolProblem_none.mp hsym
      exact ⟨hc, encodeWith_eq hi.2 (State.bothProblem_eq_none.mp hp) hc⟩

/-- A code word from bit 0 fits any destination, so the loop that stops short has encoded a byte (R114, R124, R125). -/
theorem State.encoded_length_ne_zero {s : State} {t : TreeNode} (hn : t.bytes.Nodup) (hoff : s.bitOffset = 0)
    (hdst : s.dstLen ≠ 0) (hc : ∀ b ∈ s.clampedSource, ((derive t).entry b).isCode = true)
    (hshort : (s.encoded (derive t)).length < s.clampedLen) :
    (s.encoded (derive t)).length ≠ 0 := by
  intro h0
  have hdst : s.dstLen.toNat ≠ 0 := BitVec.toNat_ne_iff_ne.mpr hdst
  have hcap : s.capacity = min (8 * s.dstLen.toNat) (2 ^ 64 - 1) := rfl
  have hin : (s.encoded (derive t)).length < s.source.length := by
    rw [s.source_length]
    exact Nat.lt_of_lt_of_le hshort s.clampedLen_le
  have hstop := State.encoded_stop hc hshort (List.getElem?_eq_getElem hin)
  have hword := derive_bits_length_le hn s.source[(s.encoded (derive t)).length]
  have hzero : (codeStream (derive t) (s.encoded (derive t))).length = 0 := by
    rw [List.length_eq_zero_iff.mp h0]
    rfl
  have hoff : s.bitOffset.toNat = 0 := congrArg BitVec.toNat hoff
  omega

/-- Settles O56: DECODE's loop ends at once, and an ENCODE that stops short has written a code word. -/
theorem zeroPairNeedsTheCause : Obligations.ZeroPairNeedsTheCause := by
  refine ⟨fun s t hr hu hoff => ⟨fun hsrc => ?_, fun hsrc hdst => ?_⟩, decodeWithoutDictionary, fun s u hi hoff h hfull => ?_⟩
  · refine exec_decode_zero hr hu hoff (State.unpacked_of_endOfBits_le t ?_)
    rw [s.endOfBits_eq, if_pos hsrc]
    exact Nat.zero_le _
  · refine exec_decode_zero hr hu hoff (State.unpacked_of_dstLen_zero t hdst ?_)
    rw [hoff]
    exact State.endOfBits_pos hsrc
  · obtain ⟨t, hr, hdst, hc, rfl⟩ := execEncode_bufferExhausted hi h hfull
    have hn := hi.bytes_nodup hr
    have hshort : (s.encoded (derive t)).length < s.clampedLen := packCause_eq_bufferExhausted.mp hfull
    have hne := State.encoded_length_ne_zero hn hoff hdst hc hshort
    have hbits : (s.encoded (derive t)).length ≤ (codeStream (derive t) (s.encoded (derive t))).length :=
      length_le_streamLen hn fun b hb => hc b (List.mem_of_mem_take hb)
    refine ⟨BitVec.toNat_ne_iff_ne.mp ?_, BitVec.toNat_ne_iff_ne.mp ?_⟩
    · rw [State.packed_res0_toNat]
      exact hne
    · rw [State.packed_res1_toNat]
      show _ ≠ 0
      omega

end Sys2Proof.Machine
end

section
/-! PROOFS. The statements of 45_dictionary_access.md: NOP, SIZE and IS_INIT, the length of a tree image, the ends of TREE_EXPORT and
TREE_IMPORT, and the round trip of an exported image. -/

namespace Sys2Proof.Machine

/-! Queries (R160 to R162). -/

/-- Settles O11: NOP's arm only finishes OK with (0, 0). -/
theorem nopClearsResultsOnly : Obligations.NopClearsResultsOnly := fun _ => rfl

/-- Settles O12: the number is `size()`, the leaf total of a sound dictionary. -/
theorem sizeGivesTheLeafTotal : Obligations.SizeGivesTheLeafTotal := fun s hi =>
  ⟨s.size, dictionarySound_size hi.1, hi.size_lt, fun hnone => congrArg dictSize hnone, fun _ hr => congrArg dictSize hr, rfl⟩

/-- A sound tree has a leaf, whose frequency is above 0, so its size is above 0 too (R13). -/
theorem TreeNode.sound_freq_pos {t : TreeNode} (h : t.sound = true) : 0 < t.freq := by
  obtain ⟨hsums, hvalid⟩ := TreeNode.sound_iff.mp h
  obtain ⟨hpos, -, -⟩ := TreeNode.valid_iff.mp hvalid
  obtain ⟨p, hp⟩ := List.exists_mem_of_ne_nil t.leaves t.leaves_ne_nil
  rw [TreeNode.freq_eq_sum hsums]
  exact Nat.lt_of_lt_of_le (hpos p hp) (List.le_sum_of_mem (List.mem_map_of_mem hp))

/-- "Initialized" means a size above 0 (R162). -/
theorem dictSize_pos_iff {t : Option TreeNode} (h : dictionarySound t = true) : t ≠ none ↔ 0 < dictSize t := by
  cases t with
  | none => exact iff_of_false (fun hne => hne rfl) (Nat.lt_irrefl 0)
  | some t => exact iff_of_true (Option.some_ne_none t) (TreeNode.sound_freq_pos h)

theorem exec_isInit (s : State) :
    exec .isInit s = .next { s with cause := .ok, res0 := BitVec.ofNat 64 (initializedOf s.root), res1 := 0 } := rfl

/-- Settles O13: `isInitialized()` of no root and of a root, and the size of a sound tree. -/
theorem isInitTellsARootFromNone : Obligations.IsInitTellsARootFromNone := by
  refine ⟨fun s hnone => ?_, fun s t hr => ?_, fun s hi => dictSize_pos_iff hi.1⟩
  · rw [exec_isInit, hnone]
    rfl
  · rw [exec_isInit, hr]
    rfl

/-! The length of an image (R164). -/

/-- Settles O41: eleven bytes for each leaf but one, and at most 256 leaves. -/
theorem imageLengthFromLeafCount : Obligations.ImageLengthFromLeafCount := by
  intro t
  have hlen := imageLen_eq t
  refine ⟨image_length t, by omega, fun h => ?_⟩
  have hleaves := TreeNode.sound_leaves_le h
  omega

/-! TREE_EXPORT (R166). -/

/-- TREE_EXPORT of an image that fits a usable destination stores it whole. -/
theorem exec_treeExport_usable {s : State} {t : TreeNode} (hr : s.root = some t) (hn : imageLen t ≤ s.dstLen.toNat) (hu : s.destUsable) :
    exec .treeExport s =
      .next ((s.setMem (s.mem.writeBytes s.dstAddr.toNat (image t))).finish .ok (imageLen t) (imageLen t)) :=
  (execTreeExport_run hr hn).trans (memoryPhase_none (State.dstProblem_eq_none.mpr hu) _)

/-- An image that fits a usable destination ends inside the address space. -/
theorem image_space {s : State} {t : TreeNode} (hu : s.destUsable) (hn : imageLen t ≤ s.dstLen.toNat) :
    s.dstAddr.toNat + (image t).length ≤ 2 ^ 64 := by
  have hpos := imageLen_pos t
  rw [image_length]
  exact hu.space hn (by omega)

/-- Settles O42: the three arms of TREE_EXPORT, and the memory after the image has been stored. -/
theorem exportWritesTheImageOrNothing : Obligations.ExportWritesTheImageOrNothing := by
  refine ⟨fun s hnone => execTreeExport_uninit hnone, fun s t hr hsmall => ?_, fun s t hi hr hfit hu => ?_⟩
  · rw [image_length] at hsmall ⊢
    exact execTreeExport_small hr hsmall
  · have hn : imageLen t ≤ s.dstLen.toNat := by rwa [image_length] at hfit
    have hspace := image_space hu hn
    refine ⟨_, exec_treeExport_usable hr hn hu, ?_, ?_, fun a ha => ?_⟩
    · rw [image_length]
      rfl
    · exact Memory.readBytes_writeBytes hi.2 hspace
    · exact Memory.read_writeBytes_outside hi.2 hspace ha

/-! TREE_IMPORT (R169). -/

theorem exec_treeImport_usable {s : State} (hu : s.sourceUsable) : exec .treeImport s = .next (importFrom s s.source) :=
  memoryPhase_none (State.srcProblem_eq_none.mpr hu) _

/-- A candidate that passes VALID becomes ROOT. -/
theorem exec_treeImport_accepts {s : State} (hu : s.sourceUsable) {t : TreeNode} {used : Nat}
    (hp : parse s.source 0 = some (t, used)) (hv : t.valid = true) :
    exec .treeImport s = .next ((s.setRoot (some t)).finish .ok used t.freq) := by
  rw [exec_treeImport_usable hu, importFrom, hp]
  simp only [if_pos hv]

/-- Without a candidate that passes VALID the dictionary is left uninitialized. -/
theorem exec_treeImport_rejects {s : State} (hu : s.sourceUsable)
    (h : ∀ (t : TreeNode) (used : Nat), parse s.source 0 = some (t, used) → t.valid = false) :
    exec .treeImport s = .next ((s.setRoot none).finish .malformedTree 0 0) := by
  rcases importFrom_cases s s.source with ⟨t, used, hp, hv, -⟩ | ⟨-, hreject⟩
  · rw [h t used hp] at hv
    cases hv
  · rw [exec_treeImport_usable hu, hreject]

/-- Settles O43: the two ends of TREE_IMPORT, and what PARSE and VALID say of an accepted candidate. -/
theorem importAcceptsOrClears : Obligations.ImportAcceptsOrClears := by
  refine fun s hu => ⟨fun t used hp hv => ?_, exec_treeImport_rejects hu⟩
  obtain ⟨-, -, hused⟩ := parse_zero hp
  have hsound := parse_valid_sound hp hv
  exact ⟨exec_treeImport_accepts hu hp hv, by rwa [s.source_length] at hused, TreeNode.sound_freq_le hsound, hsound⟩

/-! Malformed images (R167, R168). -/

/-- PARSE from index 0 answers what the node parser answers, with an index in place of the bytes left (R167, log 13). -/
theorem parse_zero_eq (b : List Byte) : parse b 0 = (parseNode b.length b).map fun p => (p.1, b.length - p.2.length) := by
  unfold parse
  rw [List.drop_zero]
  cases parseNode b.length b <;> rfl

theorem parse_nil : parse [] 0 = none := rfl

/-- A tag other than the two of R165 makes PARSE fail. -/
theorem parse_unknownTag {tag : Byte} (rest : List Byte) (hnode : tag ≠ nodeTag) (hleaf : tag ≠ leafTag) :
    parse (tag :: rest) 0 = none := by
  rw [parse_zero_eq, List.length_cons, parseNode, if_neg hleaf, if_neg hnode]
  rfl

theorem parseNode_nil (fuel : Nat) : parseNode fuel [] = none := by
  cases fuel <;> rfl

/-- An internal node whose source ends with its left child makes PARSE fail. -/
theorem parseNode_missingRight {fuel : Nat} {bs : List Byte} {l : TreeNode} (h : parseNode fuel bs = some (l, [])) :
    parseNode (fuel + 1) (nodeTag :: bs) = none := by
  rw [parseNode, if_neg (by decide), if_pos rfl, h]
  simp only [parseNode_nil]

theorem parse_missingRight {l : TreeNode} (h : l.sound = true) : parse (nodeTag :: image l) 0 = none := by
  obtain ⟨hsums, hvalid⟩ := TreeNode.sound_iff.mp h
  have hleft : parseNode (image l).length (image l) = some (l, []) := by
    simpa using parseNode_image hsums (TreeNode.valid_freq_lt hvalid) [] (image_length l).ge
  rw [parse_zero_eq, List.length_cons, parseNode_missingRight hleft]
  rfl

/-- PARSE needs of an image only right sums and frequencies that fit their field; VALID is tested after it (R167, R168). -/
theorem parse_image_of_sums {t : TreeNode} (hsums : t.sumsOk = true) (hf : ∀ p ∈ t.leaves, p.2 < 2 ^ 64) (x : List Byte) :
    parse (image t ++ x) 0 = some (t, imageLen t) := by
  have hlen : (image t ++ x).length = imageLen t + x.length := by rw [List.length_append, image_length]
  rw [parse_zero_eq, parseNode_image hsums hf x (by omega), hlen, Option.map_some, Nat.add_sub_cancel]

/-- Two subtrees that share a byte value are not the children of a valid tree (R14, R168). -/
theorem join_not_valid {l r : TreeNode} {v : Byte} (hl : v ∈ l.bytes) (hr : v ∈ r.bytes) : (join l r).valid = false := by
  rw [Bool.eq_false_iff]
  intro hvalid
  obtain ⟨-, hnodup, -⟩ := TreeNode.valid_iff.mp hvalid
  have hnodup : (l.bytes ++ r.bytes).Nodup := by rwa [join, TreeNode.leaves, List.map_append] at hnodup
  exact List.disjoint_of_nodup_append hnodup hl hr

/-- The image of an internal node parses when its children are sound, whether or not they share a byte value. -/
theorem parse_join {l r : TreeNode} (hl : l.sound = true) (hr : r.sound = true) (x : List Byte) :
    parse (nodeTag :: (image l ++ image r ++ x)) 0 = some (join l r, imageLen (join l r)) := by
  obtain ⟨hlsums, hlvalid⟩ := TreeNode.sound_iff.mp hl
  obtain ⟨hrsums, hrvalid⟩ := TreeNode.sound_iff.mp hr
  refine parse_image_of_sums (t := join l r) (join_sumsOk hlsums hrsums) (fun p hp => ?_) x
  exact (List.mem_append.mp hp).elim (TreeNode.valid_freq_lt hlvalid p) (TreeNode.valid_freq_lt hrvalid p)

/-- Settles O44: PARSE fails on the first three kinds, and the candidate of the fourth is not valid. -/
theorem malformedImagesAreRejected : Obligations.MalformedImagesAreRejected := by
  intro s hu hbad
  refine exec_treeImport_rejects hu fun t used hp => ?_
  rcases hbad with hs | ⟨tag, rest, hnode, hleaf, hs⟩ | ⟨l, hl, hs⟩ | ⟨l, r, x, v, hl, hr, hvl, hvr, hs⟩
  · rw [hs, parse_nil] at hp
    cases hp
  · rw [hs, parse_unknownTag rest hnode hleaf] at hp
    cases hp
  · rw [hs, ← nodeTag, parse_missingRight hl] at hp
    cases hp
  · rw [hs, ← nodeTag, parse_join hl hr x] at hp
    cases hp
    exact join_not_valid hvl hvr

/-! The round trip (R170). -/

/-- TREE_EXPORT that ends OK has stored the image and answers its length twice. -/
theorem execTreeExport_ok {s u : State} {t : TreeNode} (hr : s.root = some t) (h : exec .treeExport s = .next u) (hok : u.cause = .ok) :
    imageLen t ≤ s.dstLen.toNat ∧ s.destUsable ∧
      u = (s.setMem (s.mem.writeBytes s.dstAddr.toNat (image t))).finish .ok (imageLen t) (imageLen t) := by
  rcases execTreeExport_eq_next.mp h with ⟨hnone, -⟩ | ⟨t', -, -, rfl⟩ | ⟨t', hr', hn, hp, hu⟩
  · rw [hr] at hnone
    cases hnone
  · cases hok
  · obtain rfl : t = t' := Option.some.inj (hr.symm.trans hr')
    exact ⟨hn, State.dstProblem_eq_none.mp hp, hu⟩

/-- A source that starts at the stored image and is at least as long begins with the image. -/
theorem State.source_eq_image_append {s : State} {m : Memory} {t : TreeNode} (hm : m.wf = true)
    (hmem : s.mem = m.writeBytes s.srcAddr.toNat (image t)) (hspace : s.srcAddr.toNat + (image t).length ≤ 2 ^ 64)
    (hlen : imageLen t ≤ s.srcLen.toNat) : ∃ x, s.source = image t ++ x := by
  rw [← image_length] at hlen
  obtain ⟨d, hd⟩ := Nat.exists_eq_add_of_le hlen
  have himage : s.mem.readBytes s.srcAddr.toNat (image t).length = image t := by
    rw [hmem]
    exact Memory.readBytes_writeBytes hm hspace
  exact ⟨_, by rw [State.source, hd, Memory.readBytes_append, himage]⟩

/-- TREE_IMPORT of a source that begins with the image of a sound tree makes that tree ROOT (R170). -/
theorem exec_treeImport_image {s : State} (hu : s.sourceUsable) {t : TreeNode} (hsound : t.sound = true) {x : List Byte}
    (hs : s.source = image t ++ x) : exec .treeImport s = .next ((s.setRoot (some t)).finish .ok (imageLen t) t.freq) :=
  exec_treeImport_accepts hu (by rw [hs, parse_image hsound]) (TreeNode.sound_iff.mp hsound).2

/-- Settles O45: the source of TREE_IMPORT begins with the image that TREE_EXPORT stored, and PARSE inverts IMG. -/
theorem exportThenImportRestoresTheRoot : Obligations.ExportThenImportRestoresTheRoot := by
  rintro s u s' t ⟨hdict, hm⟩ hr h hok hmem haddr hlen husable
  obtain ⟨hn, hu, rfl⟩ := execTreeExport_ok hr h hok
  have hsound : t.sound = true := by rwa [hr] at hdict
  have hres0 : (BitVec.ofNat 64 (imageLen t)).toNat = imageLen t :=
    (BitVec.toNat_ofNat ..).trans (Nat.mod_eq_of_lt (Nat.lt_of_le_of_lt hn s.dstLen.isLt))
  have hspace := image_space hu hn
  simp only [State.finish_res0, State.finish_mem, State.setMem_mem, hres0, ← haddr] at hlen hmem hspace
  obtain ⟨x, hx⟩ := State.source_eq_image_append hm hmem hspace hlen
  exact exec_treeImport_image husable hsound hx

end Sys2Proof.Machine
end

section
/-! PROOFS. The statements of 60_exceptions.md: the causes of each command, what a failure leaves as it was, the idle step, and that
the results of an earlier command do not matter. -/

namespace Sys2Proof.Machine

/-! The causes of each command (R182). -/

/-- The causes that the rule of a command lists (R182). -/
def causesOf : Instr → List Cause
  | .nop | .size | .isInit | .clear | .create => [.ok]
  | .createPart => [.ok, .freqOverflow]
  | .encode => [.uninit, .empty, .unknownSymbol, .codeWidth, .ok, .bufferExhausted, .clamped]
  | .decode => [.uninit, .ok, .bufferExhausted]
  | .treeExport => [.uninit, .bufferExhausted, .ok]
  | .treeImport => [.malformedTree, .ok]

/-- ENCODE past its zero-progress tests ends with a cause of one of its two passes. -/
theorem encodeWith_cause (table : CodeTable) (s : State) :
    (encodeWith table s).cause ∈ [Cause.unknownSymbol, .codeWidth, .ok, .bufferExhausted, .clamped] := by
  rcases encodeWith_cases table s with ⟨c, hc, e⟩ | ⟨-, p, e⟩ <;> rw [e, State.finish_cause]
  · rcases symbolProblem_cause hc with rfl | rfl <;> decide
  · rcases packCause_cases s p.index with hp | hp | hp <;> rw [hp] <;> decide

/-- DECODE past its UNINIT test ends with the cause of its outer loop (R145). -/
theorem decodeWith_cause_cases (u : TreeNode) (s : State) :
    (decodeWith u s).cause = .ok ∨ (decodeWith u s).cause = .bufferExhausted :=
  unpackLoop_cause ..

/-- Every command that answers a next state ends with a cause of its list. -/
theorem exec_cause_mem {i : Instr} {s t : State} (h : exec i s = .next t) : t.cause ∈ causesOf i := by
  cases i with
  | nop | size | isInit | clear => cases h; exact List.mem_singleton_self _
  | create =>
    obtain ⟨-, rfl⟩ := execCreate_eq_next.mp h
    exact List.mem_singleton_self _
  | createPart => rcases execCreatePart_eq_next.mp h with ⟨-, rfl⟩ | ⟨-, -, rfl⟩ <;> simp [causesOf]
  | encode =>
    rcases execEncode_eq_next.mp h with ⟨-, rfl⟩ | ⟨u, -, -, rfl⟩ | ⟨u, -, -, -, rfl⟩
    · simp [causesOf]
    · simp [causesOf]
    · exact .tail _ (.tail _ (encodeWith_cause ..))
  | decode =>
    rcases execDecode_eq_next.mp h with ⟨-, rfl⟩ | ⟨u, -, -, rfl⟩
    · simp [causesOf]
    · rcases decodeWith_cause_cases u s with e | e <;> rw [e] <;> decide
  | treeExport =>
    rcases execTreeExport_eq_next.mp h with ⟨-, rfl⟩ | ⟨u, -, -, rfl⟩ | ⟨u, -, -, -, rfl⟩ <;> simp [causesOf]
  | treeImport =>
    obtain ⟨-, rfl⟩ := execTreeImport_eq_next.mp h
    rcases importFrom_cases s s.source with ⟨u, used, -, -, e⟩ | ⟨-, e⟩ <;> simp [causesOf, e]

/-- Five commands end OK only. -/
theorem causesOf_ok {i : Instr} (hi : i ∈ [Instr.nop, .size, .isInit, .clear, .create]) : causesOf i = [.ok] := by
  revert i
  decide

/-- Settles O52: the clauses are the rows of `causesOf`, and a reserved word ends by its own `finish`. -/
theorem causesOfEachCommand : Obligations.CausesOfEachCommand := by
  refine fun s t => ⟨fun i hi h => ?_, exec_cause_mem, exec_cause_mem, exec_cause_mem, exec_cause_mem, exec_cause_mem,
    fun w rest why hp hd h => ?_⟩
  · have hc := exec_cause_mem h
    rw [causesOf_ok hi] at hc
    exact List.mem_singleton.mp hc
  · rw [step_illegal hp hd] at h
    cases h
    rfl

/-! Atomicity of failure (R186). -/

/-- ENCODE that ends with a cause of its first pass has written no memory (R123). -/
theorem encodeWith_failure_mem {table : CodeTable} {s : State}
    (hc : (encodeWith table s).cause ∉ [Cause.ok, .bufferExhausted, .clamped]) : (encodeWith table s).mem = s.mem := by
  rcases encodeWith_cases table s with ⟨c, -, e⟩ | ⟨-, p, e⟩
  · rw [e, State.finish_mem]
  · rw [e, State.finish_cause] at hc
    rcases packCause_cases s p.index with hp | hp | hp <;> rw [hp] at hc <;> exact absurd hc (by decide)

/-- The three commands that can write memory do so only on the way to OK, BUFFER_EXHAUSTED or CLAMPED. -/
theorem exec_failure_mem {i : Instr} {s t : State} (h : exec i s = .next t)
    (hc : t.cause ∉ [Cause.ok, .bufferExhausted, .clamped]) : t.mem = s.mem := by
  by_cases hi : i ∈ [Instr.encode, .decode, .treeExport]
  · simp only [List.mem_cons, List.not_mem_nil, or_false] at hi
    rcases hi with rfl | rfl | rfl
    · rcases execEncode_eq_next.mp h with ⟨-, rfl⟩ | ⟨u, -, -, rfl⟩ | ⟨u, -, -, -, rfl⟩
      · rfl
      · rfl
      · exact encodeWith_failure_mem hc
    · rcases execDecode_eq_next.mp h with ⟨-, rfl⟩ | ⟨u, -, -, rfl⟩
      · rfl
      · rcases decodeWith_cause_cases u s with e | e <;> rw [e] at hc <;> exact absurd hc (by decide)
    · rcases execTreeExport_eq_next.mp h with ⟨-, rfl⟩ | ⟨u, -, -, rfl⟩ | ⟨u, -, -, -, rfl⟩
      · rfl
      · rfl
      · simp at hc
  · exact exec_keeps_mem hi h

/-- Only TREE_IMPORT ends MALFORMED_TREE. -/
theorem eq_treeImport_of_malformedTree {i : Instr} (h : Cause.malformedTree ∈ causesOf i) : i = .treeImport := by
  revert h
  cases i <;> decide

/-- A rejected image leaves the dictionary uninitialized (R169). -/
theorem exec_malformedTree_root {i : Instr} {s t : State} (h : exec i s = .next t) (hc : t.cause = .malformedTree) :
    t.root = none := by
  obtain rfl : i = .treeImport := eq_treeImport_of_malformedTree (hc ▸ exec_cause_mem h)
  obtain ⟨-, rfl⟩ := execTreeImport_eq_next.mp h
  rcases importFrom_cases s s.source with ⟨u, used, -, -, e⟩ | ⟨-, e⟩
  · simp [e] at hc
  · rw [e]
    rfl

/-- Of the four commands that assign ROOT, three end OK or MALFORMED_TREE, and CREATE_PART that overflows leaves it (R96). -/
theorem exec_failure_root {i : Instr} {s t : State} (h : exec i s = .next t) (hm : t.cause ≠ .malformedTree) (ho : t.cause ≠ .ok) :
    t.root = s.root := by
  have hc := exec_cause_mem h
  by_cases hi : i ∈ [Instr.create, .createPart, .treeImport, .clear]
  · simp only [List.mem_cons, List.not_mem_nil, or_false] at hi
    rcases hi with rfl | rfl | rfl | rfl
    · simp [causesOf, ho] at hc
    · rcases execCreatePart_eq_next.mp h with ⟨-, rfl⟩ | ⟨-, -, rfl⟩
      · rfl
      · exact absurd rfl ho
    · simp [causesOf, hm, ho] at hc
    · simp [causesOf, ho] at hc
  · exact exec_keeps_root hi h

/-- Settles O53: what each cause leaves as it was, and a reserved word writes only the cause and the results. -/
theorem failureIsAtomic : Obligations.FailureIsAtomic := by
  refine ⟨fun i s t h => ⟨exec_failure_mem h, exec_malformedTree_root h, exec_failure_root h⟩, fun s t w rest why hp hd h => ?_⟩
  rw [step_illegal hp hd] at h
  cases h
  exact ⟨rfl, rfl, rfl⟩

/-! Between commands (R187, R192). -/

/-- Settles O6: with no action pending the step is idle. -/
theorem idleStepKeepsEverything : Obligations.IdleStepKeepsEverything := fun _ => step_idle

/-- Settles O54: no command reads the three fields, and `finish` overwrites them, so the two answers are equal by computation. -/
theorem earlierResultsDoNotMatter : Obligations.EarlierResultsDoNotMatter := by
  intro i s c r0 r1
  cases i <;> rfl

end Sys2Proof.Machine
end

section
/-! PROOFS. The statements of 70_reset_and_hazards.md: the state after a reset, the actions of the host that lead to the same state,
and that a dictionary made by CREATE knows every byte it was made of. -/

namespace Sys2Proof.Machine

/-! Reset (R200). -/

/-- Settles O58: the reset state has no ROOT and its memory lists no cell. -/
theorem resetMeetsTheInvariant : Obligations.ResetMeetsTheInvariant := ⟨rfl, rfl⟩

/-- A reset that is next in the host's list. -/
theorem step_reset {s : State} {rest : List HostAction} (h : s.pending = .reset :: rest) :
    step s = .next (s.setPending rest).blockReset :=
  step_cons h

/-- Settles O9: the step is `blockReset`, which takes the fields of the block from `State.reset`. -/
theorem resetGivesEveryResetValue : Obligations.ResetGivesEveryResetValue :=
  ⟨fun _ _ h => step_reset h, rfl, rfl, rfl, rfl, rfl, rfl, rfl, rfl, rfl, rfl⟩

/-! CLEAR, NOP and zeros in the operand registers (R201). -/

theorem core_run_succ {s t : State} (h : step s = .next t) (k : Nat) : core.run (k + 1) s = core.run k t := by
  have hcore : core.step s = .next t := h
  simp only [Host.Core.run, hcore]

/-- One step of a run takes the host's write of a command's word from the list and runs that command. -/
theorem core_run_cmd {s t : State} {i : Instr} {rest : List HostAction} (h : s.pending = .write .cmd (encode i) :: rest)
    (he : exec i (s.setPending rest) = .next t) (k : Nat) : core.run (k + 1) s = core.run k t :=
  core_run_succ ((step_cmd h (decodeWord_encode i)).trans he) k

/-- The state after 0 has been written to each register of a list. -/
def State.zeroRegs (s : State) (rs : List Reg) : State :=
  rs.foldl (fun t r => t.writeReg r 0) s

/-- The step takes the write of a register other than CMD from the front of the list (R28). -/
theorem step_setPending_write {r : Reg} (hc : r ≠ .cmd) (s : State) (v : Word) (rest : List HostAction) :
    step (s.setPending (.write r v :: rest)) = .next ((s.writeReg r v).setPending rest) := by
  rw [step_write hc rfl]
  cases r <;> rfl

/-- A run over writes of 0 to registers other than CMD leaves the registers written and no action pending. -/
theorem core_run_zeroRegs {rs : List Reg} (hc : ∀ r ∈ rs, r ≠ .cmd) (s : State) :
    core.run rs.length (s.setPending (rs.map (HostAction.write · 0))) = .next ((s.zeroRegs rs).setPending []) := by
  induction rs generalizing s with
  | nil => rfl
  | cons r rs ih =>
    obtain ⟨hr, hrs⟩ := List.forall_mem_cons.mp hc
    exact (core_run_succ (step_setPending_write hr s 0 _) rs.length).trans (ih hrs (s.writeReg r 0))

/-- Settles O10: CLEAR and NOP leave no ROOT and a result triple of zeros, and the six writes make the operand registers 0. -/
theorem clearNopAndZeroOperandsEqualReset : Obligations.ClearNopAndZeroOperandsEqualReset := by
  intro s
  rw [step_reset rfl]
  refine (core_run_cmd (i := .clear) rfl rfl 7).trans ((core_run_cmd (i := .nop) rfl rfl 6).trans ?_)
  exact core_run_zeroRegs (rs := [.srcAddr, .srcLen, .dstAddr, .dstLen, .bitOffset, .endBitOffset]) (by decide) _

/-! The dictionary of CREATE knows its source (R204). -/

/-- The first pass ends UNKNOWN_SYMBOL for an absent byte only (R123). -/
theorem symbolProblem_ne_unknownSymbol {table : CodeTable} {bs : List Byte} (h : ∀ b ∈ bs, table.entry b ≠ .absent) :
    symbolProblem table bs ≠ some .unknownSymbol := by
  intro hp
  obtain ⟨front, b, back, rfl, -, ⟨habsent, -⟩ | ⟨-, hc⟩⟩ := symbolProblem_some.mp hp
  · exact h b (List.mem_append_right front List.mem_cons_self) habsent
  · cases hc

/-- ENCODE past its zero-progress tests ends UNKNOWN_SYMBOL in its first pass only (R123, R127). -/
theorem encodeWith_ne_unknownSymbol {table : CodeTable} {s : State} (h : ∀ b ∈ s.clampedSource, table.entry b ≠ .absent) :
    (encodeWith table s).cause ≠ .unknownSymbol := by
  rcases encodeWith_cases table s with ⟨c, hc, e⟩ | ⟨-, p, e⟩ <;> rw [e, State.finish_cause]
  · rintro rfl
    exact symbolProblem_ne_unknownSymbol h hc
  · rcases packCause_cases s p.index with hp | hp | hp <;> rw [hp] <;> decide

/-- The dictionary CREATE answers is sound whatever the dictionary before it was (R94). -/
theorem create_dictionarySound {s a : State} (h : exec .create s = .next a) : dictionarySound a.root = true := by
  obtain ⟨-, rfl⟩ := execCreate_eq_next.mp h
  exact create_sound s.source_length_le

/-- The code table of the dictionary CREATE answers has an entry for every byte of the source (R94, R110). -/
theorem create_entry_ne_absent {s a : State} {t : TreeNode} (h : exec .create s = .next a) (hr : a.root = some t) :
    ∀ b ∈ s.source, (derive t).entry b ≠ .absent := by
  have hsound := create_dictionarySound h
  rw [hr] at hsound
  obtain ⟨-, rfl⟩ := execCreate_eq_next.mp h
  exact fun b hb habsent => (derive_absent_iff (TreeNode.sound_bytes hsound) b).mp habsent (create_mem_bytes hr hb)

/-- Settles O35: ENCODE reads the source CREATE counted, and no byte of it is absent from the code table. -/
theorem createdDictionaryKnowsItsBytes : Obligations.CreatedDictionaryKnowsItsBytes := by
  intro s t _ hcreate dst len off u hencode
  rcases execEncode_eq_next.mp hencode with ⟨-, rfl⟩ | ⟨_, -, -, rfl⟩ | ⟨tree, hr, -, -, rfl⟩
  · nofun
  · nofun
  · refine encodeWith_ne_unknownSymbol fun b hb => create_entry_ne_absent hcreate hr b ?_
    rw [State.clampedSource_eq_take] at hb
    have hmem : b ∈ t.source := List.mem_of_mem_take hb
    exact create_source hcreate ▸ hmem

end Sys2Proof.Machine
end
